-- ==== Sys2Proof/Word.lean ====
section
/-! DEFINITION. The word types of HUFFCODEC and their plainest arithmetic (spec/00_scope.md R7, R10, R11). -/
namespace Sys2Proof

/-- A data word of the host port and every 32-bit register (20_memory.md R60, 00_scope.md R7 CNT_W). -/
abbrev Word := BitVec 32

/-- A Symbol and a byte cell (00_scope.md R7, SYM_W = 8). -/
abbrev Byte := BitVec 8

/-- A node id: 0 to 255 leaves, 256 to 510 internal nodes (10_state.md R28). -/
abbrev NodeId := BitVec 9

/-- A bitstring, first bit first (00_scope.md R11). -/
abbrev Bits := List Bool

/-- The 32-bit word with the value of a natural number in range (`zext_32` of 00_scope.md R10). -/
abbrev word (n : Nat) : Word := BitVec.ofNat 32 n

end Sys2Proof
end

