-- ==== Sys2Proof/Syntax.lean ====
section
/-! DEFINITION. The sixteen commands of HUFFCODEC as syntax (spec/30_encoding.md R92, spec/opcode_table.json): one
constructor for each row of the table. A command has no operand field (R91), so no constructor has an argument. -/
namespace Sys2Proof

/-- The two units (20_memory.md R60: 0 = HENC, 1 = HDEC). -/
inductive UnitId where
  | henc
  | hdec
deriving DecidableEq, Repr

/-- One constructor per row of the opcode map (30_encoding.md R92). A row belongs to the unit whose CMD register takes
it: NOP, CLEAR and TABCLR are three rows of HENC and three others of HDEC. -/
inductive Instr where
  | hencNop
  | hencClear
  | hencTabclr
  | hencUsetab
  | hencAnalyze
  | hencBuild
  | hencGencodes
  | hencEncode
  | hencPack
  | hencCompress
  | hdecNop
  | hdecClear
  | hdecTabclr
  | hdecUnpack
  | hdecScan
  | hdecDecode
deriving DecidableEq, Repr

end Sys2Proof
end

