-- ==== Sys2Proof/Config.lean ====
section
/-! DEFINITION. What one HUFFCODEC fixes (spec/00_scope.md R7, R8; the ID constants of 10_state.md R21 and R36) and the
free values that stand for UNSPEC cells (00_scope.md R13, 93_implementation_defined.md U1 to U4). -/
namespace Sys2Proof

/-- The four independent capacity parameters (00_scope.md R8), each as wide as the register it is read in (10_state.md R21
and R36). A State carries them (log 4), so a statement over all states is one over all configurations. -/
structure Capacities where
  /-- IN_CAP, cells of HENC.IN_BUF. -/
  inCap  : Word
  /-- OUT_CAP, cells of HENC.OUT_BUF, header byte included. -/
  outCap : Word
  /-- PAY_CAP, cells of HDEC.PAY_BUF, header byte included. -/
  payCap : Word
  /-- SYM_CAP, cells of HDEC.SYM_BUF. -/
  symCap : Word
deriving DecidableEq, Repr

/-- BIT_CAP = 8 * (OUT_CAP - 1), cells of HENC.BITBUF (00_scope.md R8). -/
abbrev Capacities.bitCap (c : Capacities) : Nat := 8 * (c.outCap.toNat - 1)

/-- DBIT_CAP = 8 * (PAY_CAP - 1), cells of HDEC.DBITS (00_scope.md R8). -/
abbrev Capacities.dBitCap (c : Capacities) : Nat := 8 * (c.payCap.toNat - 1)

namespace Config

/-- The reference configuration of 00_scope.md R8. -/
def reference : Capacities := ⟨4096, 4097, 4097, 32768⟩

/-- HENC.ID, ASCII "HEN1" (10_state.md R21). -/
def hencId : Word := 0x48454E31

/-- HDEC.ID, ASCII "HDE1" (10_state.md R36). -/
def hdecId : Word := 0x48444531

/-- The value of the n-th draw from an UNSPEC byte cell: any value (93_implementation_defined.md U1; log 5). It has no
body, so nothing can be proved of it. -/
opaque freeByte : Nat → Byte

/-- The value of the n-th draw from an UNSPEC bit cell: any value (93_implementation_defined.md U1; log 5). -/
opaque freeBit : Nat → Bool

end Config
end Sys2Proof
end

