-- ==== Sys2Proof/WellFormed.lean ====
section
/-! DEFINITION. What is well formed: a configuration (spec/00_scope.md R8), a command word's format (30_encoding.md R90)
and a command. -/
namespace Sys2Proof

/-- The constraints of 00_scope.md R8. IN_CAP and SYM_CAP are bounded by 2^32 - 1 through their width alone. -/
def Capacities.wf (c : Capacities) : Bool :=
  decide (1 ≤ c.outCap.toNat) && decide (c.outCap.toNat ≤ 2 ^ 29) &&
    decide (1 ≤ c.payCap.toNat) && decide (c.payCap.toNat ≤ 2 ^ 29)

/-- Format CMD: bits 31:8 of a command word are zero (30_encoding.md R90). -/
def wordFormat (w : Word) : Bool := w.extractLsb' 8 24 == 0

/-- A command is well formed as it stands: it has no register number, immediate, mode or condition that could be out of
range (30_encoding.md R90, R91). -/
def Instr.wf : Instr → Bool := fun _ => true

end Sys2Proof
end

