-- ==== Sys2Proof/Decode.lean ====
section
/-! DEFINITION. Decoding and encoding of command words (spec/30_encoding.md R90 to R95), total on all 2^32 words of both
units. -/
namespace Sys2Proof

/-- Why a word is illegal for a unit (30_encoding.md R93). -/
inductive Illegal where
  /-- `w[31:8] != 0`. -/
  | zeroField
  /-- `w[7:0]` is no opcode of the unit. -/
  | opcode
deriving DecidableEq, Repr

/-- One row of the opcode map. -/
structure OpcodeRow where
  unit  : UnitId
  opc   : Byte
  instr : Instr
deriving DecidableEq, Repr

/-- The opcode map, column HENC and then column HDEC (30_encoding.md R92). -/
def opcodeMap : List OpcodeRow :=
  [⟨.henc, 0x00, .hencNop⟩, ⟨.henc, 0x01, .hencClear⟩, ⟨.henc, 0x02, .hencTabclr⟩, ⟨.henc, 0x03, .hencUsetab⟩,
   ⟨.henc, 0x10, .hencAnalyze⟩, ⟨.henc, 0x11, .hencBuild⟩, ⟨.henc, 0x12, .hencGencodes⟩, ⟨.henc, 0x13, .hencEncode⟩,
   ⟨.henc, 0x14, .hencPack⟩, ⟨.henc, 0x1F, .hencCompress⟩,
   ⟨.hdec, 0x00, .hdecNop⟩, ⟨.hdec, 0x01, .hdecClear⟩, ⟨.hdec, 0x02, .hdecTabclr⟩,
   ⟨.hdec, 0x20, .hdecUnpack⟩, ⟨.hdec, 0x21, .hdecScan⟩, ⟨.hdec, 0x2F, .hdecDecode⟩]

/-- `Decode(unit, w)` (30_encoding.md R94). -/
def decode (u : UnitId) (w : Word) : Except Illegal Instr :=
  if wordFormat w then
    match opcodeMap.find? (fun r => r.unit == u && r.opc == w.setWidth 8) with
    | some r => .ok r.instr
    | none   => .error .opcode
  else .error .zeroField

/-- The unit whose CMD register takes the command (the column of 30_encoding.md R92). -/
def Instr.unit : Instr → UnitId
  | .hencNop | .hencClear | .hencTabclr | .hencUsetab | .hencAnalyze => .henc
  | .hencBuild | .hencGencodes | .hencEncode | .hencPack | .hencCompress => .henc
  | .hdecNop | .hdecClear | .hdecTabclr | .hdecUnpack | .hdecScan | .hdecDecode => .hdec

/-- The command word (30_encoding.md R90, R92). -/
def encode : Instr → Word
  | .hencNop      => 0x00000000
  | .hencClear    => 0x00000001
  | .hencTabclr   => 0x00000002
  | .hencUsetab   => 0x00000003
  | .hencAnalyze  => 0x00000010
  | .hencBuild    => 0x00000011
  | .hencGencodes => 0x00000012
  | .hencEncode   => 0x00000013
  | .hencPack     => 0x00000014
  | .hencCompress => 0x0000001F
  | .hdecNop      => 0x00000000
  | .hdecClear    => 0x00000001
  | .hdecTabclr   => 0x00000002
  | .hdecUnpack   => 0x00000020
  | .hdecScan     => 0x00000021
  | .hdecDecode   => 0x0000002F

/-- The word of the low `nbits` bits of `w`, when it is a 32-bit word. -/
def tableWord (nbits w : Nat) : Option Word :=
  if w % 2 ^ nbits < 2 ^ 32 then some (word (w % 2 ^ nbits)) else none

/-- DESIGN CHOICE (log 1): the unit a bare table word is sent to. A word says nothing of its unit (30_encoding.md R90), so
it goes to HENC when HENC has the opcode and to HDEC otherwise. -/
def unitFor (w : Word) : UnitId :=
  match decode .henc w with
  | .ok _    => .henc
  | .error _ => .hdec

/-- The command a bare word of spec/opcode_table.json stands for, at the unit of `unitFor`. -/
def decodeTableWord (nbits w : Nat) : Option Instr :=
  match tableWord nbits w with
  | none   => none
  | some v =>
    match decode (unitFor v) v with
    | .ok i    => some i
    | .error _ => none

end Sys2Proof
end

