-- ==== Sys2Proof/Machine/State.lean ====
section
/-! DEFINITION. The state of HUFFCODEC as plain data (spec/10_state.md R20 to R50), the host port's transactions and answers
(20_memory.md R60), the ways a step can stop, and the state after reset. -/
namespace Sys2Proof.Machine

/-- A data buffer or bit space: (index, value) pairs, indices strictly rising. An index that is not listed holds UNSPEC
(00_scope.md R13; log 6). With bytes it is a list of `Host.Cell`. -/
abbrev Memory (α : Type) := List (Nat × α)

/-- An entry of TREE: weight and the two children (10_state.md R29, 30_encoding.md R98). -/
structure TreeNode where
  w  : Word
  c0 : NodeId
  c1 : NodeId
deriving DecidableEq, Repr

/-- An entry of CODE_TAB or DEC_TAB (10_state.md R31, 30_encoding.md R96). -/
structure Entry where
  len  : BitVec 8
  bits : BitVec 255
deriving DecidableEq, Repr

/-- HENC.PHASE (10_state.md R23). The values "not used" have no constructor (log 10). -/
inductive HencPhase where
  | idle
  | counted
  | tree
  | codes
  | encoded
  | packed
  | fault
deriving DecidableEq, Repr

/-- HDEC.PHASE (10_state.md R23, R37). -/
inductive HdecPhase where
  | idle
  | unpacked
  | decoded
  | fault
deriving DecidableEq, Repr

/-- ERR_CODE, ERR_INFO and ERR_POS of one unit (10_state.md R24, R37). -/
structure ErrRegs where
  code : BitVec 8
  info : Word
  pos  : Word
deriving DecidableEq, Repr

/-- The encoder unit (10_state.md R21 to R35). -/
structure Henc where
  phase   : HencPhase
  err     : ErrRegs
  inLen   : Word
  inBuf   : Memory Byte
  freq    : Vector Word 256
  nsym    : BitVec 9
  tree    : Vector TreeNode 255
  root    : NodeId
  codeTab : Vector Entry 256
  bitBuf  : Memory Bool
  bitLen  : Word
  outBuf  : Memory Byte
  outLen  : Word
deriving DecidableEq, Repr

/-- The decoder unit (10_state.md R36 to R43). -/
structure Hdec where
  phase   : HdecPhase
  err     : ErrRegs
  payLen  : Word
  payBuf  : Memory Byte
  decTab  : Vector Entry 256
  dBits   : Memory Bool
  dBitLen : Word
  symBuf  : Memory Byte
  symLen  : Word
deriving DecidableEq, Repr

/-- The kind signal of a transaction (20_memory.md R60). -/
inductive Kind where
  | read
  | write
deriving DecidableEq, Repr

/-- A transaction on the host port (20_memory.md R60). -/
structure Transaction where
  unit  : UnitId
  space : BitVec 4
  index : Word
  kind  : Kind
  wdata : Word
deriving DecidableEq, Repr

/-- The resp signal (20_memory.md R60). -/
inductive Resp where
  | ok
  | err
deriving DecidableEq, Repr

/-- What a transaction gets back (20_memory.md R60). -/
structure Response where
  resp  : Resp
  rdata : Word
deriving DecidableEq, Repr

/-- What the host can do next: a transaction, or assert `rst` (70_reset_and_hazards.md R245, R248). -/
inductive Event where
  | transaction (t : Transaction)
  | rst
deriving DecidableEq, Repr

/-- The whole machine. -/
structure State where
  /-- The capacity parameters of this block (00_scope.md R8), constants: no step changes them (log 4). -/
  caps     : Capacities
  /-- The encoder unit. -/
  henc     : Henc
  /-- The decoder unit. -/
  hdec     : Hdec
  /-- The model's own: the host's events not yet taken, in the port's order (20_memory.md R77, log 2). -/
  pending  : List Event
  /-- The model's own: the answer to the latest transaction (20_memory.md R60, log 3). -/
  response : Option Response
  /-- The model's own: how many free values have been drawn from UNSPEC cells (log 5). -/
  draws    : Nat
deriving DecidableEq, Repr

/-- Why the machine stops. HUFFCODEC itself never stops: a failing command enters the FAULT phase, a next state. These two
name what GENCODES's loop does on a TREE that no run from reset can hold (log 8); both are safe. -/
inductive Fault where
  /-- Raised by GENCODES (43_codes.md R146) when the nodes below ROOT form a cycle, where the loop of the rule does not
  end. Safe: the machine stops where the hardware would not answer, and no reachable state has such a TREE. -/
  | treeCycle
  /-- Raised by GENCODES (43_codes.md R146) when it reaches the node id 511, which "names no node and never appears"
  (10_state.md R28). Safe: no reachable state has such a TREE. -/
  | noSuchNode
deriving DecidableEq, Repr

/-- Why a command has no meaning. -/
inductive Refusal where
  /-- A command of the opcode table that `exec` does not give a meaning. No arm raises it. Safe. -/
  | notModelled (mnemonic : String)
deriving DecidableEq, Repr

/-- A command that failed: code, info and position registers still to be written (60_exceptions.md R216). -/
inductive ErrKind where
  | emptyInput
  | unknownSymbol
  | corruptStream
  | illegalCommand
  | capacity
deriving DecidableEq, Repr

/-- The arguments of `raise E(info, pos)` (60_exceptions.md R222). -/
structure Failure where
  kind : ErrKind
  info : Word
  pos  : Word
deriving DecidableEq, Repr

/-- An answer of one step. -/
abbrev Result := Host.Outcome State Fault Refusal

/-- How the body of a command ends: it succeeds, it raises an error (the state already in FAULT), or it never ends. -/
inductive Stage where
  | done (s : State)
  | raised (s : State)
  | stuck (f : Fault)
deriving DecidableEq, Repr

/-- HENC after reset (10_state.md R50). -/
def Henc.reset : Henc where
  phase   := .idle
  err     := ⟨0, 0, 0⟩
  inLen   := 0
  inBuf   := []
  freq    := Vector.replicate 256 0
  nsym    := 0
  tree    := Vector.replicate 255 ⟨0, 0, 0⟩
  root    := 0
  codeTab := Vector.replicate 256 ⟨0, 0⟩
  bitBuf  := []
  bitLen  := 0
  outBuf  := []
  outLen  := 0

/-- HDEC after reset (10_state.md R50). -/
def Hdec.reset : Hdec where
  phase   := .idle
  err     := ⟨0, 0, 0⟩
  payLen  := 0
  payBuf  := []
  decTab  := Vector.replicate 256 ⟨0, 0⟩
  dBits   := []
  dBitLen := 0
  symBuf  := []
  symLen  := 0

/-- A block of capacities `c` right after reset (10_state.md R50), with no event pending, no answer given and no free value
drawn (DESIGN CHOICE, logs 2, 3 and 5). -/
def State.resetWith (c : Capacities) : State where
  caps     := c
  henc     := Henc.reset
  hdec     := Hdec.reset
  pending  := []
  response := none
  draws    := 0

/-- The machine right after reset, in the reference configuration of 00_scope.md R8 (log 4). -/
def State.reset : State := State.resetWith Config.reference

end Sys2Proof.Machine
end

