-- ==== Sys2Proof/Machine/Flags.lean ====
section
/-! DEFINITION. The status view: PHASE values, STATUS, error codes (spec/10_state.md R22, R23; 60_exceptions.md R216) and the
legality table of 47_control.md R205. -/
namespace Sys2Proof.Machine

/-- The 3-bit value of HENC.PHASE (10_state.md R23). -/
def HencPhase.code : HencPhase → BitVec 3
  | .idle    => 0
  | .counted => 1
  | .tree    => 2
  | .codes   => 3
  | .encoded => 4
  | .packed  => 5
  | .fault   => 7

/-- The 3-bit value of HDEC.PHASE (10_state.md R23). -/
def HdecPhase.code : HdecPhase → BitVec 3
  | .idle     => 0
  | .unpacked => 1
  | .decoded  => 2
  | .fault    => 7

/-- ERR_CODE of an error (60_exceptions.md R216). -/
def ErrKind.code : ErrKind → BitVec 8
  | .emptyInput     => 1
  | .unknownSymbol  => 2
  | .corruptStream  => 3
  | .illegalCommand => 4
  | .capacity       => 5

/-- PHASE of a unit. -/
def State.phaseCode (s : State) : UnitId → BitVec 3
  | .henc => s.henc.phase.code
  | .hdec => s.hdec.phase.code

/-- ERR_CODE, ERR_INFO and ERR_POS of a unit. -/
def State.errRegs (s : State) : UnitId → ErrRegs
  | .henc => s.henc.err
  | .hdec => s.hdec.err

/-- Whether a unit is in FAULT (60_exceptions.md R223). -/
def State.faulted (s : State) : UnitId → Bool
  | .henc => s.henc.phase == .fault
  | .hdec => s.hdec.phase == .fault

/-- STATUS, a view of PHASE and ERR_CODE: `STATUS[2:0] = PHASE`, `STATUS[3] = 1` exactly when `ERR_CODE != 0`, zeros above
(10_state.md R22). -/
def State.status (s : State) (u : UnitId) : Word :=
  (s.phaseCode u).setWidth 32 ||| (if (s.errRegs u).code == 0 then 0 else 8)

/-- Whether a command is legal in the present phase of its unit, outside FAULT (47_control.md R205). -/
def legal (i : Instr) (s : State) : Bool :=
  match i with
  | .hencNop | .hencClear | .hencTabclr | .hencUsetab | .hencAnalyze | .hencCompress => true
  | .hencBuild    => s.henc.phase == .counted
  | .hencGencodes => s.henc.phase == .tree
  | .hencEncode   => s.henc.phase == .codes
  | .hencPack     => s.henc.phase == .encoded
  | .hdecNop | .hdecClear | .hdecTabclr | .hdecUnpack | .hdecDecode => true
  | .hdecScan     => s.hdec.phase == .unpacked

end Sys2Proof.Machine
end

