-- ==== Sys2Proof/Machine/Ops.lean ====
section
/-! DEFINITION. The shared operations: cells of a buffer (spec/20_memory.md R62, 00_scope.md R12, R13), table memories,
raising an error and clearing it (60_exceptions.md R222, R224), the prologue of every command (47_control.md R207), and
reset (70_reset_and_hazards.md R245). -/
namespace Sys2Proof.Machine

/-! ### Buffer cells -/

/-- The canonical form of a buffer: indices strictly rising. A listed cell is never what an unlisted one is, since an
unlisted one has no value (log 6). -/
abbrev Memory.wf {α : Type} (m : Memory α) : Prop := m.Pairwise (fun x y => x.1 < y.1)

/-- Every listed index is below `n`. -/
abbrev Memory.below {α : Type} (m : Memory α) (n : Nat) : Prop := ∀ c ∈ m, c.1 < n

/-- The value of cell `a`, none while it holds UNSPEC. -/
def Memory.cell? {α : Type} : Memory α → Nat → Option α
  | [], _ => none
  | (b, v) :: rest, a => if b = a then some v else Memory.cell? rest a

/-- `MemWrite(S, a, v)` (00_scope.md R12), keeping the canonical form. -/
def Memory.put {α : Type} : Memory α → Nat → α → Memory α
  | [], a, v => [(a, v)]
  | (b, w) :: rest, a, v =>
    if a < b then (a, v) :: (b, w) :: rest
    else if a = b then (a, v) :: rest
    else (b, w) :: Memory.put rest a v

/-- Writes of consecutive cells from index `a` upward (20_memory.md R82). -/
def Memory.putRun {α : Type} (m : Memory α) (a : Nat) : List α → Memory α
  | []      => m
  | v :: vs => Memory.putRun (m.put a v) (a + 1) vs

/-- `MemRead(S, a)`: the stored value, or the next free value when the cell holds UNSPEC (93_implementation_defined.md U1:
each read of such a cell is a fresh draw). The second component counts the draws. -/
def Memory.draw {α : Type} (free : Nat → α) (m : Memory α) (a d : Nat) : α × Nat :=
  match m.cell? a with
  | some v => (v, d)
  | none   => (free d, d + 1)

/-- Reads of a list of indices, one after another. -/
def Memory.drawList {α : Type} (free : Nat → α) (m : Memory α) : List Nat → Nat → List α × Nat
  | [], d => ([], d)
  | a :: rest, d =>
    let first := m.draw free a d
    let others := Memory.drawList free m rest first.2
    (first.1 :: others.1, others.2)

/-! ### Table memories -/

/-- The table whose entry `k` is `f k`. -/
def tabulate {α : Type} (n : Nat) (f : Nat → α) : Vector α n :=
  ⟨((List.range n).map f).toArray, by simp⟩

/-- The entry of a symbol. -/
def bySymbol {α : Type} (t : Vector α 256) (s : Byte) : α := t[s.toNat]'(s.isLt)

/-- A table with no entry: what TABCLR writes (47_control.md R202, R203). -/
def emptyTable : Vector Entry 256 := Vector.replicate 256 ⟨0, 0⟩

/-! ### Errors -/

/-- The value of the three error registers that `raise` writes (60_exceptions.md R222). -/
def Failure.regs (f : Failure) : ErrRegs := ⟨f.kind.code, f.info, f.pos⟩

/-- `raise E(info, pos)` inside a command of unit `u` (60_exceptions.md R222): the error registers and PHASE = FAULT, and
nothing else. -/
def State.raise (s : State) (u : UnitId) (f : Failure) : State :=
  match u with
  | .henc => { s with henc := { s.henc with phase := .fault, err := f.regs } }
  | .hdec => { s with hdec := { s.hdec with phase := .fault, err := f.regs } }

/-- The return from FAULT, and all CLEAR does (47_control.md R201, 60_exceptions.md R224). -/
def State.clear (s : State) (u : UnitId) : State :=
  match u with
  | .henc => { s with henc := { s.henc with phase := .idle, err := ⟨0, 0, 0⟩ } }
  | .hdec => { s with hdec := { s.hdec with phase := .idle, err := ⟨0, 0, 0⟩ } }

/-- IllegalCommandError for the word `w` (60_exceptions.md R220): `info` is the word, `pos` is PHASE as it was when the
word arrived (47_control.md R207). -/
def illegalCommand (s : State) (u : UnitId) (w : Word) : Failure :=
  ⟨.illegalCommand, w, (s.phaseCode u).setWidth 32⟩

/-! ### Running a command -/

/-- The answer of a command whose body ended so. A failed body is a next state, in FAULT. -/
def Stage.result : Stage → Result
  | .done s   => .next s
  | .raised s => .next s
  | .stuck f  => .fault f

/-- One body and then the next, which runs only when the first succeeds (46_orchestrator.md R190, R193). -/
def Stage.andThen (x : Stage) (body : State → Stage) : Stage :=
  match x with
  | .done s   => body s
  | .raised s => .raised s
  | .stuck f  => .stuck f

/-- The prologue (47_control.md R207) of a command other than NOP and CLEAR: ignored in FAULT, IllegalCommandError out of
its phases, else its body. -/
def prologue (i : Instr) (body : State → Stage) (s : State) : Result :=
  if s.faulted i.unit then .next s
  else if legal i s then (body s).result
  else .next (s.raise i.unit (illegalCommand s i.unit (encode i)))

/-- An illegal word written to a CMD register (47_control.md R207): ignored in FAULT, else IllegalCommandError. -/
def illegalWord (u : UnitId) (w : Word) (s : State) : State :=
  if s.faulted u then s else s.raise u (illegalCommand s u w)

/-- A change made after a step that goes on. -/
def thenDo (f : State → State) : Result → Result
  | .next s    => .next (f s)
  | .fault r   => .fault r
  | .refused r => .refused r

/-- The answer to a transaction. -/
def State.respond (s : State) (r : Response) : State := { s with response := some r }

/-- The effect of `rst` (70_reset_and_hazards.md R245): every piece of state of both units as after reset. The block keeps
its capacities, and the host its remaining events (logs 2 to 5). -/
def State.rst (s : State) : State :=
  { State.resetWith s.caps with pending := s.pending, draws := s.draws }

end Sys2Proof.Machine
end

