-- ==== Sys2Proof/Machine/Operands.lean ====
section
/-! DEFINITION. The operands of the commands: the sequences they read from their buffers (spec/30_encoding.md R91,
20_memory.md R82), and the bitstrings that table entries stand for (30_encoding.md R96, 43_codes.md R150). -/
namespace Sys2Proof.Machine

/-! ### Sequences read from a buffer -/

/-- `IN_BUF[0 .. IN_LEN - 1]` in order (10_state.md R25), and the draws after reading it. -/
def inputSymbols (s : State) : List Byte × Nat :=
  s.henc.inBuf.drawList Config.freeByte (List.range s.henc.inLen.toNat) s.draws

/-- `BITBUF[0 .. BITLEN - 1]` in order (10_state.md R32). -/
def encodedBits (s : State) : Bits × Nat :=
  s.henc.bitBuf.drawList Config.freeBit (List.range s.henc.bitLen.toNat) s.draws

/-- The header byte `PAY_BUF[0]` (45_bitunpack.md R176). -/
def headerByte (s : State) : Byte × Nat :=
  s.hdec.payBuf.draw Config.freeByte 0 s.draws

/-- The byte `PAY_BUF[1 + (i div 8)]` for every bit `i` in 0 to `n - 1`, read once for each bit as 45_bitunpack.md R176
does, after `d` draws (log 9). -/
def payloadBytes (s : State) (n d : Nat) : List Byte × Nat :=
  s.hdec.payBuf.drawList Config.freeByte ((List.range n).map (fun i => 1 + i / 8)) d

/-- `DBITS[0 .. DBITLEN - 1]` in order (10_state.md R41). -/
def payloadBits (s : State) : Bits × Nat :=
  s.hdec.dBits.drawList Config.freeBit (List.range s.hdec.dBitLen.toNat) s.draws

/-! ### Table entries and bitstrings -/

/-- `Code(e)`: the low LEN bits of BITS, bit LEN - 1 first; the bits above are ignored (30_encoding.md R96). -/
def Entry.code (e : Entry) : Bits :=
  (List.range e.len.toNat).map (fun i => e.bits.getLsbD (e.len.toNat - 1 - i))

/-- The number a bitstring stands for, its first bit most significant: the sum over i of `c[[i]] * 2^(len(c) - 1 - i)`
(30_encoding.md R96). -/
def bitsValue : Bits → Nat
  | []     => 0
  | b :: c => b.toNat * 2 ^ c.length + bitsValue c

/-- `Entry(c)` for a bitstring of at most 255 bits (30_encoding.md R96). -/
def entryOf (c : Bits) : Entry := ⟨BitVec.ofNat 8 c.length, BitVec.ofNat 255 (bitsValue c)⟩

/-- `InvLookup(T, c)`: the least symbol whose entry has the code `c`, for `1 ≤ len(c)` (43_codes.md R150). An empty `c`, for
which the rule gives nothing, has no symbol (log 11). -/
def invLookup (t : Vector Entry 256) (c : Bits) : Option Byte :=
  if c.isEmpty then none
  else (t.toList.findIdx? (fun e => e.len.toNat == c.length && e.code == c)).map (BitVec.ofNat 8)

end Sys2Proof.Machine
end

