-- ==== Sys2Proof/Machine/Control.lean ====
section
/-! DEFINITION. The control commands NOP, CLEAR, TABCLR and USETAB (spec/47_control.md R200 to R204). -/
namespace Sys2Proof.Machine

/-- NOP on HENC: no state changes, in any phase (47_control.md R200). -/
def execHencNop (s : State) : Result := .next s

/-- NOP on HDEC (47_control.md R200). -/
def execHdecNop (s : State) : Result := .next s

/-- CLEAR on HENC, legal in every phase, the way out of FAULT (47_control.md R201, R207). -/
def execHencClear (s : State) : Result := .next (s.clear .henc)

/-- CLEAR on HDEC (47_control.md R201, R207). -/
def execHdecClear (s : State) : Result := .next (s.clear .hdec)

/-- The body of TABCLR on HENC: CODE_TAB empty and PHASE = IDLE (47_control.md R202). -/
def hencTabclrBody (s : State) : Stage :=
  .done { s with henc := { s.henc with codeTab := emptyTable, phase := .idle } }

/-- TABCLR on HENC (47_control.md R202). -/
def execHencTabclr (s : State) : Result := prologue .hencTabclr hencTabclrBody s

/-- The body of TABCLR on HDEC: DEC_TAB empty, PHASE not changed (47_control.md R203). -/
def hdecTabclrBody (s : State) : Stage :=
  .done { s with hdec := { s.hdec with decTab := emptyTable } }

/-- TABCLR on HDEC (47_control.md R203). -/
def execHdecTabclr (s : State) : Result := prologue .hdecTabclr hdecTabclrBody s

/-- The body of USETAB: PHASE = CODES, nothing read or checked (47_control.md R204). -/
def usetabBody (s : State) : Stage :=
  .done { s with henc := { s.henc with phase := .codes } }

/-- USETAB (47_control.md R204). -/
def execHencUsetab (s : State) : Result := prologue .hencUsetab usetabBody s

end Sys2Proof.Machine
end

