-- ==== Sys2Proof/Machine/BitPack.lean ====
section
/-! DEFINITION. ENCODE and PACK, the bit packer (spec/44_bitpack.md R160 to R168). -/
namespace Sys2Proof.Machine

/-- The loop of ENCODE (44_bitpack.md R161) over the symbols from index `i` on, with `n` bits written so far: the bits it
writes, or the first failure. UnknownSymbolError (R162) is tested before CapacityError for BITBUF (R163). -/
def encodeFrom (tab : Vector Entry 256) (bitCap : Nat) : List Byte → Nat → Nat → Except Failure Bits
  | [], _, _ => .ok []
  | s :: rest, i, n =>
    let e := bySymbol tab s
    if e.len.toNat = 0 then .error ⟨.unknownSymbol, s.setWidth 32, word i⟩
    else if bitCap < n + e.len.toNat then .error ⟨.capacity, 5, word i⟩
    else
      match encodeFrom tab bitCap rest (i + 1) (n + e.len.toNat) with
      | .error f => .error f
      | .ok c    => .ok (e.code ++ c)

/-- `fail E(info, pos)` of ENCODE: BITLEN becomes 0 and every cell of BITBUF UNSPEC, then the error is raised
(44_bitpack.md R161). -/
def encodeFail (s : State) (f : Failure) : Stage :=
  .raised (State.raise { s with henc := { s.henc with bitLen := 0, bitBuf := [] } } .henc f)

/-- The body of ENCODE (44_bitpack.md R161). -/
def encodeBody (s : State) : Stage :=
  if s.caps.inCap.toNat < s.henc.inLen.toNat then encodeFail s ⟨.capacity, 1, s.henc.inLen⟩
  else
    let input := inputSymbols s
    let s1 := { s with draws := input.2 }
    match encodeFrom s.henc.codeTab s.caps.bitCap input.1 0 0 with
    | .error f => encodeFail s1 f
    | .ok c    =>
      .done { s1 with
        henc := { s.henc with bitBuf := s.henc.bitBuf.putRun 0 c, bitLen := word c.length, phase := .encoded } }

/-- ENCODE (44_bitpack.md R161). -/
def execHencEncode (s : State) : Result := prologue .hencEncode encodeBody s

/-- The padding count for `L` bits (44_bitpack.md R165). -/
def paddingOf (L : Nat) : Nat := (8 - L % 8) % 8

/-- Packed byte `k` of a bit sequence: bit `8k + j` lands in bit `7 - j`, with zero filler at the tail (44_bitpack.md R166,
20_memory.md R72). -/
def packedByte (b : Bits) (k : Nat) : Byte :=
  BitVec.ofNat 8 (bitsValue ((List.range 8).map (fun j => b.getD (8 * k + j) false)))

/-- The packed buffer of a bit sequence: the header byte and then the packed bytes (30_encoding.md R99). -/
def packedBuffer (b : Bits) : List Byte :=
  BitVec.ofNat 8 (paddingOf b.length) ::
    (List.range ((b.length + paddingOf b.length) / 8)).map (packedByte b)

/-- The body of PACK (44_bitpack.md R166). -/
def packBody (s : State) : Stage :=
  let bits := encodedBits s
  let out := packedBuffer bits.1
  .done { s with
    henc := { s.henc with outBuf := s.henc.outBuf.putRun 0 out, outLen := word out.length, phase := .packed },
    draws := bits.2 }

/-- PACK (44_bitpack.md R166). -/
def execHencPack (s : State) : Result := prologue .hencPack packBody s

end Sys2Proof.Machine
end

