-- ==== Sys2Proof/Machine/BitUnpack.lean ====
section
/-! DEFINITION. UNPACK and SCAN, the bit unpacker (spec/45_bitunpack.md R175 to R184). -/
namespace Sys2Proof.Machine

/-- `fail E(info, pos)` of UNPACK: DBITLEN becomes 0, then the error is raised (45_bitunpack.md R176). -/
def unpackFail (s : State) (f : Failure) : Stage :=
  .raised (State.raise { s with hdec := { s.hdec with dBitLen := 0 } } .hdec f)

/-- Bit `i` of the payload is bit `7 - (i mod 8)` of the byte read for it (45_bitunpack.md R176, 20_memory.md R72). -/
def unpackedBits (bytes : List Byte) : Bits :=
  List.zipWith (fun i (v : Byte) => v.getLsbD (7 - i % 8)) (List.range bytes.length) bytes

/-- The body of UNPACK: the four checks in the order of the rule, all before the first write (45_bitunpack.md R176). -/
def unpackBody (s : State) : Stage :=
  if s.caps.payCap.toNat < s.hdec.payLen.toNat then unpackFail s ⟨.capacity, 1, s.hdec.payLen⟩
  else if s.hdec.payLen.toNat = 0 then unpackFail s ⟨.emptyInput, 0, 0⟩
  else
    let header := headerByte s
    let s1 := { s with draws := header.2 }
    let padding := header.1.toNat
    let total := 8 * (s.hdec.payLen.toNat - 1)
    if 7 < padding then unpackFail s1 ⟨.corruptStream, 1, word padding⟩
    else if total < padding then unpackFail s1 ⟨.corruptStream, 3, word padding⟩
    else
      let bytes := payloadBytes s (total - padding) header.2
      .done { s with
        hdec := { s.hdec with
          dBits := s.hdec.dBits.putRun 0 (unpackedBits bytes.1), dBitLen := word (total - padding), phase := .unpacked },
        draws := bytes.2 }

/-- UNPACK (45_bitunpack.md R176). -/
def execHdecUnpack (s : State) : Result := prologue .hdecUnpack unpackBody s

/-- The loop of SCAN (45_bitunpack.md R180) over the bits from index `i` on, with the candidate `cand`, the index `start`
of its first bit and `m` symbols emitted so far: the symbols emitted from here on, or the first failure. -/
def scanFrom (t : Vector Entry 256) (symCap : Nat) : Bits → Nat → Bits → Nat → Nat → Except Failure (List Byte)
  | [], _, cand, start, _ => if cand.isEmpty then .ok [] else .error ⟨.corruptStream, 2, word start⟩
  | b :: rest, i, cand, start, m =>
    let first := if cand.isEmpty then i else start
    match invLookup t (cand ++ [b]) with
    | none   => scanFrom t symCap rest (i + 1) (cand ++ [b]) first m
    | some s =>
      if m = symCap then .error ⟨.capacity, 6, word first⟩
      else
        match scanFrom t symCap rest (i + 1) [] first (m + 1) with
        | .error f => .error f
        | .ok out  => .ok (s :: out)

/-- `fail E(info, pos)` of SCAN: SYM_LEN becomes 0 and every cell of SYM_BUF UNSPEC, then the error is raised
(45_bitunpack.md R180). -/
def scanFail (s : State) (f : Failure) : Stage :=
  .raised (State.raise { s with hdec := { s.hdec with symLen := 0, symBuf := [] } } .hdec f)

/-- The body of SCAN (45_bitunpack.md R180). -/
def scanBody (s : State) : Stage :=
  let bits := payloadBits s
  let s1 := { s with draws := bits.2 }
  match scanFrom s.hdec.decTab s.caps.symCap.toNat bits.1 0 [] 0 0 with
  | .error f => scanFail s1 f
  | .ok out  =>
    .done { s1 with
      hdec := { s.hdec with symBuf := s.hdec.symBuf.putRun 0 out, symLen := word out.length, phase := .decoded } }

/-- SCAN (45_bitunpack.md R180). -/
def execHdecScan (s : State) : Result := prologue .hdecScan scanBody s

end Sys2Proof.Machine
end

