-- ==== Sys2Proof/Machine/Codes.lean ====
section
/-! DEFINITION. GENCODES, the code table generator (spec/43_codes.md R145 to R149). -/
namespace Sys2Proof.Machine

/-- The traversal of 43_codes.md R146 from node `id` with accumulated bitstring `c`: the leaves met, each with its code, in
the order of the visits (first child before second, as the stack of the rule pops them). The first argument bounds the
depth. TREE has 255 internal nodes, so a path of more than 255 of them meets one again, and then the loop of the rule never
ends (log 8). -/
def leafCodes (tree : Vector TreeNode 255) : Nat → NodeId → Bits → Except Fault (List (Nat × Bits))
  | 0, _, _ => .error .treeCycle
  | depth + 1, id, c =>
    if id.toNat < 256 then .ok [(id.toNat, c)]
    else if h : id.toNat - 256 < 255 then
      match leafCodes tree depth tree[id.toNat - 256].c0 (c ++ [false]) with
      | .error f  => .error f
      | .ok first =>
        match leafCodes tree depth tree[id.toNat - 256].c1 (c ++ [true]) with
        | .error f   => .error f
        | .ok second => .ok (first ++ second)
    else .error .noSuchNode

/-- The local image `e` of the new CODE_TAB after the visits `v`: the last code recorded for a symbol, or no entry
(43_codes.md R146). -/
def tableOf (v : List (Nat × Bits)) : Vector Entry 256 :=
  tabulate 256 (fun k =>
    match v.reverse.find? (fun p => p.1 == k) with
    | some p => entryOf p.2
    | none   => ⟨0, 0⟩)

/-- The codes of the tree below ROOT; a root that is a leaf gets the code "0" (43_codes.md R146, R147). -/
def rootCodes (tree : Vector TreeNode 255) (root : NodeId) : Except Fault (List (Nat × Bits)) :=
  if root.toNat < 256 then .ok [(root.toNat, [false])] else leafCodes tree 256 root []

/-- The body of GENCODES: every entry of CODE_TAB and PHASE (43_codes.md R146). -/
def gencodesBody (s : State) : Stage :=
  match rootCodes s.henc.tree s.henc.root with
  | .error f => .stuck f
  | .ok v    => .done { s with henc := { s.henc with codeTab := tableOf v, phase := .codes } }

/-- GENCODES (43_codes.md R146). -/
def execHencGencodes (s : State) : Result := prologue .hencGencodes gencodesBody s

end Sys2Proof.Machine
end

