-- ==== Sys2Proof/Machine/Frequency.lean ====
section
/-! DEFINITION. ANALYZE, the frequency analyzer (spec/41_frequency.md R120). -/
namespace Sys2Proof.Machine

/-- `cnt[s]` for every symbol after the loop of 41_frequency.md R120 has counted the sequence. -/
def symbolCounts (syms : List Byte) : Vector Word 256 :=
  tabulate 256 (fun k => word (syms.count (BitVec.ofNat 8 k)))

/-- The number of symbols `s` with `cnt[s] > 0` (41_frequency.md R120). -/
def distinctSymbols (cnt : Vector Word 256) : Nat := cnt.toList.countP (fun n => decide (0 < n.toNat))

/-- The body of ANALYZE. CapacityError comes before anything is written (41_frequency.md R120). -/
def analyzeBody (s : State) : Stage :=
  if s.caps.inCap.toNat < s.henc.inLen.toNat then
    .raised (s.raise .henc ⟨.capacity, 1, s.henc.inLen⟩)
  else
    let input := inputSymbols s
    let cnt := symbolCounts input.1
    .done { s with
      henc := { s.henc with freq := cnt, nsym := BitVec.ofNat 9 (distinctSymbols cnt), phase := .counted },
      draws := input.2 }

/-- ANALYZE (41_frequency.md R120). -/
def execHencAnalyze (s : State) : Result := prologue .hencAnalyze analyzeBody s

end Sys2Proof.Machine
end

