-- ==== Sys2Proof/Machine/Tree.lean ====
section
/-! DEFINITION. BUILD, the tree builder (spec/42_tree.md R130 to R138). Node ids and weights are natural numbers while the
command runs, and are narrowed when TREE and ROOT are written (47_control.md R208; log 7). -/
namespace Sys2Proof.Machine

/-- A node of the local image `t` of the new TREE (42_tree.md R132). -/
structure LocalNode where
  w  : Nat
  c0 : Nat
  c1 : Nat
deriving DecidableEq, Repr

/-- `w(id)`: FREQ for a leaf, the weight in the local image for an internal node (42_tree.md R132). -/
def localWeight (freq : Vector Word 256) (t : List LocalNode) (id : Nat) : Nat :=
  if h : id < 256 then freq[id].toNat
  else match t[id - 256]? with
    | some n => n.w
    | none   => 0

/-- `Before(x, y)` (42_tree.md R131): lower weight first, on equal weight the lower id. -/
def before (wt : Nat → Nat) (x y : Nat) : Bool :=
  decide (wt x < wt y) || (decide (wt x = wt y) && decide (x < y))

/-- `MinNode(q)`: the element of `q` that is Before every other, none of an empty `q` (42_tree.md R131). -/
def minNode (wt : Nat → Nat) : List Nat → Option Nat
  | []     => none
  | x :: q => some (q.foldl (fun m y => if before wt y m then y else m) x)

/-- The while loop of 42_tree.md R132 over the priority collection `q` and the image `t`, whose length gives `next` =
256 + length. The first argument bounds the number of merges; each merge makes `q` one shorter, so the length of `q` is
enough. -/
def mergeLoop (freq : Vector Word 256) : Nat → List Nat → List LocalNode → List Nat × List LocalNode
  | 0, q, t => (q, t)
  | fuel + 1, q, t =>
    let wt := localWeight freq t
    match minNode wt q with
    | none   => (q, t)
    | some a =>
      match minNode wt (q.erase a) with
      | none   => (q, t)
      | some b =>
        mergeLoop freq fuel ((q.erase a).erase b ++ [256 + t.length]) (t ++ [⟨wt a + wt b, a, b⟩])

/-- The leaves `s` with `FREQ[s] > 0`, the priority collection BUILD starts from (42_tree.md R132). -/
def treeLeaves (freq : Vector Word 256) : List Nat :=
  (List.range 256).filter (fun k => decide (0 < localWeight freq [] k))

/-- Entry `k` of the new TREE: the local node narrowed, all-zero where there is none (42_tree.md R132). -/
def storedNode (t : List LocalNode) (k : Nat) : TreeNode :=
  match t[k]? with
  | some n => ⟨word n.w, BitVec.ofNat 9 n.c0, BitVec.ofNat 9 n.c1⟩
  | none   => ⟨0, 0, 0⟩

/-- BUILD on an empty table: EmptyInputError (42_tree.md R132, R137), with ROOT and TREE left zero, as the ruling
90_conflicts.md C2 says where R132 lets them keep their old values (log 19). -/
def buildFail (s : State) : Stage :=
  .raised (State.raise { s with henc := { s.henc with tree := Vector.replicate 255 ⟨0, 0, 0⟩, root := 0 } }
    .henc ⟨.emptyInput, 0, 0⟩)

/-- The body of BUILD (42_tree.md R132). -/
def buildBody (s : State) : Stage :=
  let q := treeLeaves s.henc.freq
  if q.isEmpty then buildFail s
  else
    let r := mergeLoop s.henc.freq q.length q []
    .done { s with
      henc := { s.henc with root := BitVec.ofNat 9 (r.1.headD 0), tree := tabulate 255 (storedNode r.2), phase := .tree } }

/-- BUILD (42_tree.md R132). -/
def execHencBuild (s : State) : Result := prologue .hencBuild buildBody s

end Sys2Proof.Machine
end

