-- ==== Sys2Proof/Machine/Orchestrator.lean ====
section
/-! DEFINITION. The composite commands COMPRESS and DECODE (spec/46_orchestrator.md R190 to R193): the bodies of the stages
in order, without their prologues, ended by the first that raises. -/
namespace Sys2Proof.Machine

/-- The bodies of ANALYZE, BUILD, GENCODES, ENCODE and PACK (46_orchestrator.md R190). -/
def compressBody (s : State) : Stage :=
  ((((analyzeBody s).andThen buildBody).andThen gencodesBody).andThen encodeBody).andThen packBody

/-- COMPRESS (46_orchestrator.md R190). -/
def execHencCompress (s : State) : Result := prologue .hencCompress compressBody s

/-- The bodies of UNPACK and SCAN (46_orchestrator.md R191). -/
def decodeBody (s : State) : Stage := (unpackBody s).andThen scanBody

/-- DECODE (46_orchestrator.md R191). -/
def execHdecDecode (s : State) : Result := prologue .hdecDecode decodeBody s

end Sys2Proof.Machine
end

