-- ==== Sys2Proof/Machine/Dispatch.lean ====
section
/-! DEFINITION. The meaning of each command, one arm for each row of spec/opcode_table.json (30_encoding.md R92). -/
namespace Sys2Proof.Machine

/-- A command word that decoded to `i`, written to the CMD register of its unit: prologue and body (47_control.md R207). -/
def exec (i : Instr) (s : State) : Host.Outcome State Fault Refusal :=
  match i with
  | .hencNop => Sys2Proof.Machine.execHencNop s
  | .hencClear => Sys2Proof.Machine.execHencClear s
  | .hencTabclr => Sys2Proof.Machine.execHencTabclr s
  | .hencUsetab => Sys2Proof.Machine.execHencUsetab s
  | .hencAnalyze => Sys2Proof.Machine.execHencAnalyze s
  | .hencBuild => Sys2Proof.Machine.execHencBuild s
  | .hencGencodes => Sys2Proof.Machine.execHencGencodes s
  | .hencEncode => Sys2Proof.Machine.execHencEncode s
  | .hencPack => Sys2Proof.Machine.execHencPack s
  | .hencCompress => Sys2Proof.Machine.execHencCompress s
  | .hdecNop => Sys2Proof.Machine.execHdecNop s
  | .hdecClear => Sys2Proof.Machine.execHdecClear s
  | .hdecTabclr => Sys2Proof.Machine.execHdecTabclr s
  | .hdecUnpack => Sys2Proof.Machine.execHdecUnpack s
  | .hdecScan => Sys2Proof.Machine.execHdecScan s
  | .hdecDecode => Sys2Proof.Machine.execHdecDecode s

end Sys2Proof.Machine
end

