-- ==== Sys2Proof/Machine/Port.lean ====
section
/-! DEFINITION. The host port (spec/20_memory.md R60 to R75): spaces, registers by index, element layouts, reads, writes,
refusals, and the write to CMD that runs a command. -/
namespace Sys2Proof.Machine

/-- The spaces of the two units (20_memory.md R61). -/
inductive Space where
  | hencReg
  | inBuf
  | freq
  | tree
  | codeTab
  | bitBuf
  | outBuf
  | hdecReg
  | payBuf
  | decTab
  | dBits
  | symBuf
deriving DecidableEq, Repr

/-- The space of a unit with a space id, none where the id names no space of the unit (20_memory.md R61). -/
def spaceOf (u : UnitId) (id : BitVec 4) : Option Space :=
  match u, id.toNat with
  | .henc, 0 => some .hencReg
  | .henc, 1 => some .inBuf
  | .henc, 2 => some .freq
  | .henc, 3 => some .tree
  | .henc, 4 => some .codeTab
  | .henc, 5 => some .bitBuf
  | .henc, 6 => some .outBuf
  | .hdec, 0 => some .hdecReg
  | .hdec, 1 => some .payBuf
  | .hdec, 4 => some .decTab
  | .hdec, 5 => some .dBits
  | .hdec, 6 => some .symBuf
  | _, _ => none

/-- The number of elements of a space (20_memory.md R61). -/
def Space.elements (c : Capacities) : Space → Nat
  | .hencReg => 13
  | .inBuf   => c.inCap.toNat
  | .freq    => 256
  | .tree    => 510
  | .codeTab => 4096
  | .bitBuf  => c.bitCap
  | .outBuf  => c.outCap.toNat
  | .hdecReg => 11
  | .payBuf  => c.payCap.toNat
  | .decTab  => 4096
  | .dBits   => c.dBitCap
  | .symBuf  => c.symCap.toNat

/-- HENC space REG: the register with index `i` (20_memory.md R65, 10_state.md R21), zeros above its width. CMD reads 0. -/
def hencRegister (s : State) (i : Nat) : Option Word :=
  match i with
  | 0  => some Config.hencId
  | 1  => some 0
  | 2  => some (s.status .henc)
  | 3  => some (s.henc.err.code.setWidth 32)
  | 4  => some s.henc.err.info
  | 5  => some s.henc.err.pos
  | 6  => some s.henc.inLen
  | 7  => some (s.henc.nsym.setWidth 32)
  | 8  => some (s.henc.root.setWidth 32)
  | 9  => some s.henc.bitLen
  | 10 => some s.henc.outLen
  | 11 => some s.caps.inCap
  | 12 => some s.caps.outCap
  | _  => none

/-- HDEC space REG: the register with index `i` (20_memory.md R66, 10_state.md R36). -/
def hdecRegister (s : State) (i : Nat) : Option Word :=
  match i with
  | 0  => some Config.hdecId
  | 1  => some 0
  | 2  => some (s.status .hdec)
  | 3  => some (s.hdec.err.code.setWidth 32)
  | 4  => some s.hdec.err.info
  | 5  => some s.hdec.err.pos
  | 6  => some s.hdec.payLen
  | 7  => some s.hdec.dBitLen
  | 8  => some s.hdec.symLen
  | 9  => some s.caps.payCap
  | 10 => some s.caps.symCap
  | _  => none

/-- Element `i` of space TREE: W in the even words, `{0[6:0], C1, 0[6:0], C0}` in the odd ones (20_memory.md R70). -/
def treeElement (t : Vector TreeNode 255) (i : Nat) : Option Word :=
  match t[i / 2]? with
  | none   => none
  | some n => some (if i % 2 = 0 then n.w else (n.c1.setWidth 32 <<< 16) ||| n.c0.setWidth 32)

/-- Word `w` of a table entry: LEN in word 0, BITS from word 1 to word 8, least significant word first; words 9 to 15 do not
exist (20_memory.md R71). -/
def entryWord (e : Entry) (w : Nat) : Option Word :=
  if w = 0 then some (e.len.setWidth 32)
  else if w ≤ 8 then some (e.bits.extractLsb' (32 * (w - 1)) 32)
  else none

/-- Element `i` of space CODE_TAB or DEC_TAB: word `i mod 16` of the entry of symbol `i div 16` (20_memory.md R71). -/
def tableElement (t : Vector Entry 256) (i : Nat) : Option Word :=
  match t[i / 16]? with
  | none   => none
  | some e => entryWord e (i % 16)

/-- An entry after a host write of its word `w`: the addressed word and no other, bits outside the fields ignored; none for
words 9 to 15 (20_memory.md R71). -/
def writeEntryWord (e : Entry) (w : Nat) (v : Word) : Option Entry :=
  if w = 0 then some { e with len := v.setWidth 8 }
  else if w ≤ 8 then
    some { e with
      bits := (e.bits &&& ~~~(BitVec.ofNat 255 (2 ^ 32 - 1) <<< (32 * (w - 1)))) ||| (v.setWidth 255 <<< (32 * (w - 1))) }
  else none

/-- CODE_TAB or DEC_TAB after a host write of element `i` (20_memory.md R71). -/
def writeTableElement (t : Vector Entry 256) (i : Nat) (v : Word) : Option (Vector Entry 256) :=
  if h : i / 16 < 256 then
    match writeEntryWord t[i / 16] (i % 16) v with
    | none   => none
    | some e => some (t.set (i / 16) e)
  else none

/-- A read of a byte cell by the host: the byte zero-extended (20_memory.md R62), a fresh draw when the cell holds UNSPEC
(93_implementation_defined.md U4). -/
def readByteCell (s : State) (m : Memory Byte) (i : Nat) : Word × State :=
  let v := m.draw Config.freeByte i s.draws
  (v.1.setWidth 32, { s with draws := v.2 })

/-- A read of a bit cell by the host: the bit in `data[0]` (20_memory.md R62). -/
def readBitCell (s : State) (m : Memory Bool) (i : Nat) : Word × State :=
  let v := m.draw Config.freeBit i s.draws
  (word v.1.toNat, { s with draws := v.2 })

/-- A read of element `i` of a space: rdata and the state after it (draws only), none when the access is refused
(20_memory.md R63, R64). -/
def readElement (s : State) (sp : Space) (i : Nat) : Option (Word × State) :=
  if i < sp.elements s.caps then
    match sp with
    | .hencReg => (hencRegister s i).map (·, s)
    | .inBuf   => some (readByteCell s s.henc.inBuf i)
    | .freq    => s.henc.freq[i]?.map (·, s)
    | .tree    => (treeElement s.henc.tree i).map (·, s)
    | .codeTab => (tableElement s.henc.codeTab i).map (·, s)
    | .bitBuf  => some (readBitCell s s.henc.bitBuf i)
    | .outBuf  => some (readByteCell s s.henc.outBuf i)
    | .hdecReg => (hdecRegister s i).map (·, s)
    | .payBuf  => some (readByteCell s s.hdec.payBuf i)
    | .decTab  => (tableElement s.hdec.decTab i).map (·, s)
    | .dBits   => some (readBitCell s s.hdec.dBits i)
    | .symBuf  => some (readByteCell s s.hdec.symBuf i)
  else none

/-- A write of element `i` of a space other than CMD: the state after it, none when the access is refused. Only IN_LEN,
PAY_LEN, IN_BUF, PAY_BUF and the tables take a write (20_memory.md R61, R63, R64). -/
def writeElement (s : State) (sp : Space) (i : Nat) (v : Word) : Option State :=
  if i < sp.elements s.caps then
    match sp with
    | .hencReg => if i = 6 then some { s with henc := { s.henc with inLen := v } } else none
    | .inBuf   => some { s with henc := { s.henc with inBuf := s.henc.inBuf.put i (v.setWidth 8) } }
    | .codeTab => (writeTableElement s.henc.codeTab i v).map fun t => { s with henc := { s.henc with codeTab := t } }
    | .hdecReg => if i = 6 then some { s with hdec := { s.hdec with payLen := v } } else none
    | .payBuf  => some { s with hdec := { s.hdec with payBuf := s.hdec.payBuf.put i (v.setWidth 8) } }
    | .decTab  => (writeTableElement s.hdec.decTab i v).map fun t => { s with hdec := { s.hdec with decTab := t } }
    | .freq | .tree | .bitBuf | .outBuf | .dBits | .symBuf => none
  else none

/-- The word `w` written to the CMD register of unit `u` (47_control.md R207): the command it decodes to, or what an illegal
word does. -/
def command (u : UnitId) (w : Word) (s : State) : Result :=
  match decode u w with
  | .ok i    => exec i s
  | .error _ => .next (illegalWord u w s)

/-- Whether a write to element `i` of a space is a write to CMD (10_state.md R21, R35, R36). -/
def isCmd (sp : Space) (i : Nat) : Bool := (sp == .hencReg || sp == .hdecReg) && i == 1

/-- The answer of a refused transaction (20_memory.md R64). -/
def refusedResponse : Response := ⟨.err, 0⟩

/-- A transaction taken by the port (20_memory.md R63, R64, R77): a refused one changes nothing, a write to CMD runs the
whole command and answers OK whatever becomes of it. -/
def transact (t : Transaction) (s : State) : Result :=
  match spaceOf t.unit t.space with
  | none    => .next (s.respond refusedResponse)
  | some sp =>
    match t.kind with
    | .read =>
      match readElement s sp t.index.toNat with
      | none        => .next (s.respond refusedResponse)
      | some (d, r) => .next (r.respond ⟨.ok, d⟩)
    | .write =>
      if isCmd sp t.index.toNat then thenDo (·.respond ⟨.ok, 0⟩) (command t.unit t.wdata s)
      else
        match writeElement s sp t.index.toNat t.wdata with
        | none   => .next (s.respond refusedResponse)
        | some r => .next (r.respond ⟨.ok, 0⟩)

/-- One event of the host: a transaction or `rst` (20_memory.md R77, 70_reset_and_hazards.md R245). -/
def takeEvent (e : Event) (s : State) : Result :=
  match e with
  | .transaction t => transact t s
  | .rst           => .next s.rst

/-- The write transaction that issues the command word `w` to unit `u` (30_encoding.md R100: `cmd U, MNEMONIC`). -/
def commandEvent (u : UnitId) (w : Word) : Event := .transaction ⟨u, 0, 1, .write, w⟩

/-- The event that issues a bare table word, at the unit of `unitFor` (log 1), none when it is no 32-bit word. -/
def fetchEvents (nbits w : Nat) : List Event :=
  match tableWord nbits w with
  | none   => []
  | some v => [commandEvent (unitFor v) v]

end Sys2Proof.Machine
end

