-- ==== Sys2Proof/Machine/Step.lean ====
section
/-! DEFINITION. One step: the next event of the host takes effect completely (spec/20_memory.md R77). -/
namespace Sys2Proof.Machine

/-- One step. With an event pending, the port takes the first one. With none, both units wait for the host and nothing
changes (70_reset_and_hazards.md R245, R248; log 2). -/
def step (s : State) : Host.Outcome State Fault Refusal :=
  match s.pending with
  | []        => .next s
  | e :: rest => takeEvent e { s with pending := rest }

/-- `s` with the write of a command word to CMD put before all pending events, so that the next step runs it (log 1). -/
def State.withFetchWord (s : State) (nbits w : Nat) : State :=
  { s with pending := fetchEvents nbits w ++ s.pending }

end Sys2Proof.Machine
end

