-- ==== Sys2Proof/Safety.lean ====
section
/-! DEFINITION. What a safe state of HUFFCODEC is: the invariants of spec/10_state.md R46 with what R24, R29, R30 and R45 and
42_tree.md R133 and R136 add, in the terms the statements use. -/
namespace Sys2Proof.Machine

/-- `W(id)` over FREQ and TREE as stored (10_state.md R28). -/
def nodeWeight (freq : Vector Word 256) (tree : Vector TreeNode 255) (id : NodeId) : Nat :=
  if h : id.toNat < 256 then freq[id.toNat].toNat
  else match tree[id.toNat - 256]? with
    | some n => n.w.toNat
    | none   => 0

/-- `Before(x, y)` over stored weights (42_tree.md R131). -/
abbrev nodeBefore (freq : Vector Word 256) (tree : Vector TreeNode 255) (x y : NodeId) : Prop :=
  nodeWeight freq tree x < nodeWeight freq tree y ∨
    (nodeWeight freq tree x = nodeWeight freq tree y ∧ x.toNat < y.toNat)

/-- A leaf of the tree: a symbol with `FREQ[s] > 0` (10_state.md R28). -/
abbrev isTreeLeaf (freq : Vector Word 256) (id : NodeId) : Prop :=
  id.toNat < 256 ∧ 0 < (freq[id.toNat]?.getD 0).toNat

/-- A node of the tree of `n` distinct symbols: a leaf, or an internal id up to 256 + n - 2 (10_state.md R46 (e)). -/
abbrev isTreeNode (freq : Vector Word 256) (n : Nat) (id : NodeId) : Prop :=
  isTreeLeaf freq id ∨ (256 ≤ id.toNat ∧ id.toNat < 256 + (n - 1))

/-- The children of the first `k` internal nodes, in the order they are stored. -/
def childrenBelow (tree : Vector TreeNode 255) (k : Nat) : List NodeId :=
  (tree.toList.take k).flatMap (fun x => [x.c0, x.c1])

/-- The number of symbols `s` with `FREQ[s] > 0` (10_state.md R30). -/
def presentSymbols (freq : Vector Word 256) : Nat := freq.toList.countP (fun n => decide (0 < n.toNat))

/-- The sum of FREQ over all symbols (10_state.md R46 (a)). -/
def freqSum (freq : Vector Word 256) : Nat := (freq.toList.map BitVec.toNat).sum

/-- What TREE and ROOT hold in phase TREE, for `n` distinct symbols (10_state.md R29, R30, R46 (e), 42_tree.md R133, R136). -/
structure TreeInv (freq : Vector Word 256) (tree : Vector TreeNode 255) (root : NodeId) (n : Nat) : Prop where
  /-- BUILD fails on an empty table (42_tree.md R137). -/
  present : 1 ≤ n
  /-- With one distinct symbol ROOT is its leaf (10_state.md R30). -/
  rootLeaf : n = 1 → isTreeLeaf freq root
  /-- With more, ROOT is the internal node created last (10_state.md R30). -/
  rootInternal : 2 ≤ n → root.toNat = 256 + n - 2
  /-- Each weight is the sum of the children's (10_state.md R46 (e)). -/
  weight : ∀ k, (h : k < 255) → k < n - 1 →
    tree[k].w.toNat = nodeWeight freq tree tree[k].c0 + nodeWeight freq tree tree[k].c1
  /-- Children are nodes made before their parent (42_tree.md R136). -/
  firstChild : ∀ k, (h : k < 255) → k < n - 1 → isTreeNode freq n tree[k].c0 ∧ tree[k].c0.toNat < 256 + k
  /-- The same of the second child. -/
  secondChild : ∀ k, (h : k < 255) → k < n - 1 → isTreeNode freq n tree[k].c1 ∧ tree[k].c1.toNat < 256 + k
  /-- The first child is Before the second (42_tree.md R133). -/
  ordered : ∀ k, (h : k < 255) → k < n - 1 → nodeBefore freq tree tree[k].c0 tree[k].c1
  /-- Every node but ROOT is a child exactly once (10_state.md R46 (e)). -/
  parent : ∀ id, isTreeNode freq n id → id ≠ root → (childrenBelow tree (n - 1)).count id = 1
  /-- The entries from `n - 1` up are all-zero (10_state.md R29). -/
  unused : ∀ k, (h : k < 255) → n - 1 ≤ k → tree[k] = ⟨0, 0, 0⟩

/-- The error registers of one unit: FAULT exactly when ERR_CODE is not 0 (10_state.md R46 (c)), a code of 60_exceptions.md
R216, and ERR_INFO and ERR_POS 0 with code 0 (10_state.md R24). -/
structure ErrInv (faulted : Bool) (e : ErrRegs) : Prop where
  fault : faulted = true ↔ e.code ≠ 0
  code  : e.code.toNat ≤ 5
  zero  : e.code = 0 → e.info = 0 ∧ e.pos = 0

/-- A buffer in canonical form inside its capacity. -/
structure BufInv {α : Type} (m : Memory α) (cap : Nat) : Prop where
  wf    : m.wf
  below : m.below cap

/-- The cells below `n` all hold a written value. -/
abbrev writtenBelow {α : Type} (m : Memory α) (n : Nat) : Prop := ∀ a, a < n → (m.cell? a).isSome = true

/-- The invariant of HENC (10_state.md R46 (a) to (e)). -/
structure HencInv (c : Capacities) (h : Henc) : Prop where
  err     : ErrInv (h.phase == .fault) h.err
  inBuf   : BufInv h.inBuf c.inCap.toNat
  bitBuf  : BufInv h.bitBuf c.bitCap
  outBuf  : BufInv h.outBuf c.outCap.toNat
  freqSum : freqSum h.freq ≤ 2 ^ 32 - 1
  nsym    : h.nsym.toNat = presentSymbols h.freq
  bitLen  : h.bitLen.toNat ≤ c.bitCap
  outLen  : h.outLen.toNat ≤ c.outCap.toNat
  tree    : h.phase = .tree → TreeInv h.freq h.tree h.root h.nsym.toNat
  bits    : h.phase = .encoded ∨ h.phase = .packed → writtenBelow h.bitBuf h.bitLen.toNat
  out     : h.phase = .packed → writtenBelow h.outBuf h.outLen.toNat

/-- The invariant of HDEC (10_state.md R46 (c) and (d)). -/
structure HdecInv (c : Capacities) (h : Hdec) : Prop where
  err     : ErrInv (h.phase == .fault) h.err
  payBuf  : BufInv h.payBuf c.payCap.toNat
  dBits   : BufInv h.dBits c.dBitCap
  symBuf  : BufInv h.symBuf c.symCap.toNat
  dBitLen : h.dBitLen.toNat ≤ c.dBitCap
  symLen  : h.symLen.toNat ≤ c.symCap.toNat
  bits    : h.phase = .unpacked ∨ h.phase = .decoded → writtenBelow h.dBits h.dBitLen.toNat
  syms    : h.phase = .decoded → writtenBelow h.symBuf h.symLen.toNat

/-- The invariant of the block (10_state.md R46). -/
structure Inv (s : State) : Prop where
  caps : s.caps.wf = true
  henc : HencInv s.caps s.henc
  hdec : HdecInv s.caps s.hdec

end Sys2Proof.Machine
end

