-- ==== Sys2Proof/Certificates/Slice0/Obligations.lean ====
section
/-! DEFINITION. The statements for the provers, formalising numbered rules of spec/. Helper definitions first, then one
`def Obligations.<Name> : Prop` for each entry of OBLIGATIONS.json. -/
namespace Sys2Proof.Machine

/-! ### Vocabulary of the statements -/

/-- Cells 0 to `vs.length - 1` of a buffer hold the values `vs`. -/
abbrev holds {α : Type} (m : Memory α) (vs : List α) : Prop := ∀ i, (h : i < vs.length) → m.cell? i = some vs[i]

/-- `vs` are values that reads of cells 0 to `n - 1` can return: the stored value of every cell that holds one, any value
of a cell that holds UNSPEC (93_implementation_defined.md U1, U3). -/
def readsAs {α : Type} (m : Memory α) (n : Nat) (vs : List α) : Prop :=
  vs.length = n ∧ ∀ i v, i < n → m.cell? i = some v → vs[i]? = some v

/-- `m` is the buffer `old` with the values `vs` written from cell 0 up and every other cell as it was. -/
def overwritten {α : Type} (m old : Memory α) (vs : List α) : Prop := ∀ a, m.cell? a = (vs[a]?).or (old.cell? a)

/-- The length of a symbol's code in a table. -/
def codeLen (t : Vector Entry 256) (x : Byte) : Nat := (bySymbol t x).len.toNat

/-- The code of a symbol in a table (30_encoding.md R96). -/
def codeOf (t : Vector Entry 256) (x : Byte) : Bits := (bySymbol t x).code

/-- The sum of the code lengths of a symbol sequence. -/
def codedLength (t : Vector Entry 256) (syms : List Byte) : Nat := (syms.map (codeLen t)).sum

/-- The concatenation of the codes of a symbol sequence. -/
def codedBits (t : Vector Entry 256) (syms : List Byte) : Bits := (syms.map (codeOf t)).flatten

/-- `bits8(v)` (00_scope.md R11). -/
def bits8 (v : Byte) : Bits := (List.range 8).map (fun j => v.getLsbD (7 - j))

/-- The node reached from node `id` along a bitstring: bit 0 to the first child, bit 1 to the second (43_codes.md R146). -/
def follow (tree : Vector TreeNode 255) : NodeId → Bits → Option NodeId
  | id, [] => some id
  | id, b :: c =>
    if id.toNat < 256 then none
    else match tree[id.toNat - 256]? with
      | some n => follow tree (if b then n.c1 else n.c0) c
      | none   => none

/-- `c` is the shortest prefix of itself that is a code, and the code of symbol `x` (45_bitunpack.md R180). -/
def shortestMatch (t : Vector Entry 256) (c : Bits) (x : Byte) : Prop :=
  invLookup t c = some x ∧ ∀ j, j < c.length → invLookup t (c.take j) = none

/-- No prefix of `c` is a code. -/
def noMatch (t : Vector Entry 256) (c : Bits) : Prop := ∀ j, j ≤ c.length → invLookup t (c.take j) = none

/-- The codes `cs`, one after another, are shortest matches of the symbols `syms`. -/
def matchesAll (t : Vector Entry 256) (cs : List Bits) (syms : List Byte) : Prop := List.Forall₂ (shortestMatch t) cs syms

/-- HENC after a failed ENCODE, with the error registers `e` and `d` free values drawn (44_bitpack.md R161). -/
def encodeFailed (s : State) (d : Nat) (e : ErrRegs) : State :=
  { s with henc := { s.henc with bitLen := 0, bitBuf := [], phase := .fault, err := e }, draws := d }

/-- HDEC after a failed UNPACK, with the error registers `e` (45_bitunpack.md R176). -/
def unpackFailed (s : State) (d : Nat) (e : ErrRegs) : State :=
  { s with hdec := { s.hdec with dBitLen := 0, phase := .fault, err := e }, draws := d }

/-- HDEC after a failed SCAN, with the error registers `e` (45_bitunpack.md R180). -/
def scanFailed (s : State) (d : Nat) (e : ErrRegs) : State :=
  { s with hdec := { s.hdec with symLen := 0, symBuf := [], phase := .fault, err := e }, draws := d }

/-- The unit is in FAULT, by its name. -/
abbrev inFault (s : State) : UnitId → Prop
  | .henc => s.henc.phase = .fault
  | .hdec => s.hdec.phase = .fault

/-- The phases in which a command runs, outside FAULT, as the table of 47_control.md R205 lists them. -/
def runsIn : Instr → List (BitVec 3)
  | .hencNop | .hencClear => [0, 1, 2, 3, 4, 5, 7]
  | .hencTabclr | .hencUsetab | .hencAnalyze | .hencCompress => [0, 1, 2, 3, 4, 5]
  | .hencBuild    => [1]
  | .hencGencodes => [2]
  | .hencEncode   => [3]
  | .hencPack     => [4]
  | .hdecNop | .hdecClear => [0, 1, 2, 7]
  | .hdecTabclr | .hdecUnpack | .hdecDecode => [0, 1, 2]
  | .hdecScan     => [1]

/-- PHASE after a success of the command that found PHASE `p`, as the table of 47_control.md R205 lists it. -/
def phaseAfter (p : BitVec 3) : Instr → BitVec 3
  | .hencNop | .hdecNop | .hdecTabclr => p
  | .hencClear | .hdecClear | .hencTabclr => 0
  | .hencUsetab | .hencGencodes => 3
  | .hencAnalyze  => 1
  | .hencBuild    => 2
  | .hencEncode   => 4
  | .hencPack | .hencCompress => 5
  | .hdecUnpack   => 1
  | .hdecScan | .hdecDecode => 2

/-- The commands that can fail after the prologue (47_control.md R206, 60_exceptions.md R216). -/
def canFail : Instr → Bool
  | .hencAnalyze | .hencBuild | .hencEncode | .hencCompress | .hdecUnpack | .hdecScan | .hdecDecode => true
  | .hencNop | .hencClear | .hencTabclr | .hencUsetab | .hencGencodes | .hencPack => false
  | .hdecNop | .hdecClear | .hdecTabclr => false

/-- A state whose next event is the transaction `t`. -/
def atTransaction (s : State) (t : Transaction) (rest : List Event) : State :=
  { s with pending := .transaction t :: rest }

/-- The read of element `i` of space `sp` of unit `u`, with the wdata `d` that a read ignores (20_memory.md R60). -/
def readOf (u : UnitId) (sp : BitVec 4) (i : Nat) (d : Word) : Transaction := ⟨u, sp, word i, .read, d⟩

/-- The write of `v` to element `i` of space `sp` of unit `u`. -/
def writeOf (u : UnitId) (sp : BitVec 4) (i : Nat) (v : Word) : Transaction := ⟨u, sp, word i, .write, v⟩

/-- The state after a transaction that changed nothing but the answer. -/
def answered (s : State) (rest : List Event) (r : Resp) (d : Word) : State :=
  { s with pending := rest, response := some ⟨r, d⟩ }

/-- The element count of a space, none where the id names no space of the unit (the table of 20_memory.md R61). -/
def elementCount (c : Capacities) (u : UnitId) (sp : BitVec 4) : Option Nat :=
  match u, sp.toNat with
  | .henc, 0 => some 13
  | .henc, 1 => some c.inCap.toNat
  | .henc, 2 => some 256
  | .henc, 3 => some 510
  | .henc, 4 => some 4096
  | .henc, 5 => some (8 * (c.outCap.toNat - 1))
  | .henc, 6 => some c.outCap.toNat
  | .hdec, 0 => some 11
  | .hdec, 1 => some c.payCap.toNat
  | .hdec, 4 => some 4096
  | .hdec, 5 => some (8 * (c.payCap.toNat - 1))
  | .hdec, 6 => some c.symCap.toNat
  | _, _ => none

/-- Whether an element of a space takes a write: CMD and the length register of REG, the input buffer, the table (the
"host access" columns of 20_memory.md R61 and 10_state.md R21 and R36). -/
def takesWrite (sp : BitVec 4) (i : Nat) : Bool :=
  (sp == 0 && (i == 1 || i == 6)) || sp == 1 || sp == 4

/-- The conditions of 20_memory.md R63, all of them. -/
def accepted (c : Capacities) (t : Transaction) : Bool :=
  match elementCount c t.unit t.space with
  | none   => false
  | some n =>
    decide (t.index.toNat < n) && (t.kind == .read || takesWrite t.space t.index.toNat) &&
      (t.space != 4 || decide (t.index.toNat % 16 ≤ 8))

/-- A node that is on offer when internal node `256 + k` is made: a leaf of the tree or an earlier internal node, and no
child of an earlier one (the set `q` of 42_tree.md R132). -/
def onOffer (freq : Vector Word 256) (tree : Vector TreeNode 255) (k : Nat) (id : NodeId) : Prop :=
  (isTreeLeaf freq id ∨ (256 ≤ id.toNat ∧ id.toNat < 256 + k)) ∧ id ∉ childrenBelow tree k

end Sys2Proof.Machine

open Sys2Proof Sys2Proof.Machine

/-! ### Encodings and the step -/

/-- 30_encoding.md R92, R94: each command's word, at its unit, decodes to the command. -/
def Obligations.EncodedCommandDecodesToItself : Prop :=
  ∀ i : Instr, decode i.unit (encode i) = .ok i

/-- 30_encoding.md R92, R93: every named row of the opcode map, written out, in both of its columns: what each unit makes of the
word, the words illegal for a unit among them, and a word with a bit set above the opcode. -/
def Obligations.OpcodeMapWordsDecodeAsListed : Prop :=
  decode .henc 0x00000000 = .ok .hencNop ∧ decode .hdec 0x00000000 = .ok .hdecNop ∧
  decode .henc 0x00000001 = .ok .hencClear ∧ decode .hdec 0x00000001 = .ok .hdecClear ∧
  decode .henc 0x00000002 = .ok .hencTabclr ∧ decode .hdec 0x00000002 = .ok .hdecTabclr ∧
  decode .henc 0x00000003 = .ok .hencUsetab ∧ decode .hdec 0x00000003 = .error .opcode ∧
  decode .henc 0x00000010 = .ok .hencAnalyze ∧ decode .hdec 0x00000010 = .error .opcode ∧
  decode .henc 0x00000011 = .ok .hencBuild ∧ decode .hdec 0x00000011 = .error .opcode ∧
  decode .henc 0x00000012 = .ok .hencGencodes ∧ decode .hdec 0x00000012 = .error .opcode ∧
  decode .henc 0x00000013 = .ok .hencEncode ∧ decode .hdec 0x00000013 = .error .opcode ∧
  decode .henc 0x00000014 = .ok .hencPack ∧ decode .hdec 0x00000014 = .error .opcode ∧
  decode .henc 0x0000001F = .ok .hencCompress ∧ decode .hdec 0x0000001F = .error .opcode ∧
  decode .henc 0x00000020 = .error .opcode ∧ decode .hdec 0x00000020 = .ok .hdecUnpack ∧
  decode .henc 0x00000021 = .error .opcode ∧ decode .hdec 0x00000021 = .ok .hdecScan ∧
  decode .henc 0x0000002F = .error .opcode ∧ decode .hdec 0x0000002F = .ok .hdecDecode ∧
  decode .henc 0x00000110 = .error .zeroField ∧ decode .hdec 0x80000020 = .error .zeroField

/-- 30_encoding.md R93, R94: of all 2^32 words a unit takes exactly the words of its own commands, each as that command. -/
def Obligations.DecodeAcceptsExactlyTheMapWords : Prop :=
  ∀ (u : UnitId) (w : Word) (i : Instr), decode u w = .ok i ↔ (i.unit = u ∧ encode i = w)

/-- 47_control.md R207, 20_memory.md R63 and R77: a step whose event writes a word to a CMD register that decodes to `i` is
`exec i` of the state without that event, answered OK and 0. -/
def Obligations.StepRunsTheWrittenCommand : Prop :=
  ∀ (s : State) (u : UnitId) (w : Word) (i : Instr) (rest : List Event), decode u w = .ok i →
    step (atTransaction s (writeOf u 0 1 w) rest) =
      thenDo (fun t => { t with response := some ⟨.ok, 0⟩ }) (exec i { s with pending := rest })

/-- 30_encoding.md R93, 47_control.md R207, 60_exceptions.md R220: an illegal word is ignored in FAULT, and otherwise puts its
unit in FAULT with code 4, the word, and PHASE as it was. Both are answered OK. -/
def Obligations.IllegalWordRaisesUnlessInFault : Prop :=
  ∀ (s : State) (u : UnitId) (w : Word) (rest : List Event), (∀ i, decode u w ≠ .ok i) →
    (inFault s u → step (atTransaction s (writeOf u 0 1 w) rest) = .next (answered s rest .ok 0)) ∧
    (¬ inFault s u → u = .henc → step (atTransaction s (writeOf u 0 1 w) rest) =
      .next (answered { s with henc := { s.henc with phase := .fault, err := ⟨4, w, s.henc.phase.code.setWidth 32⟩ } } rest .ok 0)) ∧
    (¬ inFault s u → u = .hdec → step (atTransaction s (writeOf u 0 1 w) rest) =
      .next (answered { s with hdec := { s.hdec with phase := .fault, err := ⟨4, w, s.hdec.phase.code.setWidth 32⟩ } } rest .ok 0))

/-- THE MODEL'S CHOICE (log 2): with no event of the host pending, a step changes nothing. -/
def Obligations.StepWithoutEventsChangesNothing : Prop :=
  ∀ s : State, s.pending = [] → step s = .next s

/-- 70_reset_and_hazards.md R245: in every state `rst` puts every piece of state of both units to its value after reset, and
nothing starts running: the capacities are the block's constants and the host's later events wait their turn. -/
def Obligations.ResetEventResetsBothUnits : Prop :=
  ∀ (s : State) (rest : List Event),
    ∃ t : State, step { s with pending := .rst :: rest } = .next t ∧
      t.henc = State.reset.henc ∧ t.hdec = State.reset.hdec ∧ t.caps = s.caps ∧ t.pending = rest

/-- 10_state.md R50: the values after reset, an UNSPEC cell being one that holds no value, and the constants of ID and of the
four capacities as their registers read them. -/
def Obligations.ResetStateHoldsTheListedValues : Prop :=
  State.reset.henc.phase = .idle ∧ State.reset.hdec.phase = .idle ∧
  State.reset.henc.err = ⟨0, 0, 0⟩ ∧ State.reset.hdec.err = ⟨0, 0, 0⟩ ∧
  State.reset.status .henc = 0 ∧ State.reset.status .hdec = 0 ∧
  State.reset.henc.inLen = 0 ∧ State.reset.hdec.payLen = 0 ∧
  State.reset.henc.nsym = 0 ∧ State.reset.henc.root = 0 ∧ State.reset.henc.bitLen = 0 ∧ State.reset.henc.outLen = 0 ∧
  State.reset.hdec.dBitLen = 0 ∧ State.reset.hdec.symLen = 0 ∧
  (∀ k, (h : k < 256) → State.reset.henc.freq[k] = 0) ∧
  (∀ k, (h : k < 255) → State.reset.henc.tree[k] = ⟨0, 0, 0⟩) ∧
  (∀ k, (h : k < 256) → State.reset.henc.codeTab[k] = ⟨0, 0⟩ ∧ State.reset.hdec.decTab[k] = ⟨0, 0⟩) ∧
  (∀ a, State.reset.henc.inBuf.cell? a = none ∧ State.reset.henc.outBuf.cell? a = none ∧
    State.reset.hdec.payBuf.cell? a = none ∧ State.reset.hdec.symBuf.cell? a = none) ∧
  (∀ a, State.reset.henc.bitBuf.cell? a = none ∧ State.reset.hdec.dBits.cell? a = none) ∧
  hencRegister State.reset 0 = some 0x48454E31 ∧ hdecRegister State.reset 0 = some 0x48444531 ∧
  hencRegister State.reset 11 = some State.reset.caps.inCap ∧ hencRegister State.reset 12 = some State.reset.caps.outCap ∧
  hdecRegister State.reset 9 = some State.reset.caps.payCap ∧ hdecRegister State.reset 10 = some State.reset.caps.symCap

/-! ### The control commands -/

/-- 47_control.md R200: NOP changes no state, in every phase, on both units. -/
def Obligations.NopChangesNothing : Prop :=
  ∀ s : State, exec .hencNop s = .next s ∧ exec .hdecNop s = .next s

/-- 47_control.md R201: CLEAR zeroes the three error registers of its unit and sets its PHASE to IDLE, in every phase, and
changes nothing else. -/
def Obligations.ClearReturnsItsUnitToIdle : Prop :=
  ∀ s : State,
    exec .hencClear s = .next { s with henc := { s.henc with phase := .idle, err := ⟨0, 0, 0⟩ } } ∧
    exec .hdecClear s = .next { s with hdec := { s.hdec with phase := .idle, err := ⟨0, 0, 0⟩ } }

/-- 47_control.md R202: outside FAULT, TABCLR on HENC empties every entry of CODE_TAB, sets PHASE to IDLE, and changes
nothing else. -/
def Obligations.HencTabclrEmptiesCodeTab : Prop :=
  ∀ s : State, s.henc.phase ≠ .fault →
    exec .hencTabclr s =
      .next { s with henc := { s.henc with codeTab := Vector.replicate 256 ⟨0, 0⟩, phase := .idle } }

/-- 47_control.md R203: outside FAULT, TABCLR on HDEC empties every entry of DEC_TAB and changes nothing else, PHASE
included. -/
def Obligations.HdecTabclrEmptiesDecTab : Prop :=
  ∀ s : State, s.hdec.phase ≠ .fault →
    exec .hdecTabclr s = .next { s with hdec := { s.hdec with decTab := Vector.replicate 256 ⟨0, 0⟩ } }

/-- 47_control.md R204: outside FAULT, USETAB sets PHASE to CODES and changes nothing else. -/
def Obligations.UsetabPutsTheTableInForce : Prop :=
  ∀ s : State, s.henc.phase ≠ .fault →
    exec .hencUsetab s = .next { s with henc := { s.henc with phase := .codes } }

/-- 60_exceptions.md R223: in FAULT every command of the unit but CLEAR changes nothing. -/
def Obligations.FaultIgnoresEveryCommandButClear : Prop :=
  ∀ (i : Instr) (s : State), inFault s i.unit → i ≠ .hencClear → i ≠ .hdecClear → exec i s = .next s

/-- 47_control.md R205, the whole table: in FAULT every command but CLEAR is ignored; outside FAULT, a command in a phase that
the table does not list raises IllegalCommandError with its word and PHASE as it was and changes nothing else; in a phase
it lists, the command ends in the phase the table gives, or in FAULT when it is one that can fail. -/
def Obligations.CommandsFollowThePhaseTable : Prop :=
  ∀ (i : Instr) (s : State),
    (inFault s i.unit → i ≠ .hencClear → i ≠ .hdecClear → exec i s = .next s) ∧
    (¬ inFault s i.unit → s.phaseCode i.unit ∉ runsIn i → i.unit = .henc → exec i s =
      .next { s with henc := { s.henc with phase := .fault, err := ⟨4, encode i, s.henc.phase.code.setWidth 32⟩ } }) ∧
    (¬ inFault s i.unit → s.phaseCode i.unit ∉ runsIn i → i.unit = .hdec → exec i s =
      .next { s with hdec := { s.hdec with phase := .fault, err := ⟨4, encode i, s.hdec.phase.code.setWidth 32⟩ } }) ∧
    (s.phaseCode i.unit ∈ runsIn i → ∀ t, exec i s = .next t →
      t.phaseCode i.unit = phaseAfter (s.phaseCode i.unit) i ∨ (canFail i = true ∧ inFault t i.unit))

/-- 10_state.md R22: STATUS holds PHASE in bits 2:0, ERR in bit 3 with ERR = 1 exactly when ERR_CODE is not 0, and zeros
above; in a state that meets the invariant, ERR = 1 exactly in FAULT. -/
def Obligations.StatusIsTheViewOfPhaseAndError : Prop :=
  ∀ (s : State) (u : UnitId),
    (s.status u).extractLsb' 0 3 = s.phaseCode u ∧
    ((s.status u).getLsbD 3 = true ↔ (s.errRegs u).code ≠ 0) ∧
    (s.status u).toNat < 16 ∧
    (Inv s → ((s.status u).getLsbD 3 = true ↔ inFault s u))

/-! ### ANALYZE -/

/-- 41_frequency.md R120, outside FAULT. With IN_LEN within IN_CAP: FREQ counts each symbol among the values read from
IN_BUF, NSYM is how many symbols occur, PHASE is COUNTED, and nothing else of the machine changes (a cell that holds UNSPEC
reads as any value, R122 (e)). With IN_LEN above IN_CAP: CapacityError with ERR_INFO 1 and ERR_POS IN_LEN, and nothing
else is written. -/
def Obligations.AnalyzeCountsTheInput : Prop :=
  ∀ s : State, s.henc.phase ≠ .fault →
    (s.henc.inLen.toNat ≤ s.caps.inCap.toNat →
      ∃ (syms : List Byte) (freq : Vector Word 256) (nsym : BitVec 9) (d : Nat),
        readsAs s.henc.inBuf s.henc.inLen.toNat syms ∧
        exec .hencAnalyze s =
          .next { s with henc := { s.henc with freq := freq, nsym := nsym, phase := .counted }, draws := d } ∧
        (∀ x : Byte, (bySymbol freq x).toNat = syms.count x) ∧
        nsym.toNat = presentSymbols freq ∧
        ((∀ a, a < s.henc.inLen.toNat → s.henc.inBuf.cell? a ≠ none) → d = s.draws)) ∧
    (s.caps.inCap.toNat < s.henc.inLen.toNat →
      exec .hencAnalyze s = .next { s with henc := { s.henc with phase := .fault, err := ⟨5, 1, s.henc.inLen⟩ } })

/-- 41_frequency.md R121: after a successful ANALYZE the counts sum to IN_LEN, and a symbol has a positive count exactly when
it occurs, for an input whose cells are all written. -/
def Obligations.AnalyzeCountsSumToInputLength : Prop :=
  ∀ (s t : State), exec .hencAnalyze s = .next t → s.henc.phase ≠ .fault → t.henc.phase = .counted →
    freqSum t.henc.freq = s.henc.inLen.toNat ∧
    ∀ syms, holds s.henc.inBuf syms → syms.length = s.henc.inLen.toNat →
      ∀ x : Byte, 0 < (bySymbol t.henc.freq x).toNat ↔ x ∈ syms

/-! ### BUILD -/

/-- 42_tree.md R131 to R133 and 90_conflicts.md C2. In phase COUNTED with no symbol present, BUILD raises EmptyInputError, leaves
TREE and ROOT zero, and changes nothing else. (That they are zeroed is DEDUCED, the model's reading of C2 against R132's
words: log 19.) With at least one symbol present it makes internal node after internal node; each takes as its first child
the node on offer that is Before all others and as its second child the one that is Before all the rest, with the sum of their weights; ROOT is the last node made; the unused entries are zero; and
nothing else changes. -/
def Obligations.BuildMergesTheTwoLeastNodes : Prop :=
  ∀ s : State, Inv s → s.henc.phase = .counted →
    (presentSymbols s.henc.freq = 0 →
      exec .hencBuild s = .next { s with henc := { s.henc with
        tree := Vector.replicate 255 ⟨0, 0, 0⟩, root := 0, phase := .fault, err := ⟨1, 0, 0⟩ } }) ∧
    (1 ≤ presentSymbols s.henc.freq → ∃ (tree : Vector TreeNode 255) (root : NodeId),
      exec .hencBuild s = .next { s with henc := { s.henc with tree := tree, root := root, phase := .tree } } ∧
      (∀ k, (h : k < 255) → k < presentSymbols s.henc.freq - 1 →
        onOffer s.henc.freq tree k tree[k].c0 ∧ onOffer s.henc.freq tree k tree[k].c1 ∧ tree[k].c0 ≠ tree[k].c1 ∧
        (∀ y, onOffer s.henc.freq tree k y → y ≠ tree[k].c0 → nodeBefore s.henc.freq tree tree[k].c0 y) ∧
        (∀ y, onOffer s.henc.freq tree k y → y ≠ tree[k].c0 → y ≠ tree[k].c1 → nodeBefore s.henc.freq tree tree[k].c1 y) ∧
        tree[k].w.toNat = nodeWeight s.henc.freq tree tree[k].c0 + nodeWeight s.henc.freq tree tree[k].c1) ∧
      (∀ k, (h : k < 255) → presentSymbols s.henc.freq - 1 ≤ k → tree[k] = ⟨0, 0, 0⟩) ∧
      (2 ≤ presentSymbols s.henc.freq → root.toNat = 256 + presentSymbols s.henc.freq - 2) ∧
      (presentSymbols s.henc.freq = 1 → isTreeLeaf s.henc.freq root))

/-- 42_tree.md R137 and 90_conflicts.md C2: in phase COUNTED, BUILD fails only on an all-zero FREQ, and then raises
EmptyInputError with ERR_INFO 0 and ERR_POS 0, leaves TREE and ROOT zero, and changes nothing else. (That they are zeroed is
DEDUCED, the model's reading of C2 against R132's words: log 19.) -/
def Obligations.BuildFailsOnlyOnAnEmptyTable : Prop :=
  ∀ s : State, s.henc.phase = .counted →
    ((∀ k, (h : k < 256) → s.henc.freq[k] = 0) →
      exec .hencBuild s = .next { s with henc := { s.henc with
        tree := Vector.replicate 255 ⟨0, 0, 0⟩, root := 0, phase := .fault, err := ⟨1, 0, 0⟩ } }) ∧
    (∀ k, (h : k < 256) → s.henc.freq[k] ≠ 0 →
      ∃ t, exec .hencBuild s = .next t ∧ t.henc.phase = .tree ∧ t.henc.err = s.henc.err)

/-- 42_tree.md R135: when exactly one symbol has a positive count, ROOT is its leaf and every TREE entry is zero. -/
def Obligations.BuildOfOneSymbolIsALeaf : Prop :=
  ∀ (s : State) (x : Byte), s.henc.phase = .counted →
    (∀ k, (h : k < 256) → (0 < s.henc.freq[k].toNat ↔ k = x.toNat)) →
    exec .hencBuild s =
      .next { s with
        henc := { s.henc with tree := Vector.replicate 255 ⟨0, 0, 0⟩, root := x.setWidth 9, phase := .tree } }

/-- 42_tree.md R136 and 10_state.md R29, R30, R46 (e): the tree BUILD makes is a strict binary tree over the symbols present:
its structure is that of `TreeInv`, exactly its nodes are reached from ROOT, and the weight of ROOT is the sum of FREQ. -/
def Obligations.BuiltTreeIsAStrictBinaryTree : Prop :=
  ∀ (s t : State), Inv s → s.henc.phase = .counted → 1 ≤ presentSymbols s.henc.freq → exec .hencBuild s = .next t →
    TreeInv s.henc.freq t.henc.tree t.henc.root (presentSymbols s.henc.freq) ∧
    (∀ id, (∃ c, follow t.henc.tree t.henc.root c = some id) ↔ isTreeNode s.henc.freq (presentSymbols s.henc.freq) id) ∧
    nodeWeight s.henc.freq t.henc.tree t.henc.root = freqSum s.henc.freq

/-- 42_tree.md R134: BUILD is a function of FREQ alone. -/
def Obligations.BuildDependsOnFreqAlone : Prop :=
  ∀ (s r t u : State), s.henc.phase = .counted → r.henc.phase = .counted → s.henc.freq = r.henc.freq →
    exec .hencBuild s = .next t → exec .hencBuild r = .next u →
    t.henc.phase = u.henc.phase ∧ (t.henc.phase = .tree → t.henc.tree = u.henc.tree ∧ t.henc.root = u.henc.root)

/-! ### GENCODES -/

/-- 43_codes.md R146: in phase TREE, GENCODES gives every leaf of the tree the bits of its path from an internal ROOT as its
code, a ROOT that is a leaf the code "0", zeros above the code, and every other symbol the zero entry; it sets PHASE to
CODES and changes nothing else. -/
def Obligations.GencodesRecordsTheTreePaths : Prop :=
  ∀ s : State, Inv s → s.henc.phase = .tree →
    ∃ tab : Vector Entry 256,
      exec .hencGencodes s = .next { s with henc := { s.henc with codeTab := tab, phase := .codes } } ∧
      (256 ≤ s.henc.root.toNat → ∀ (x : Byte) (c : Bits), follow s.henc.tree s.henc.root c = some (x.setWidth 9) ↔
        ((bySymbol tab x).len ≠ 0 ∧ codeOf tab x = c)) ∧
      (s.henc.root.toNat < 256 → ∀ (x : Byte) (c : Bits), (x.setWidth 9 = s.henc.root ∧ c = [false]) ↔
        ((bySymbol tab x).len ≠ 0 ∧ codeOf tab x = c)) ∧
      (∀ x : Byte, (bySymbol tab x).bits.toNat < 2 ^ codeLen tab x)

/-- 43_codes.md R147: when ROOT is a leaf, its symbol gets the code "0" (LEN 1, BITS 0) and every other entry is empty. -/
def Obligations.GencodesOfALeafRootIsOneZeroBit : Prop :=
  ∀ s : State, s.henc.phase = .tree → s.henc.root.toNat < 256 →
    ∃ tab : Vector Entry 256,
      exec .hencGencodes s = .next { s with henc := { s.henc with codeTab := tab, phase := .codes } } ∧
      ∀ x : Byte, bySymbol tab x = if x.setWidth 9 = s.henc.root then ⟨1, 0⟩ else ⟨0, 0⟩

/-- 43_codes.md R148 (a) to (f): a generated table gives a code exactly to the symbols present, the codes are pairwise
different and none is a proper prefix of another, with two or more symbols every infinite bit sequence begins with exactly
one code, BITS is zero at and above LEN, and the codes of two sibling leaves differ in the last bit alone, 0 for the one
that is Before. -/
def Obligations.GeneratedTableIsACompletePrefixCode : Prop :=
  ∀ (s t : State), Inv s → s.henc.phase = .tree → exec .hencGencodes s = .next t →
    (∀ x : Byte, 1 ≤ codeLen t.henc.codeTab x ↔ 0 < (bySymbol s.henc.freq x).toNat) ∧
    (∀ x y : Byte, x ≠ y → 1 ≤ codeLen t.henc.codeTab x → 1 ≤ codeLen t.henc.codeTab y →
      ¬ codeOf t.henc.codeTab x <+: codeOf t.henc.codeTab y) ∧
    (2 ≤ presentSymbols s.henc.freq → ∀ f : Nat → Bool,
      ∃! x : Byte, 1 ≤ codeLen t.henc.codeTab x ∧
        codeOf t.henc.codeTab x = (List.range (codeLen t.henc.codeTab x)).map f) ∧
    (∀ x : Byte, (bySymbol t.henc.codeTab x).bits.toNat < 2 ^ codeLen t.henc.codeTab x) ∧
    (∀ k, (h : k < 255) → k < presentSymbols s.henc.freq - 1 → ∀ x y : Byte,
      s.henc.tree[k].c0 = x.setWidth 9 → s.henc.tree[k].c1 = y.setWidth 9 →
        nodeBefore s.henc.freq s.henc.tree (x.setWidth 9) (y.setWidth 9) ∧
        ∃ p, codeOf t.henc.codeTab x = p ++ [false] ∧ codeOf t.henc.codeTab y = p ++ [true])

/-! ### Table entries -/

/-- 30_encoding.md R96: bit `i` of `Code(e)` is `BITS[LEN - 1 - i]`, first bit of the code at bit LEN - 1; `Entry(c)` of a
bitstring of 1 to 255 bits has `LEN = len(c)` and `BITS` the sum of `c[[i]] * 2^(len(c) - 1 - i)`; `Code(Entry(c))` is `c`;
`Code` looks at the low LEN bits of BITS alone; and LEN 0 stands for the empty string. -/
def Obligations.EntryHoldsItsBitstring : Prop :=
  (∀ e : Entry, e.code.length = e.len.toNat ∧
    ∀ i, i < e.len.toNat → e.code[i]? = some (e.bits.getLsbD (e.len.toNat - 1 - i))) ∧
  (∀ c : Bits, 1 ≤ c.length → c.length ≤ 255 →
    (entryOf c).len.toNat = c.length ∧
    (entryOf c).bits.toNat =
      ((List.range c.length).map (fun i => (c.getD i false).toNat * 2 ^ (c.length - 1 - i))).sum ∧
    (entryOf c).code = c) ∧
  (∀ e f : Entry, e.len = f.len → (∀ i, i < e.len.toNat → e.bits.getLsbD i = f.bits.getLsbD i) → e.code = f.code) ∧
  (∀ e : Entry, e.len = 0 → e.code = []) ∧ entryOf [] = ⟨0, 0⟩

/-- 43_codes.md R150: InvLookup of a non-empty bitstring is the least symbol whose entry has it as its code, or none. -/
def Obligations.InvLookupIsTheLeastMatchingSymbol : Prop :=
  ∀ (t : Vector Entry 256) (c : Bits), 1 ≤ c.length →
    (invLookup t c = none ↔ ∀ x : Byte, ¬ (codeLen t x = c.length ∧ codeOf t x = c)) ∧
    ∀ x : Byte, invLookup t c = some x ↔
      ((codeLen t x = c.length ∧ codeOf t x = c) ∧
        ∀ y : Byte, y.toNat < x.toNat → ¬ (codeLen t y = c.length ∧ codeOf t y = c))

/-! ### ENCODE and PACK -/

/-- 44_bitpack.md R161: ENCODE of a written input whose symbols all have a code and whose codes fit writes their
concatenation to BITBUF from cell 0 up, its length to BITLEN, and PHASE ENCODED, and nothing else. -/
def Obligations.EncodeWritesTheConcatenatedCodes : Prop :=
  ∀ (s : State) (syms : List Byte), s.henc.phase = .codes → s.henc.inLen.toNat ≤ s.caps.inCap.toNat →
    syms.length = s.henc.inLen.toNat → holds s.henc.inBuf syms →
    (∀ x ∈ syms, codeLen s.henc.codeTab x ≠ 0) → codedLength s.henc.codeTab syms ≤ s.caps.bitCap →
    ∃ m : Memory Bool,
      exec .hencEncode s = .next { s with henc := { s.henc with
        bitBuf := m, bitLen := word (codedLength s.henc.codeTab syms), phase := .encoded } } ∧
      overwritten m s.henc.bitBuf (codedBits s.henc.codeTab syms)

/-- 44_bitpack.md R161, R162 and R163, for whatever values the reads of IN_BUF return: with IN_LEN within IN_CAP, ENCODE
succeeds when the symbols all have codes that fit; it raises UnknownSymbolError at the first symbol without an entry, and
CapacityError for BITBUF at the first whose code does not fit. With IN_LEN above IN_CAP it raises CapacityError for
IN_BUF. Every failure leaves BITLEN 0 and every cell of BITBUF UNSPEC. -/
def Obligations.EncodeEndsAsTheSymbolsItReads : Prop :=
  ∀ s : State, s.henc.phase = .codes →
    (s.caps.inCap.toNat < s.henc.inLen.toNat →
      exec .hencEncode s = .next (encodeFailed s s.draws ⟨5, 1, s.henc.inLen⟩)) ∧
    (s.henc.inLen.toNat ≤ s.caps.inCap.toNat →
    ∃ (syms : List Byte) (d : Nat), readsAs s.henc.inBuf s.henc.inLen.toNat syms ∧
      ((∀ x ∈ syms, codeLen s.henc.codeTab x ≠ 0) → codedLength s.henc.codeTab syms ≤ s.caps.bitCap →
        ∃ m, exec .hencEncode s = .next { s with
            henc := { s.henc with
              bitBuf := m, bitLen := word (codedLength s.henc.codeTab syms), phase := .encoded },
            draws := d } ∧
          overwritten m s.henc.bitBuf (codedBits s.henc.codeTab syms)) ∧
      (∀ i x, syms[i]? = some x → (∀ y ∈ syms.take i, codeLen s.henc.codeTab y ≠ 0) →
        codedLength s.henc.codeTab (syms.take i) ≤ s.caps.bitCap →
        (codeLen s.henc.codeTab x = 0 →
          exec .hencEncode s = .next (encodeFailed s d ⟨2, x.setWidth 32, word i⟩)) ∧
        (codeLen s.henc.codeTab x ≠ 0 →
          s.caps.bitCap < codedLength s.henc.codeTab (syms.take i) + codeLen s.henc.codeTab x →
          exec .hencEncode s = .next (encodeFailed s d ⟨5, 5, word i⟩))))

/-- 44_bitpack.md R165: the padding count is 0 for a multiple of 8 and otherwise 8 less the remainder; it is at most 7 and
makes the length the least multiple of 8 not below it. -/
def Obligations.PaddingReachesTheNextByte : Prop :=
  ∀ L : Nat, (L % 8 = 0 → paddingOf L = 0) ∧ (L % 8 ≠ 0 → paddingOf L = 8 - L % 8) ∧ paddingOf L ≤ 7 ∧
    (L + paddingOf L) % 8 = 0 ∧ ∀ n, n % 8 = 0 → L ≤ n → L + paddingOf L ≤ n

/-- 44_bitpack.md R166, 30_encoding.md R99, 20_memory.md R72: in phase ENCODED, PACK writes the padding count to OUT_BUF[0],
bit 8k + j of the bit sequence to bit 7 - j of OUT_BUF[1 + k] with zeros after the last bit, the byte count to OUT_LEN and
PHASE PACKED, and nothing else. The bits are what the reads of BITBUF return. -/
def Obligations.PackWritesThePackedBuffer : Prop :=
  ∀ s : State, s.henc.phase = .encoded →
    ∃ (bits : Bits) (out : List Byte) (m : Memory Byte) (d : Nat),
      readsAs s.henc.bitBuf s.henc.bitLen.toNat bits ∧
      exec .hencPack s = .next { s with
        henc := { s.henc with outBuf := m, outLen := word (1 + (s.henc.bitLen.toNat + 7) / 8), phase := .packed },
        draws := d } ∧
      overwritten m s.henc.outBuf out ∧
      out.length = 1 + (s.henc.bitLen.toNat + 7) / 8 ∧
      (∀ v, out[0]? = some v → v.toNat = (8 - s.henc.bitLen.toNat % 8) % 8) ∧
      (∀ k v, out[1 + k]? = some v → ∀ j, j < 8 → v.getLsbD (7 - j) = bits.getD (8 * k + j) false) ∧
      ((∀ a, a < s.henc.bitLen.toNat → s.henc.bitBuf.cell? a ≠ none) → d = s.draws)

/-! ### UNPACK and SCAN -/

/-- 45_bitunpack.md R176: with a written header of at most 7 that does not exceed the payload, UNPACK writes to DBITS the bits
of the payload bytes, most significant first, without the last `padding` of them, and nothing else but DBITLEN and PHASE.
The value of a bit whose byte holds UNSPEC is left open. -/
def Obligations.UnpackExpandsThePayload : Prop :=
  ∀ (s : State) (header : Byte), s.hdec.phase ≠ .fault →
    1 ≤ s.hdec.payLen.toNat → s.hdec.payLen.toNat ≤ s.caps.payCap.toNat →
    s.hdec.payBuf.cell? 0 = some header → header.toNat ≤ 7 → header.toNat ≤ 8 * (s.hdec.payLen.toNat - 1) →
    ∃ (bits : Bits) (m : Memory Bool) (d : Nat),
      exec .hdecUnpack s = .next { s with
        hdec := { s.hdec with
          dBits := m, dBitLen := word (8 * (s.hdec.payLen.toNat - 1) - header.toNat), phase := .unpacked },
        draws := d } ∧
      overwritten m s.hdec.dBits bits ∧
      bits.length = 8 * (s.hdec.payLen.toNat - 1) - header.toNat ∧
      (∀ i v, i < bits.length → s.hdec.payBuf.cell? (1 + i / 8) = some v → bits[i]? = some (v.getLsbD (7 - i % 8))) ∧
      ((∀ a, a < s.hdec.payLen.toNat → s.hdec.payBuf.cell? a ≠ none) → d = s.draws)

/-- 45_bitunpack.md R176, for whatever values the reads of PAY_BUF return: the checks in their order (PAY_LEN above PAY_CAP,
PAY_LEN 0, a header above 7, a header above the payload's bits), each failure with DBITLEN 0 and DBITS unchanged, and else
the bits of the payload bytes, most significant first, without the last `padding` of them. A header cell that holds UNSPEC
reads as some value, and UNPACK goes on with it (93_implementation_defined.md U3). -/
def Obligations.UnpackEndsAsTheBytesItReads : Prop :=
  ∀ s : State, s.hdec.phase ≠ .fault →
    (s.caps.payCap.toNat < s.hdec.payLen.toNat →
      exec .hdecUnpack s = .next (unpackFailed s s.draws ⟨5, 1, s.hdec.payLen⟩)) ∧
    (s.hdec.payLen.toNat = 0 → exec .hdecUnpack s = .next (unpackFailed s s.draws ⟨1, 0, 0⟩)) ∧
    (1 ≤ s.hdec.payLen.toNat → s.hdec.payLen.toNat ≤ s.caps.payCap.toNat →
      ∃ (header : Byte) (d : Nat), readsAs s.hdec.payBuf 1 [header] ∧
        (s.hdec.payBuf.cell? 0 ≠ none → d = s.draws) ∧
        (7 < header.toNat → exec .hdecUnpack s = .next (unpackFailed s d ⟨3, 1, header.setWidth 32⟩)) ∧
        (header.toNat ≤ 7 → 8 * (s.hdec.payLen.toNat - 1) < header.toNat →
          exec .hdecUnpack s = .next (unpackFailed s d ⟨3, 3, header.setWidth 32⟩)) ∧
        (header.toNat ≤ 7 → header.toNat ≤ 8 * (s.hdec.payLen.toNat - 1) →
          ∃ (bits : Bits) (m : Memory Bool) (e : Nat), exec .hdecUnpack s = .next { s with
              hdec := { s.hdec with
                dBits := m, dBitLen := word (8 * (s.hdec.payLen.toNat - 1) - header.toNat), phase := .unpacked },
              draws := e } ∧
            overwritten m s.hdec.dBits bits ∧ bits.length = 8 * (s.hdec.payLen.toNat - 1) - header.toNat ∧
            ∀ i v, i < bits.length → s.hdec.payBuf.cell? (1 + i / 8) = some v →
              bits[i]? = some (v.getLsbD (7 - i % 8))))

/-- 45_bitunpack.md R180: SCAN of written bits that are codes one after another, each the shortest match of its symbol and no
more of them than SYM_CAP, writes the symbols to SYM_BUF from cell 0 up, their number to SYM_LEN and PHASE DECODED, and
nothing else. -/
def Obligations.ScanEmitsTheConcatenatedSymbols : Prop :=
  ∀ (s : State) (cs : List Bits) (syms : List Byte), s.hdec.phase = .unpacked →
    cs.flatten.length = s.hdec.dBitLen.toNat → holds s.hdec.dBits cs.flatten →
    matchesAll s.hdec.decTab cs syms → syms.length ≤ s.caps.symCap.toNat →
    ∃ m : Memory Byte,
      exec .hdecScan s = .next { s with
        hdec := { s.hdec with symBuf := m, symLen := word syms.length, phase := .decoded } } ∧
      overwritten m s.hdec.symBuf syms

/-- 45_bitunpack.md R180, for whatever values the reads of DBITS return and any DEC_TAB: the bits split into shortest matches
and a tail with no match. SCAN succeeds when the symbols fit and the tail is empty; it raises CorruptStreamError sub-cause 2
at the tail's first bit when they fit and it is not; and CapacityError at the first bit of the first code whose symbol does
not fit. A failure leaves SYM_LEN 0 and every cell of SYM_BUF UNSPEC. -/
def Obligations.ScanEndsAsTheBitsItReads : Prop :=
  ∀ s : State, s.hdec.phase = .unpacked →
    ∃ (bits : Bits) (d : Nat) (cs : List Bits) (syms : List Byte) (tail : Bits),
      readsAs s.hdec.dBits s.hdec.dBitLen.toNat bits ∧ bits = cs.flatten ++ tail ∧
      matchesAll s.hdec.decTab cs syms ∧ noMatch s.hdec.decTab tail ∧
      (syms.length ≤ s.caps.symCap.toNat → tail = [] →
        ∃ m, exec .hdecScan s = .next { s with
            hdec := { s.hdec with symBuf := m, symLen := word syms.length, phase := .decoded }, draws := d } ∧
          overwritten m s.hdec.symBuf syms) ∧
      (syms.length ≤ s.caps.symCap.toNat → tail ≠ [] →
        exec .hdecScan s = .next (scanFailed s d ⟨3, 2, word cs.flatten.length⟩)) ∧
      (s.caps.symCap.toNat < syms.length →
        exec .hdecScan s =
          .next (scanFailed s d ⟨5, 6, word (cs.take s.caps.symCap.toNat).flatten.length⟩))

/-! ### The composite commands -/

/-- 46_orchestrator.md R190: outside FAULT, COMPRESS is ANALYZE, BUILD, GENCODES, ENCODE and PACK one after another, up to and
including the first that ends in FAULT. -/
def Obligations.CompressIsTheFiveStagesInOrder : Prop :=
  ∀ (s s1 : State), s.henc.phase ≠ .fault → exec .hencAnalyze s = .next s1 →
    (s1.henc.phase = .fault → exec .hencCompress s = .next s1) ∧
    (s1.henc.phase ≠ .fault → ∀ s2, exec .hencBuild s1 = .next s2 →
      (s2.henc.phase = .fault → exec .hencCompress s = .next s2) ∧
      (s2.henc.phase ≠ .fault → ∀ s3, exec .hencGencodes s2 = .next s3 → ∀ s4, exec .hencEncode s3 = .next s4 →
        (s4.henc.phase = .fault → exec .hencCompress s = .next s4) ∧
        (s4.henc.phase ≠ .fault → exec .hencCompress s = exec .hencPack s4)))

/-- 46_orchestrator.md R190: COMPRESS of a written input of 1 to IN_CAP symbols succeeds when 255 bits for each of them fit
BITBUF: PHASE is PACKED, and nothing of the machine changes but FREQ, NSYM, TREE, ROOT, CODE_TAB, BITBUF, BITLEN, OUT_BUF,
OUT_LEN and PHASE. (The bound of 255 bits is the longest code of 00_scope.md R7; a closer one is in 44_bitpack.md R168.) -/
def Obligations.CompressOfAWrittenInputSucceeds : Prop :=
  ∀ (s : State) (syms : List Byte), s.henc.phase ≠ .fault →
    syms.length = s.henc.inLen.toNat → holds s.henc.inBuf syms →
    1 ≤ syms.length → syms.length ≤ s.caps.inCap.toNat → 255 * syms.length ≤ s.caps.bitCap → s.caps.wf = true →
    ∃ t : State, exec .hencCompress s = .next t ∧ t.henc.phase = .packed ∧
      t = { s with henc := { s.henc with
        phase := .packed, freq := t.henc.freq, nsym := t.henc.nsym, tree := t.henc.tree, root := t.henc.root,
        codeTab := t.henc.codeTab, bitBuf := t.henc.bitBuf, bitLen := t.henc.bitLen, outBuf := t.henc.outBuf,
        outLen := t.henc.outLen } } ∧
      (∀ x ∈ syms, 1 ≤ codeLen t.henc.codeTab x) ∧
      t.henc.bitLen.toNat = codedLength t.henc.codeTab syms ∧
      holds t.henc.bitBuf (codedBits t.henc.codeTab syms) ∧
      t.henc.outLen.toNat = 1 + (t.henc.bitLen.toNat + 7) / 8

/-- 46_orchestrator.md R190: COMPRESS of a written input never ends in UnknownSymbolError or CorruptStreamError. Outside FAULT
and with 1 to IN_CAP symbols it ends in phase PACKED, or in CapacityError for BITBUF. -/
def Obligations.CompressEndsPackedOrOutOfSpace : Prop :=
  ∀ (s : State) (syms : List Byte), s.henc.phase ≠ .fault →
    syms.length = s.henc.inLen.toNat → holds s.henc.inBuf syms →
    1 ≤ syms.length → syms.length ≤ s.caps.inCap.toNat →
    ∃ t : State, exec .hencCompress s = .next t ∧
      (t.henc.phase = .packed ∨ (t.henc.phase = .fault ∧ t.henc.err.code = 5 ∧ t.henc.err.info = 5))

/-- 46_orchestrator.md R195: COMPRESS with IN_LEN = 0 ends in EmptyInputError after ANALYZE's body has zeroed FREQ and NSYM,
and DECODE with PAY_LEN = 0 ends in EmptyInputError. (That BUILD's body leaves TREE and ROOT zero is DEDUCED, the model's
reading of 90_conflicts.md C2 against 42_tree.md R132's words: log 19.) -/
def Obligations.EmptyInputIsAnErrorOnBothSides : Prop :=
  ∀ s : State,
    (s.henc.phase ≠ .fault → s.henc.inLen = 0 →
      exec .hencCompress s = .next { s with
        henc := { s.henc with
          freq := Vector.replicate 256 0, nsym := 0, tree := Vector.replicate 255 ⟨0, 0, 0⟩, root := 0,
          phase := .fault, err := ⟨1, 0, 0⟩ } }) ∧
    (s.hdec.phase ≠ .fault → s.hdec.payLen = 0 →
      exec .hdecDecode s = .next (unpackFailed s s.draws ⟨1, 0, 0⟩))

/-- 46_orchestrator.md R191: outside FAULT, DECODE is UNPACK and then SCAN; when UNPACK ends in FAULT, SCAN does not run. -/
def Obligations.DecodeIsUnpackThenScan : Prop :=
  ∀ (s s1 : State), s.hdec.phase ≠ .fault → exec .hdecUnpack s = .next s1 →
    (s1.hdec.phase = .fault → exec .hdecDecode s = .next s1) ∧
    (s1.hdec.phase ≠ .fault → exec .hdecDecode s = exec .hdecScan s1)

/-- 46_orchestrator.md R191: DECODE of a written buffer whose payload bits, less the padding, are codes one after another
ends in phase DECODED with their symbols, and changes nothing of the machine but DBITS, DBITLEN, SYM_BUF, SYM_LEN and
PHASE. -/
def Obligations.DecodeOfCodedBitsSucceeds : Prop :=
  ∀ (s : State) (header : Byte) (payload : List Byte) (cs : List Bits) (syms : List Byte), s.hdec.phase ≠ .fault →
    s.hdec.payLen.toNat = 1 + payload.length → s.hdec.payLen.toNat ≤ s.caps.payCap.toNat → s.caps.wf = true →
    holds s.hdec.payBuf (header :: payload) → header.toNat ≤ 7 → header.toNat ≤ 8 * payload.length →
    (payload.map bits8).flatten.take (8 * payload.length - header.toNat) = cs.flatten →
    matchesAll s.hdec.decTab cs syms → syms.length ≤ s.caps.symCap.toNat →
    ∃ (m : Memory Bool) (n : Memory Byte),
      exec .hdecDecode s = .next { s with
        hdec := { s.hdec with
          dBits := m, dBitLen := word (8 * payload.length - header.toNat),
          symBuf := n, symLen := word syms.length, phase := .decoded } } ∧
      overwritten m s.hdec.dBits cs.flatten ∧ overwritten n s.hdec.symBuf syms

/-- 46_orchestrator.md R194, the round trip: for a written input of 1 to min(IN_CAP, SYM_CAP) symbols whose encoding fits,
COMPRESS succeeds, and with its packed buffer and its table handed to HDEC, DECODE succeeds and gives the input back. (The
encoding fits when COMPRESS does not end in CapacityError.) -/
def Obligations.DecompressionInvertsCompression : Prop :=
  ∀ (s t u : State) (syms : List Byte), s.caps.wf = true → s.henc.phase ≠ .fault →
    syms.length = s.henc.inLen.toNat → holds s.henc.inBuf syms → 1 ≤ syms.length → syms.length ≤ s.caps.inCap.toNat →
    exec .hencCompress s = .next t → ¬ (t.henc.phase = .fault ∧ t.henc.err.code = 5) →
    u.caps = s.caps → u.hdec.phase ≠ .fault → syms.length ≤ u.caps.symCap.toNat →
    u.hdec.payLen = t.henc.outLen → t.henc.outLen.toNat ≤ u.caps.payCap.toNat →
    (∀ a, a < t.henc.outLen.toNat → u.hdec.payBuf.cell? a = t.henc.outBuf.cell? a) →
    (∀ x : Byte, codeLen u.hdec.decTab x = codeLen t.henc.codeTab x ∧ codeOf u.hdec.decTab x = codeOf t.henc.codeTab x) →
    t.henc.phase = .packed ∧ ∃ v : State, exec .hdecDecode u = .next v ∧ v.hdec.phase = .decoded ∧
      v.hdec.symLen = s.henc.inLen ∧ holds v.hdec.symBuf syms

/-- 46_orchestrator.md R197: COMPRESS from equal written inputs in blocks of equal capacities gives equal outputs. -/
def Obligations.CompressionIsDeterministic : Prop :=
  ∀ (s r t u : State) (syms : List Byte), s.caps = r.caps → s.henc.phase ≠ .fault → r.henc.phase ≠ .fault →
    syms.length = s.henc.inLen.toNat → r.henc.inLen = s.henc.inLen → holds s.henc.inBuf syms → holds r.henc.inBuf syms →
    exec .hencCompress s = .next t → exec .hencCompress r = .next u → t.henc.phase = .packed →
    u.henc.phase = .packed ∧ t.henc.freq = u.henc.freq ∧ t.henc.nsym = u.henc.nsym ∧ t.henc.tree = u.henc.tree ∧
    t.henc.root = u.henc.root ∧ t.henc.codeTab = u.henc.codeTab ∧ t.henc.bitLen = u.henc.bitLen ∧
    (∀ a, a < t.henc.bitLen.toNat → t.henc.bitBuf.cell? a = u.henc.bitBuf.cell? a) ∧
    t.henc.outLen = u.henc.outLen ∧
    (∀ a, a < t.henc.outLen.toNat → t.henc.outBuf.cell? a = u.henc.outBuf.cell? a)

/-! ### The host port -/

/-- 20_memory.md R65 and R66, 10_state.md R21, R22 and R36: a read of each register of REG answers OK with its value, zeros
above its width, and changes nothing, whatever wdata it carries (R60); CMD reads 0. -/
def Obligations.RegistersReadTheirValues : Prop :=
  ∀ (s : State) (rest : List Event) (d : Word),
    (∀ p ∈ ([(0, 0x48454E31), (1, 0), (2, s.status .henc), (3, s.henc.err.code.setWidth 32), (4, s.henc.err.info),
        (5, s.henc.err.pos), (6, s.henc.inLen), (7, s.henc.nsym.setWidth 32), (8, s.henc.root.setWidth 32),
        (9, s.henc.bitLen), (10, s.henc.outLen), (11, s.caps.inCap), (12, s.caps.outCap)] : List (Nat × Word)),
      step (atTransaction s (readOf .henc 0 p.1 d) rest) = .next (answered s rest .ok p.2)) ∧
    (∀ p ∈ ([(0, 0x48444531), (1, 0), (2, s.status .hdec), (3, s.hdec.err.code.setWidth 32), (4, s.hdec.err.info),
        (5, s.hdec.err.pos), (6, s.hdec.payLen), (7, s.hdec.dBitLen), (8, s.hdec.symLen), (9, s.caps.payCap),
        (10, s.caps.symCap)] : List (Nat × Word)),
      step (atTransaction s (readOf .hdec 0 p.1 d) rest) = .next (answered s rest .ok p.2))

/-- 20_memory.md R63 and R64: a transaction is answered OK exactly when the conditions of R63 hold; any other is answered ERR
and 0 and changes no state of either unit. -/
def Obligations.AccessIsRefusedExactlyByTheRule : Prop :=
  ∀ (s : State) (t : Transaction) (rest : List Event),
    (accepted s.caps t = false → step (atTransaction s t rest) = .next (answered s rest .err 0)) ∧
    (accepted s.caps t = true → ∀ r, step (atTransaction s t rest) = .next r → ∃ d, r.response = some ⟨.ok, d⟩)

/-- 20_memory.md R62 and R67, 10_state.md R25, R26, R38 and R39: a write to IN_LEN or PAY_LEN stores all 32 bits; a write to a
cell of IN_BUF or PAY_BUF stores the low 8 bits in that cell alone; each is answered OK and 0 and changes nothing else. -/
def Obligations.InputWritesStoreTheirData : Prop :=
  ∀ (s : State) (rest : List Event) (v : Word),
    step (atTransaction s (writeOf .henc 0 6 v) rest) =
      .next (answered { s with henc := { s.henc with inLen := v } } rest .ok 0) ∧
    step (atTransaction s (writeOf .hdec 0 6 v) rest) =
      .next (answered { s with hdec := { s.hdec with payLen := v } } rest .ok 0) ∧
    (∀ i, i < s.caps.inCap.toNat → ∃ m : Memory Byte,
      step (atTransaction s (writeOf .henc 1 i v) rest) =
        .next (answered { s with henc := { s.henc with inBuf := m } } rest .ok 0) ∧
      ∀ a, m.cell? a = if a = i then some (v.setWidth 8) else s.henc.inBuf.cell? a) ∧
    (∀ i, i < s.caps.payCap.toNat → ∃ m : Memory Byte,
      step (atTransaction s (writeOf .hdec 1 i v) rest) =
        .next (answered { s with hdec := { s.hdec with payBuf := m } } rest .ok 0) ∧
      ∀ a, m.cell? a = if a = i then some (v.setWidth 8) else s.hdec.payBuf.cell? a)

/-- 20_memory.md R69, R70 and R71: reads of FREQ, of both words of a TREE entry, and of words 0 to 8 of a table entry, whatever
wdata they carry (R60). -/
def Obligations.TablesReadInTheirLayouts : Prop :=
  ∀ (s : State) (rest : List Event) (d : Word),
    (∀ k, (h : k < 256) → step (atTransaction s (readOf .henc 2 k d) rest) = .next (answered s rest .ok s.henc.freq[k])) ∧
    (∀ k, (h : k < 255) →
      step (atTransaction s (readOf .henc 3 (2 * k) d) rest) = .next (answered s rest .ok s.henc.tree[k].w) ∧
      step (atTransaction s (readOf .henc 3 (2 * k + 1) d) rest) =
        .next (answered s rest .ok (word (s.henc.tree[k].c1.toNat * 2 ^ 16 + s.henc.tree[k].c0.toNat)))) ∧
    (∀ k, (h : k < 256) →
      step (atTransaction s (readOf .henc 4 (16 * k) d) rest) =
        .next (answered s rest .ok (s.henc.codeTab[k].len.setWidth 32)) ∧
      step (atTransaction s (readOf .hdec 4 (16 * k) d) rest) =
        .next (answered s rest .ok (s.hdec.decTab[k].len.setWidth 32)) ∧
      ∀ w, 1 ≤ w → w ≤ 8 →
        step (atTransaction s (readOf .henc 4 (16 * k + w) d) rest) =
          .next (answered s rest .ok (word (s.henc.codeTab[k].bits.toNat / 2 ^ (32 * (w - 1))))) ∧
        step (atTransaction s (readOf .hdec 4 (16 * k + w) d) rest) =
          .next (answered s rest .ok (word (s.hdec.decTab[k].bits.toNat / 2 ^ (32 * (w - 1))))))

/-- 20_memory.md R71: a write to word 0 of a table entry stores LEN from bits 7:0; a write to word `w` of 1 to 8 stores
`BITS[32 w - 1 : 32 (w - 1)]`, bit 31 of word 8 being ignored; no other bit of the entry, no other entry and nothing else
changes. -/
def Obligations.TableWritesChangeOneWord : Prop :=
  ∀ (s : State) (rest : List Event) (k w : Nat) (v : Word), k < 256 → w ≤ 8 →
    ∃ (e f : Entry),
      step (atTransaction s (writeOf .henc 4 (16 * k + w) v) rest) =
        .next (answered { s with henc := { s.henc with codeTab := s.henc.codeTab.setIfInBounds k e } } rest .ok 0) ∧
      step (atTransaction s (writeOf .hdec 4 (16 * k + w) v) rest) =
        .next (answered { s with hdec := { s.hdec with decTab := s.hdec.decTab.setIfInBounds k f } } rest .ok 0) ∧
      ∀ x : Entry, (s.henc.codeTab[k]? = some x →
          e.len = (if w = 0 then v.setWidth 8 else x.len) ∧
          ∀ i, i < 255 → e.bits.getLsbD i =
            if 32 * (w - 1) ≤ i ∧ i < 32 * w then v.getLsbD (i - 32 * (w - 1)) else x.bits.getLsbD i) ∧
        (s.hdec.decTab[k]? = some x →
          f.len = (if w = 0 then v.setWidth 8 else x.len) ∧
          ∀ i, i < 255 → f.bits.getLsbD i =
            if 32 * (w - 1) ≤ i ∧ i < 32 * w then v.getLsbD (i - 32 * (w - 1)) else x.bits.getLsbD i)

/-- 20_memory.md R62, R67 and R68, 93_implementation_defined.md U4: a read of a buffer cell in range answers OK with the value
stored, zero-extended, and changes nothing; of a cell that holds UNSPEC it answers some value of the cell's width, and
nothing but the count of draws changes. Whatever wdata the read carries is ignored (R60). -/
def Obligations.BufferCellsReadTheirValues : Prop :=
  ∀ (s : State) (rest : List Event) (i : Nat) (d : Word),
    (∀ (u : UnitId) (sp : BitVec 4) (m : Memory Byte),
      ((u, sp, m) ∈ [(UnitId.henc, (1 : BitVec 4), s.henc.inBuf), (.henc, 6, s.henc.outBuf),
        (.hdec, 1, s.hdec.payBuf), (.hdec, 6, s.hdec.symBuf)]) →
      accepted s.caps (readOf u sp i d) = true → i < 2 ^ 32 →
      (∀ v, m.cell? i = some v →
        step (atTransaction s (readOf u sp i d) rest) = .next (answered s rest .ok (v.setWidth 32))) ∧
      (m.cell? i = none → ∃ v : Byte, step (atTransaction s (readOf u sp i d) rest) =
        .next { answered s rest .ok (v.setWidth 32) with draws := s.draws + 1 })) ∧
    (∀ (u : UnitId) (m : Memory Bool),
      ((u, m) ∈ [(UnitId.henc, s.henc.bitBuf), (.hdec, s.hdec.dBits)]) →
      accepted s.caps (readOf u 5 i d) = true → i < 2 ^ 32 →
      (∀ v, m.cell? i = some v →
        step (atTransaction s (readOf u 5 i d) rest) = .next (answered s rest .ok (if v then 1 else 0))) ∧
      (m.cell? i = none → ∃ v : Bool, step (atTransaction s (readOf u 5 i d) rest) =
        .next { answered s rest .ok (if v then 1 else 0) with draws := s.draws + 1 }))

/-- 20_memory.md R74: no read has a side effect on the state of either unit. -/
def Obligations.ReadsLeaveBothUnitsAlone : Prop :=
  ∀ (s : State) (t : Transaction) (rest : List Event), t.kind = .read →
    ∃ r : State, step (atTransaction s t rest) = .next r ∧ r.henc = s.henc ∧ r.hdec = s.hdec ∧ r.caps = s.caps ∧
      r.pending = rest

/-! ### Rules of the whole machine -/

/-- 10_state.md R46 at reset. -/
def Obligations.ResetStateIsSafe : Prop := Inv State.reset

/-- 10_state.md R46, with R24, R29, R30 and R45: every step keeps the invariant of the block, whatever the host does. -/
def Obligations.EveryStepKeepsTheInvariant : Prop :=
  ∀ (s t : State), Inv s → step s = .next t → Inv t

/-- 70_reset_and_hazards.md R262 ("every command ends; there is no hang in this block") and 30_encoding.md R93: from a state
that meets the invariant every step answers a next state, whatever the host does. -/
def Obligations.NoStepEverStops : Prop :=
  ∀ s : State, Inv s → ∃ t, step s = .next t

/-- 10_state.md R20, 60_exceptions.md R225: a command changes nothing of the other unit, nor of the capacities, the pending
events or the held answer, whether it succeeds or fails. -/
def Obligations.CommandsLeaveTheOtherUnitAlone : Prop :=
  ∀ (i : Instr) (s t : State), exec i s = .next t →
    (i.unit = .henc → t.hdec = s.hdec) ∧ (i.unit = .hdec → t.henc = s.henc) ∧
    t.caps = s.caps ∧ t.pending = s.pending ∧ t.response = s.response

/-- 10_state.md R20, 20_memory.md R83: what a command leaves in its own unit does not depend on the other unit. -/
def Obligations.CommandsDoNotReadTheOtherUnit : Prop :=
  ∀ (i : Instr) (s r t : State), r.caps = s.caps → r.draws = s.draws →
    (i.unit = .henc → r.henc = s.henc) → (i.unit = .hdec → r.hdec = s.hdec) → exec i s = .next t →
    ∃ u, exec i r = .next u ∧ u.draws = t.draws ∧
      (i.unit = .henc → u.henc = t.henc) ∧ (i.unit = .hdec → u.hdec = t.hdec)

/-- 10_state.md R24, 60_exceptions.md R223: a unit in FAULT stays there, and keeps its first error, in every step but one that
takes `rst` or the write of a CLEAR word to that unit's CMD register. -/
def Obligations.FirstErrorIsKeptUntilClearOrReset : Prop :=
  ∀ (s t : State) (u : UnitId), inFault s u → step s = .next t →
    s.pending.head? ≠ some .rst → s.pending.head? ≠ some (.transaction (writeOf u 0 1 1)) →
    inFault t u ∧ t.errRegs u = s.errRegs u
end

