-- ==== Sys2Proof/Laws/Memory.lean ====
section
/-! SUPPORT. The laws of buffer cells and table memories: a read after a write, the canonical form kept by every operation,
and what a sequence of reads returns. -/
namespace Sys2Proof.Machine

variable {α : Type}

/-! ### cells -/

@[simp] theorem Memory.cell?_nil (a : Nat) : Memory.cell? ([] : Memory α) a = none := rfl

/-- A read after a write: the value written, or what the cell held before. -/
theorem Memory.cell?_put (m : Memory α) (a b : Nat) (v : α) :
    (m.put a v).cell? b = if a = b then some v else m.cell? b := by
  induction m with
  | nil => simp [Memory.put, Memory.cell?]
  | cons c rest ih =>
    obtain ⟨i, w⟩ := c
    simp only [Memory.put]
    split
    · simp [Memory.cell?]
    · split
      · next h => subst h; by_cases hb : a = b <;> simp [Memory.cell?, hb]
      · by_cases hb : i = b
        · subst hb; simp [Memory.cell?]; omega
        · simp [Memory.cell?, hb, ih]

@[simp] theorem Memory.cell?_put_same (m : Memory α) (a : Nat) (v : α) : (m.put a v).cell? a = some v := by
  simp [Memory.cell?_put]

theorem Memory.cell?_put_other (m : Memory α) {a b : Nat} (v : α) (h : a ≠ b) : (m.put a v).cell? b = m.cell? b := by
  simp [Memory.cell?_put, h]

/-- A run of writes from `a` up: the run's values where it reaches, the old cells elsewhere. -/
theorem Memory.cell?_putRun (vs : List α) (m : Memory α) (a b : Nat) :
    (m.putRun a vs).cell? b = if a ≤ b then (vs[b - a]?).or (m.cell? b) else m.cell? b := by
  induction vs generalizing m a with
  | nil => simp [Memory.putRun]
  | cons v vs ih =>
    rw [Memory.putRun, ih]
    by_cases h : a + 1 ≤ b
    · obtain ⟨k, hk⟩ : ∃ k, b - a = k + 1 := ⟨b - a - 1, by omega⟩
      have hk' : b - (a + 1) = k := by omega
      rw [if_pos h, if_pos (by omega), hk, hk', Memory.cell?_put_other _ _ (by omega)]
      simp
    · by_cases hab : a = b
      · subst hab; simp
      · rw [if_neg h, if_neg (by omega), Memory.cell?_put_other _ _ hab]

/-! ### the canonical form -/

@[simp] theorem Memory.wf_nil : Memory.wf ([] : Memory α) := List.Pairwise.nil

@[simp] theorem Memory.below_nil (n : Nat) : Memory.below ([] : Memory α) n := by simp

/-- Every index listed after a write is the one written or was listed before. -/
theorem Memory.mem_put {m : Memory α} {a : Nat} {v : α} {c : Nat × α} (h : c ∈ m.put a v) : c.1 = a ∨ c ∈ m := by
  induction m with
  | nil => simp [Memory.put] at h; simp [h]
  | cons d rest ih =>
    obtain ⟨i, w⟩ := d
    simp only [Memory.put] at h
    split at h
    · rcases List.mem_cons.1 h with h | h
      · simp [h]
      · exact .inr h
    · split at h
      · rcases List.mem_cons.1 h with h | h
        · simp [h]
        · exact .inr (List.mem_cons_of_mem _ h)
      · rcases List.mem_cons.1 h with h | h
        · exact .inr (by simp [h])
        · rcases ih h with h | h
          · exact .inl h
          · exact .inr (List.mem_cons_of_mem _ h)

/-- A write keeps the canonical form. -/
theorem Memory.wf_put {m : Memory α} (h : m.wf) (a : Nat) (v : α) : (m.put a v).wf := by
  induction m with
  | nil => simp [Memory.put]
  | cons d rest ih =>
    obtain ⟨i, w⟩ := d
    have hrest := (List.pairwise_cons.1 h).2
    have hi := (List.pairwise_cons.1 h).1
    simp only [Memory.put]
    split
    · next hlt =>
      refine List.pairwise_cons.2 ⟨fun c hc => ?_, h⟩
      rcases List.mem_cons.1 hc with rfl | hc
      · exact hlt
      · exact Nat.lt_trans hlt (hi c hc)
    · split
      · next _ heq =>
        subst heq
        exact List.pairwise_cons.2 ⟨fun c hc => hi c hc, hrest⟩
      · next h1 h2 =>
        refine List.pairwise_cons.2 ⟨fun c hc => ?_, ih hrest⟩
        rcases Memory.mem_put hc with h | h
        · show i < c.1
          omega
        · exact hi c h

theorem Memory.below_put {m : Memory α} {n a : Nat} (h : m.below n) (ha : a < n) (v : α) : (m.put a v).below n := by
  intro c hc
  rcases Memory.mem_put hc with h' | h'
  · omega
  · exact h c h'

/-- A run of writes keeps the canonical form. -/
theorem Memory.wf_putRun {m : Memory α} (h : m.wf) (a : Nat) (vs : List α) : (m.putRun a vs).wf := by
  induction vs generalizing m a with
  | nil => exact h
  | cons v vs ih => exact ih (Memory.wf_put h a v) (a + 1)

theorem Memory.below_putRun {m : Memory α} {n a : Nat} {vs : List α} (h : m.below n) (ha : a + vs.length ≤ n) :
    (m.putRun a vs).below n := by
  induction vs generalizing m a with
  | nil => exact h
  | cons v vs ih =>
    simp only [List.length_cons] at ha
    exact ih (Memory.below_put h (by omega) v) (by omega)

/-- Every buffer is in canonical form right after reset. -/
theorem reset_memories_wf :
    State.reset.henc.inBuf.wf ∧ State.reset.henc.bitBuf.wf ∧ State.reset.henc.outBuf.wf ∧
    State.reset.hdec.payBuf.wf ∧ State.reset.hdec.dBits.wf ∧ State.reset.hdec.symBuf.wf :=
  ⟨.nil, .nil, .nil, .nil, .nil, .nil⟩

/-! ### reads -/

theorem Memory.draw_of_some {free : Nat → α} {m : Memory α} {a d : Nat} {v : α} (h : m.cell? a = some v) :
    m.draw free a d = (v, d) := by
  simp [Memory.draw, h]

theorem Memory.draw_of_none {free : Nat → α} {m : Memory α} {a d : Nat} (h : m.cell? a = none) :
    m.draw free a d = (free d, d + 1) := by
  simp [Memory.draw, h]

@[simp] theorem Memory.length_drawList (free : Nat → α) (m : Memory α) (as : List Nat) (d : Nat) :
    (m.drawList free as d).1.length = as.length := by
  induction as generalizing d with
  | nil => rfl
  | cons a as ih => simp [Memory.drawList, ih]

/-- A sequence of reads returns the stored value of every cell that holds one. -/
theorem Memory.drawList_stored (free : Nat → α) (m : Memory α) (as : List Nat) (d i a : Nat) (v : α)
    (hi : as[i]? = some a) (hv : m.cell? a = some v) : (m.drawList free as d).1[i]? = some v := by
  induction as generalizing d i with
  | nil => simp at hi
  | cons b as ih =>
    cases i with
    | zero =>
      obtain rfl : b = a := by simpa using hi
      simp [Memory.drawList, Memory.draw_of_some hv]
    | succ i =>
      simp only [Memory.drawList, List.getElem?_cons_succ]
      exact ih _ _ (by simpa using hi)

/-- When every cell read holds a value, nothing is drawn and the values come back in order. -/
theorem Memory.drawList_known (free : Nat → α) (m : Memory α) (as : List Nat) (vs : List α) (d : Nat)
    (hlen : as.length = vs.length) (h : ∀ i (hi : i < as.length) (hv : i < vs.length), m.cell? as[i] = some vs[i]) :
    m.drawList free as d = (vs, d) := by
  induction as generalizing vs with
  | nil => cases vs <;> simp_all [Memory.drawList]
  | cons a as ih =>
    cases vs with
    | nil => simp at hlen
    | cons v vs =>
      have h0 := h 0 (by simp) (by simp)
      have hrest := ih vs (by simpa using hlen) (fun i hi hv => h (i + 1) (by simpa using hi) (by simpa using hv))
      simp only [List.getElem_cons_zero] at h0
      simp [Memory.drawList, Memory.draw_of_some h0, hrest]

/-- Reads of cells 0 to `n - 1` that all hold a value. -/
theorem Memory.drawList_range (free : Nat → α) (m : Memory α) (vs : List α) (d : Nat)
    (h : ∀ i (hi : i < vs.length), m.cell? i = some vs[i]) :
    m.drawList free (List.range vs.length) d = (vs, d) :=
  Memory.drawList_known free m _ vs d (by simp) (fun i _ hv => by simpa using h i hv)

/-! ### tables -/

@[simp] theorem getElem_tabulate (n : Nat) (f : Nat → α) (k : Nat) (h : k < n) : (tabulate n f)[k] = f k := by
  simp [tabulate]

@[simp] theorem bySymbol_tabulate (f : Nat → α) (s : Byte) : bySymbol (tabulate 256 f) s = f s.toNat := by
  simp [bySymbol]

@[simp] theorem toList_tabulate (n : Nat) (f : Nat → α) : (tabulate n f).toList = (List.range n).map f := by
  simp [tabulate]

@[simp] theorem bySymbol_emptyTable (s : Byte) : bySymbol emptyTable s = ⟨0, 0⟩ := by
  simp [bySymbol, emptyTable]

end Sys2Proof.Machine
end

