-- ==== Sys2Proof/Laws/Bits.lean ====
section
/-! SUPPORT. The laws of bitstrings, table entries and the loops of ENCODE and SCAN. -/
namespace Sys2Proof.Machine

/-! ### bitsValue -/

@[simp] theorem bitsValue_nil : bitsValue [] = 0 := rfl

theorem bitsValue_cons (b : Bool) (c : Bits) : bitsValue (b :: c) = b.toNat * 2 ^ c.length + bitsValue c := rfl

/-- A bitstring of length `n` stands for a number below `2 ^ n`. -/
theorem bitsValue_lt (c : Bits) : bitsValue c < 2 ^ c.length := by
  induction c with
  | nil => simp
  | cons b c ih =>
    rw [bitsValue_cons, List.length_cons, Nat.pow_succ]
    cases b <;> simp <;> omega

/-- Bit `j` of the number, counted from the least significant, is the bit `j` places before the end of the string. -/
theorem testBit_bitsValue (bs : Bits) (j : Nat) (h : j < bs.length) :
    (bitsValue bs).testBit j = bs[bs.length - 1 - j] := by
  induction bs with
  | nil => simp at h
  | cons b bs ih =>
    rw [bitsValue_cons, Nat.mul_comm, Nat.testBit_two_pow_mul_add _ (bitsValue_lt bs)]
    split
    · next hj =>
      rw [ih hj]
      simp [show bs.length - j = (bs.length - 1 - j) + 1 by omega]
    · next hj =>
      have hj' : j = bs.length := by simp only [List.length_cons] at h; omega
      subst hj'
      cases b <;> simp

/-- The number as the sum that 30_encoding.md R96 writes. -/
theorem bitsValue_eq_sum (bs : Bits) :
    bitsValue bs = ((List.range bs.length).map (fun i => (bs.getD i false).toNat * 2 ^ (bs.length - 1 - i))).sum := by
  induction bs with
  | nil => rfl
  | cons b bs ih =>
    rw [bitsValue_cons, ih, List.length_cons, List.range_succ_eq_map, List.map_cons, List.sum_cons, List.map_map]
    refine congrArg₂ (· + ·) (by simp) (congrArg List.sum (List.map_congr_left fun i _ => ?_))
    have hi : bs.length - 1 - i = bs.length + 1 - 1 - (i + 1) := by omega
    simp [hi]

/-! ### entries -/

@[simp] theorem Entry.length_code (e : Entry) : e.code.length = e.len.toNat := by simp [Entry.code]

@[simp] theorem Entry.code_zero (b : BitVec 255) : (Entry.mk 0 b).code = [] := by simp [Entry.code]

/-- Bit `i` of a code. -/
theorem Entry.getElem_code (e : Entry) (i : Nat) (h : i < e.code.length) :
    e.code[i] = e.bits.getLsbD (e.len.toNat - 1 - i) := by
  simp [Entry.code]

/-! ### packing and unpacking -/

/-- Bit `7 - j` of packed byte `k` is bit `8 k + j` of the sequence, 0 past its end. -/
theorem getLsbD_packedByte (b : Bits) (k j : Nat) (h : j < 8) :
    (packedByte b k).getLsbD (7 - j) = b.getD (8 * k + j) false := by
  rw [packedByte, BitVec.getLsbD_ofNat, testBit_bitsValue _ _ (by simp; omega)]
  have h1 : 7 - j < 8 := by omega
  have h2 : 7 - (7 - j) = j := by omega
  simp [h1, h2]

@[simp] theorem length_packedBuffer (b : Bits) :
    (packedBuffer b).length = 1 + (b.length + paddingOf b.length) / 8 := by
  simp [packedBuffer]; omega

@[simp] theorem length_unpackedBits (v : List Byte) : (unpackedBits v).length = v.length := by
  simp [unpackedBits]

theorem getElem_unpackedBits (v : List Byte) (i : Nat) (h : i < v.length) :
    (unpackedBits v)[i]'(by simpa using h) = v[i].getLsbD (7 - i % 8) := by
  simp [unpackedBits]

/-! ### the loop of ENCODE -/

/-- When every symbol has a code and all of them fit, the loop gives the codes one after another. -/
theorem encodeFrom_ok (tab : Vector Entry 256) (cap : Nat) (syms : List Byte) (i n : Nat)
    (hlen : ∀ x ∈ syms, (bySymbol tab x).len.toNat ≠ 0)
    (hcap : n + (syms.map fun x => (bySymbol tab x).len.toNat).sum ≤ cap) :
    encodeFrom tab cap syms i n = .ok (syms.map fun x => (bySymbol tab x).code).flatten := by
  induction syms generalizing i n with
  | nil => rfl
  | cons x rest ih =>
    simp only [List.map_cons, List.sum_cons] at hcap
    have hx := hlen x (by simp)
    simp only [encodeFrom]
    rw [if_neg hx, if_neg (by omega), ih (i + 1) _ (fun y hy => hlen y (by simp [hy])) (by omega)]
    simp

/-- The loop fails at the first symbol that has no code or whose code does not fit, and nowhere else: at symbol `k` of the
rest, index `i + k` of the input. -/
theorem encodeFrom_error (tab : Vector Entry 256) (cap : Nat) (syms : List Byte) (i n k : Nat) (x : Byte)
    (hx : syms[k]? = some x) (hlen : ∀ y ∈ syms.take k, (bySymbol tab y).len.toNat ≠ 0)
    (hcap : n + ((syms.take k).map fun y => (bySymbol tab y).len.toNat).sum ≤ cap) :
    ((bySymbol tab x).len.toNat = 0 →
      encodeFrom tab cap syms i n = .error ⟨.unknownSymbol, x.setWidth 32, word (i + k)⟩) ∧
    ((bySymbol tab x).len.toNat ≠ 0 →
      cap < n + ((syms.take k).map fun y => (bySymbol tab y).len.toNat).sum + (bySymbol tab x).len.toNat →
      encodeFrom tab cap syms i n = .error ⟨.capacity, 5, word (i + k)⟩) := by
  induction syms generalizing i n k with
  | nil => simp at hx
  | cons y rest ih =>
    cases k with
    | zero =>
      obtain rfl : y = x := by simpa using hx
      refine ⟨fun h => by simp [encodeFrom, h], fun h hc => ?_⟩
      simp only [List.take_zero, List.map_nil, List.sum_nil, Nat.add_zero] at hc
      simp only [encodeFrom]
      rw [if_neg h, if_pos hc]; rfl
    | succ k =>
      simp only [List.take_succ_cons, List.map_cons, List.sum_cons] at hcap ⊢
      have hy := hlen y (by simp)
      have := ih (i + 1) (n + (bySymbol tab y).len.toNat) k (by simpa using hx)
        (fun z hz => hlen z (by simp [hz])) (by omega)
      rw [show i + 1 + k = i + (k + 1) by omega] at this
      have hstep : ∀ f, encodeFrom tab cap rest (i + 1) (n + (bySymbol tab y).len.toNat) = .error f →
          encodeFrom tab cap (y :: rest) i n = .error f := by
        intro f hf
        simp only [encodeFrom]
        rw [if_neg hy, if_neg (by omega), hf]
      exact ⟨fun h => hstep _ (this.1 h), fun h hc => hstep _ (this.2 h (by omega))⟩

/-- What a success of the loop has written fits. -/
theorem encodeFrom_fits {tab : Vector Entry 256} {cap : Nat} {syms : List Byte} {i n : Nat} {c : Bits}
    (h : encodeFrom tab cap syms i n = .ok c) (hn : n ≤ cap) : n + c.length ≤ cap := by
  induction syms generalizing i n c with
  | nil => simp only [encodeFrom, Except.ok.injEq] at h; subst h; simpa using hn
  | cons x rest ih =>
    simp only [encodeFrom] at h
    split at h
    · cases h
    · split at h
      · cases h
      · split at h
        · cases h
        · next c' hc =>
          obtain rfl := Except.ok.inj h
          have := ih hc (by omega)
          simp; omega

/-! ### the loop of SCAN -/

/-- A bit that makes no code of the candidate extends it. -/
theorem scanFrom_extend {t : Vector Entry 256} {cand : Bits} {b : Bool} (h : invLookup t (cand ++ [b]) = none)
    (cap : Nat) (rest : Bits) (i start m : Nat) :
    scanFrom t cap (b :: rest) i cand start m =
      scanFrom t cap rest (i + 1) (cand ++ [b]) (if cand.isEmpty then i else start) m := by
  simp [scanFrom, h]

/-- A bit that completes a code, with SYM_BUF full, ends the loop at the first bit of that code. -/
theorem scanFrom_full {t : Vector Entry 256} {cand : Bits} {b : Bool} {x : Byte}
    (h : invLookup t (cand ++ [b]) = some x) (cap : Nat) (rest : Bits) (i start : Nat) :
    scanFrom t cap (b :: rest) i cand start cap =
      .error ⟨.capacity, 6, word (if cand.isEmpty then i else start)⟩ := by
  simp [scanFrom, h]

/-- What a success of the loop has emitted fits. -/
theorem scanFrom_fits {t : Vector Entry 256} {cap : Nat} {bits : Bits} {i start m : Nat} {cand : Bits}
    {out : List Byte} (h : scanFrom t cap bits i cand start m = .ok out) (hm : m ≤ cap) : m + out.length ≤ cap := by
  induction bits generalizing i start m cand out with
  | nil =>
    simp only [scanFrom] at h
    split at h
    · obtain rfl := Except.ok.inj h; simpa using hm
    · cases h
  | cons b rest ih =>
    simp only [scanFrom] at h
    split at h
    · exact ih h hm
    · split at h
      · cases h
      · split at h
        · cases h
        · next out' ho =>
          obtain rfl := Except.ok.inj h
          have := ih ho (by omega)
          simp; omega

/-- A run of bits with no match inside it goes into the candidate whole. -/
theorem scanFrom_run {t : Vector Entry 256} (cap : Nat) (run rest : Bits) (i start m : Nat) (cand : Bits)
    (h : ∀ j, 1 ≤ j → j ≤ run.length → invLookup t (cand ++ run.take j) = none) (hc : cand ≠ []) :
    scanFrom t cap (run ++ rest) i cand start m = scanFrom t cap rest (i + run.length) (cand ++ run) start m := by
  induction run generalizing i cand with
  | nil => simp
  | cons b run ih =>
    have h1 : invLookup t (cand ++ [b]) = none := by simpa using h 1 (by omega) (by simp)
    have he : cand.isEmpty = false := by simpa using hc
    rw [List.cons_append, scanFrom_extend h1, he, if_neg (by simp)]
    rw [ih (i + 1) (cand ++ [b]) (fun j hj hl => by simpa using h (j + 1) (by omega) (by simpa using hl)) (by simp)]
    simp [Nat.add_comm, Nat.add_left_comm]

end Sys2Proof.Machine
end

