-- ==== Sys2Proof/Laws/State.lean ====
section
/-! SUPPORT. One small lemma for each field of each named update of State, so that no later proof unfolds one. -/
namespace Sys2Proof.Machine

/-! ### raise -/

@[simp] theorem State.raise_henc_caps (s : State) (f : Failure) : (s.raise .henc f).caps = s.caps := rfl
@[simp] theorem State.raise_henc_hdec (s : State) (f : Failure) : (s.raise .henc f).hdec = s.hdec := rfl
@[simp] theorem State.raise_henc_pending (s : State) (f : Failure) : (s.raise .henc f).pending = s.pending := rfl
@[simp] theorem State.raise_henc_response (s : State) (f : Failure) : (s.raise .henc f).response = s.response := rfl
@[simp] theorem State.raise_henc_draws (s : State) (f : Failure) : (s.raise .henc f).draws = s.draws := rfl
@[simp] theorem State.raise_henc_henc (s : State) (f : Failure) :
    (s.raise .henc f).henc = { s.henc with phase := .fault, err := f.regs } := rfl

@[simp] theorem State.raise_hdec_caps (s : State) (f : Failure) : (s.raise .hdec f).caps = s.caps := rfl
@[simp] theorem State.raise_hdec_henc (s : State) (f : Failure) : (s.raise .hdec f).henc = s.henc := rfl
@[simp] theorem State.raise_hdec_pending (s : State) (f : Failure) : (s.raise .hdec f).pending = s.pending := rfl
@[simp] theorem State.raise_hdec_response (s : State) (f : Failure) : (s.raise .hdec f).response = s.response := rfl
@[simp] theorem State.raise_hdec_draws (s : State) (f : Failure) : (s.raise .hdec f).draws = s.draws := rfl
@[simp] theorem State.raise_hdec_hdec (s : State) (f : Failure) :
    (s.raise .hdec f).hdec = { s.hdec with phase := .fault, err := f.regs } := rfl

/-! ### clear -/

@[simp] theorem State.clear_henc_caps (s : State) : (s.clear .henc).caps = s.caps := rfl
@[simp] theorem State.clear_henc_hdec (s : State) : (s.clear .henc).hdec = s.hdec := rfl
@[simp] theorem State.clear_henc_pending (s : State) : (s.clear .henc).pending = s.pending := rfl
@[simp] theorem State.clear_henc_response (s : State) : (s.clear .henc).response = s.response := rfl
@[simp] theorem State.clear_henc_draws (s : State) : (s.clear .henc).draws = s.draws := rfl
@[simp] theorem State.clear_henc_henc (s : State) :
    (s.clear .henc).henc = { s.henc with phase := .idle, err := ⟨0, 0, 0⟩ } := rfl

@[simp] theorem State.clear_hdec_caps (s : State) : (s.clear .hdec).caps = s.caps := rfl
@[simp] theorem State.clear_hdec_henc (s : State) : (s.clear .hdec).henc = s.henc := rfl
@[simp] theorem State.clear_hdec_pending (s : State) : (s.clear .hdec).pending = s.pending := rfl
@[simp] theorem State.clear_hdec_response (s : State) : (s.clear .hdec).response = s.response := rfl
@[simp] theorem State.clear_hdec_draws (s : State) : (s.clear .hdec).draws = s.draws := rfl
@[simp] theorem State.clear_hdec_hdec (s : State) :
    (s.clear .hdec).hdec = { s.hdec with phase := .idle, err := ⟨0, 0, 0⟩ } := rfl

/-! ### respond and rst -/

@[simp] theorem State.respond_caps (s : State) (r : Response) : (s.respond r).caps = s.caps := rfl
@[simp] theorem State.respond_henc (s : State) (r : Response) : (s.respond r).henc = s.henc := rfl
@[simp] theorem State.respond_hdec (s : State) (r : Response) : (s.respond r).hdec = s.hdec := rfl
@[simp] theorem State.respond_pending (s : State) (r : Response) : (s.respond r).pending = s.pending := rfl
@[simp] theorem State.respond_draws (s : State) (r : Response) : (s.respond r).draws = s.draws := rfl
@[simp] theorem State.respond_response (s : State) (r : Response) : (s.respond r).response = some r := rfl

@[simp] theorem State.rst_caps (s : State) : s.rst.caps = s.caps := rfl
@[simp] theorem State.rst_henc (s : State) : s.rst.henc = Henc.reset := rfl
@[simp] theorem State.rst_hdec (s : State) : s.rst.hdec = Hdec.reset := rfl
@[simp] theorem State.rst_pending (s : State) : s.rst.pending = s.pending := rfl
@[simp] theorem State.rst_response (s : State) : s.rst.response = none := rfl
@[simp] theorem State.rst_draws (s : State) : s.rst.draws = s.draws := rfl

/-! ### faulted and errRegs -/

theorem State.faulted_henc (s : State) : s.faulted .henc = true ↔ s.henc.phase = .fault := by
  simp [State.faulted]

theorem State.faulted_hdec (s : State) : s.faulted .hdec = true ↔ s.hdec.phase = .fault := by
  simp [State.faulted]

@[simp] theorem State.raise_faulted (s : State) (u : UnitId) (f : Failure) : (s.raise u f).faulted u = true := by
  cases u <;> rfl

@[simp] theorem State.raise_errRegs (s : State) (u : UnitId) (f : Failure) : (s.raise u f).errRegs u = f.regs := by
  cases u <;> rfl

@[simp] theorem State.clear_faulted (s : State) (u : UnitId) : (s.clear u).faulted u = false := by
  cases u <;> rfl

/-! ### thenDo -/

@[simp] theorem thenDo_next (f : State → State) (s : State) : thenDo f (.next s) = .next (f s) := rfl
@[simp] theorem thenDo_fault (f : State → State) (r : Fault) : thenDo f (.fault r) = .fault r := rfl
@[simp] theorem thenDo_refused (f : State → State) (r : Refusal) : thenDo f (.refused r) = .refused r := rfl

theorem thenDo_eq_next {f : State → State} {r : Result} {t : State} :
    thenDo f r = .next t ↔ ∃ s, r = .next s ∧ t = f s := by
  cases r <;> simp [thenDo, eq_comm]

end Sys2Proof.Machine
end

