-- ==== Sys2Proof/Laws/Ops.lean ====
section
/-! SUPPORT. What the shared operations around a command can do: the prologue, composition of stages, the draws of the operand
sequences. -/
namespace Sys2Proof.Machine

/-! ### Stages -/

@[simp] theorem Stage.result_done (s : State) : (Stage.done s).result = .next s := rfl
@[simp] theorem Stage.result_raised (s : State) : (Stage.raised s).result = .next s := rfl
@[simp] theorem Stage.result_stuck (f : Fault) : (Stage.stuck f).result = .fault f := rfl

@[simp] theorem Stage.andThen_done (s : State) (b : State → Stage) : (Stage.done s).andThen b = b s := rfl
@[simp] theorem Stage.andThen_raised (s : State) (b : State → Stage) : (Stage.raised s).andThen b = .raised s := rfl
@[simp] theorem Stage.andThen_stuck (f : Fault) (b : State → Stage) : (Stage.stuck f).andThen b = .stuck f := rfl

theorem Stage.result_eq_next {x : Stage} {t : State} : x.result = .next t ↔ x = .done t ∨ x = .raised t := by
  cases x <;> simp [Stage.result]

/-! ### The prologue -/

/-- In FAULT a command is ignored. -/
theorem prologue_of_faulted {i : Instr} {s : State} (h : s.faulted i.unit = true) (b : State → Stage) :
    prologue i b s = .next s := by
  simp [prologue, h]

/-- In a phase of its own a command runs its body. -/
theorem prologue_of_legal {i : Instr} {s : State} (h : s.faulted i.unit = false) (hl : legal i s = true)
    (b : State → Stage) : prologue i b s = (b s).result := by
  simp [prologue, h, hl]

/-- In another phase it raises IllegalCommandError. -/
theorem prologue_of_illegal {i : Instr} {s : State} (h : s.faulted i.unit = false) (hl : legal i s = false)
    (b : State → Stage) : prologue i b s = .next (s.raise i.unit (illegalCommand s i.unit (encode i))) := by
  simp [prologue, h, hl]

/-- The three things a command with a prologue can do. -/
theorem prologue_cases (i : Instr) (b : State → Stage) (s : State) :
    (s.faulted i.unit = true ∧ prologue i b s = .next s) ∨
    (s.faulted i.unit = false ∧ legal i s = true ∧ prologue i b s = (b s).result) ∨
    (s.faulted i.unit = false ∧ legal i s = false ∧
      prologue i b s = .next (s.raise i.unit (illegalCommand s i.unit (encode i)))) := by
  cases h : s.faulted i.unit
  · cases hl : legal i s
    · exact .inr (.inr ⟨rfl, rfl, prologue_of_illegal h hl b⟩)
    · exact .inr (.inl ⟨rfl, rfl, prologue_of_legal h hl b⟩)
  · exact .inl ⟨rfl, prologue_of_faulted h b⟩

/-! ### Operand sequences -/

@[simp] theorem length_inputSymbols (s : State) : (inputSymbols s).1.length = s.henc.inLen.toNat := by
  simp [inputSymbols]

@[simp] theorem length_encodedBits (s : State) : (encodedBits s).1.length = s.henc.bitLen.toNat := by
  simp [encodedBits]

@[simp] theorem length_payloadBits (s : State) : (payloadBits s).1.length = s.hdec.dBitLen.toNat := by
  simp [payloadBits]

@[simp] theorem length_payloadBytes (s : State) (n d : Nat) : (payloadBytes s n d).1.length = n := by
  simp [payloadBytes]

/-- A written input is read as it was written, and nothing is drawn. -/
theorem inputSymbols_of_written {s : State} {syms : List Byte} (hlen : syms.length = s.henc.inLen.toNat)
    (h : ∀ i (hi : i < syms.length), s.henc.inBuf.cell? i = some syms[i]) : inputSymbols s = (syms, s.draws) := by
  rw [inputSymbols, ← hlen]
  exact Memory.drawList_range _ _ _ _ h

/-- Written bits of BITBUF are read as they were written. -/
theorem encodedBits_of_written {s : State} {bits : Bits} (hlen : bits.length = s.henc.bitLen.toNat)
    (h : ∀ i (hi : i < bits.length), s.henc.bitBuf.cell? i = some bits[i]) : encodedBits s = (bits, s.draws) := by
  rw [encodedBits, ← hlen]
  exact Memory.drawList_range _ _ _ _ h

/-- Written bits of DBITS are read as they were written. -/
theorem payloadBits_of_written {s : State} {bits : Bits} (hlen : bits.length = s.hdec.dBitLen.toNat)
    (h : ∀ i (hi : i < bits.length), s.hdec.dBits.cell? i = some bits[i]) : payloadBits s = (bits, s.draws) := by
  rw [payloadBits, ← hlen]
  exact Memory.drawList_range _ _ _ _ h

/-- A sequence of reads of cells 0 to `n - 1` returns every stored value. -/
theorem drawList_range_stored {α : Type} (free : Nat → α) (m : Memory α) (n d i : Nat) (v : α) (hi : i < n)
    (hv : m.cell? i = some v) : (m.drawList free (List.range n) d).1[i]? = some v :=
  Memory.drawList_stored free m _ d i i v (by simp [hi]) hv

/-- Reads of cells that all hold a value draw nothing. -/
theorem Memory.drawList_draws {α : Type} (free : Nat → α) (m : Memory α) (as : List Nat) (d : Nat)
    (h : ∀ a ∈ as, m.cell? a ≠ none) : (m.drawList free as d).2 = d := by
  induction as generalizing d with
  | nil => rfl
  | cons a as ih =>
    obtain ⟨v, hv⟩ := Option.ne_none_iff_exists'.1 (h a (by simp))
    simp only [Memory.drawList, Memory.draw_of_some hv]
    exact ih d (fun b hb => h b (by simp [hb]))

end Sys2Proof.Machine
end

