-- ==== Sys2Proof/Laws/Tree.lean ====
section
/-! SUPPORT. The loops of BUILD and GENCODES: what MinNode returns, what the merge loop keeps, and when the traversal of a
tree ends. -/
namespace Sys2Proof.Machine

/-! ### Before and MinNode -/

theorem before_iff (wt : Nat → Nat) (x y : Nat) :
    before wt x y = true ↔ wt x < wt y ∨ (wt x = wt y ∧ x < y) := by
  simp [before]

theorem before_trans {wt : Nat → Nat} {x y z : Nat} (h : before wt x y = true) (h' : before wt y z = true) :
    before wt x z = true := by
  rw [before_iff] at *
  omega

/-- Of two different nodes one is Before the other. -/
theorem before_total {wt : Nat → Nat} {x y : Nat} (h : x ≠ y) (h' : before wt y x = false) : before wt x y = true := by
  have : ¬ (before wt y x = true) := by simp [h']
  rw [before_iff] at *
  omega

theorem minNode_eq_none {wt : Nat → Nat} {q : List Nat} : minNode wt q = none ↔ q = [] := by
  cases q <;> simp [minNode]

theorem foldl_least (wt : Nat → Nat) (q : List Nat) (x : Nat) :
    let m := q.foldl (fun m y => if before wt y m then y else m) x
    m ∈ x :: q ∧ ∀ y ∈ x :: q, y ≠ m → before wt m y = true := by
  induction q generalizing x with
  | nil => simp
  | cons y q ih =>
    simp only [List.foldl_cons]
    by_cases hb : before wt y x = true
    · rw [if_pos hb]
      obtain ⟨hm, hall⟩ := ih y
      refine ⟨List.mem_cons_of_mem _ hm, fun z hz hne => ?_⟩
      rcases List.mem_cons.1 hz with rfl | hz
      · by_cases he : y = List.foldl (fun m y => if before wt y m then y else m) y q
        · rwa [← he]
        · exact before_trans (hall y (by simp) he) hb
      · exact hall z hz hne
    · rw [if_neg hb]
      obtain ⟨hm, hall⟩ := ih x
      refine ⟨?_, fun z hz hne => ?_⟩
      · rcases List.mem_cons.1 hm with h | h
        · rw [h]; simp
        · simp [h]
      · rcases List.mem_cons.1 hz with rfl | hz
        · exact hall z (by simp) hne
        · rcases List.mem_cons.1 hz with rfl | hz
          · by_cases hzx : z = x
            · subst hzx; exact hall z (by simp) hne
            · have hxz := before_total (Ne.symm hzx) (by simpa using hb)
              by_cases he : x = List.foldl (fun m y => if before wt y m then y else m) x q
              · rwa [← he]
              · exact before_trans (hall x (by simp) he) hxz
          · exact hall z (by simp [hz]) hne

/-- The node MinNode returns is in the collection and Before every other node of it. -/
theorem minNode_spec {wt : Nat → Nat} {q : List Nat} {a : Nat} (h : minNode wt q = some a) :
    a ∈ q ∧ ∀ y ∈ q, y ≠ a → before wt a y = true := by
  cases q with
  | nil => simp [minNode] at h
  | cons x q =>
    obtain rfl := Option.some.inj h
    exact foldl_least wt q x

/-! ### Weights of the local image -/

/-- Adding nodes does not change the weight of an earlier one. -/
theorem localWeight_append (freq : Vector Word 256) (t u : List LocalNode) (id : Nat) (h : id < 256 + t.length) :
    localWeight freq (t ++ u) id = localWeight freq t id := by
  unfold localWeight
  split
  · rfl
  · rw [List.getElem?_append_left (by omega)]

/-- The weight of the node just added. -/
theorem localWeight_last (freq : Vector Word 256) (t : List LocalNode) (n : LocalNode) :
    localWeight freq (t ++ [n]) (256 + t.length) = n.w := by
  simp [localWeight]

theorem mem_treeLeaves (freq : Vector Word 256) (k : Nat) :
    k ∈ treeLeaves freq ↔ ∃ h : k < 256, 0 < freq[k].toNat := by
  simp only [treeLeaves, List.mem_filter, List.mem_range, decide_eq_true_eq]
  constructor
  · rintro ⟨h, hw⟩
    exact ⟨h, by simpa [localWeight, h] using hw⟩
  · rintro ⟨h, hw⟩
    exact ⟨h, by simpa [localWeight, h] using hw⟩

theorem treeLeaves_nodup (freq : Vector Word 256) : (treeLeaves freq).Nodup :=
  List.Nodup.filter _ List.nodup_range

/-! ### The merge loop -/

/-- The children of the nodes of a local image, in the order they were chosen. -/
def localChildren (t : List LocalNode) : List Nat := t.flatMap (fun n => [n.c0, n.c1])

/-- A node that may still be chosen: a leaf or a node of the image, and no child of one. -/
def localOffer (leaves : List Nat) (t : List LocalNode) (id : Nat) : Prop :=
  (id ∈ leaves ∨ (256 ≤ id ∧ id < 256 + t.length)) ∧ id ∉ localChildren t

/-- Node `n` is the merge of the two least nodes on offer over the image `t` (42_tree.md R131, R132). -/
structure IsMerge (freq : Vector Word 256) (leaves : List Nat) (t : List LocalNode) (n : LocalNode) : Prop where
  offer0 : localOffer leaves t n.c0
  offer1 : localOffer leaves t n.c1
  differ : n.c0 ≠ n.c1
  least0 : ∀ y, localOffer leaves t y → y ≠ n.c0 → before (localWeight freq t) n.c0 y = true
  least1 : ∀ y, localOffer leaves t y → y ≠ n.c0 → y ≠ n.c1 → before (localWeight freq t) n.c1 y = true
  weight : n.w = localWeight freq t n.c0 + localWeight freq t n.c1

/-- What the loop of BUILD keeps: the collection `q` holds exactly the nodes on offer, each node of the image is the merge of
the two least nodes on offer when it was made, and the weights in `q` sum to those of the leaves. -/
structure MergeInv (freq : Vector Word 256) (leaves q : List Nat) (t : List LocalNode) : Prop where
  nodup    : q.Nodup
  offer    : ∀ id, id ∈ q ↔ localOffer leaves t id
  nodes    : ∀ k n, t[k]? = some n → IsMerge freq leaves (t.take k) n
  children : (localChildren t).Nodup
  count    : q.length + t.length = leaves.length
  total    : (q.map (localWeight freq t)).sum = (leaves.map (localWeight freq [])).sum

@[simp] theorem localChildren_append (t : List LocalNode) (n : LocalNode) :
    localChildren (t ++ [n]) = localChildren t ++ [n.c0, n.c1] := by
  simp [localChildren]

theorem MergeInv.start (freq : Vector Word 256) (leaves : List Nat) (h : leaves.Nodup) :
    MergeInv freq leaves leaves [] where
  nodup := h
  offer id := by simp [localOffer, localChildren]
  nodes k n hk := by simp at hk
  children := by simp [localChildren]
  count := by simp
  total := rfl

/-- Every child of the image is a leaf or an earlier node. -/
theorem MergeInv.child_lt {freq : Vector Word 256} {leaves q : List Nat} {t : List LocalNode}
    (hi : MergeInv freq leaves q t) (hl : ∀ id ∈ leaves, id < 256) {id : Nat} (h : id ∈ localChildren t) :
    id < 256 + t.length := by
  obtain ⟨n, hn, hid⟩ := List.mem_flatMap.1 h
  obtain ⟨k, hk, hkn⟩ := List.mem_iff_getElem.1 hn
  have hm := hi.nodes k n (by rw [List.getElem?_eq_getElem hk, hkn])
  have hlt : ∀ c, localOffer leaves (t.take k) c → c < 256 + t.length := by
    rintro c ⟨hc | hc, -⟩
    · have := hl c hc; omega
    · rw [List.length_take] at hc; omega
  simp only [List.mem_cons, List.not_mem_nil, or_false] at hid
  rcases hid with rfl | rfl
  · exact hlt _ hm.offer0
  · exact hlt _ hm.offer1

/-- One round of the loop keeps the invariant. -/
theorem MergeInv.merge {freq : Vector Word 256} {leaves q : List Nat} {t : List LocalNode} {a b : Nat}
    (hi : MergeInv freq leaves q t) (hl : ∀ id ∈ leaves, id < 256)
    (ha : minNode (localWeight freq t) q = some a) (hb : minNode (localWeight freq t) (q.erase a) = some b) :
    MergeInv freq leaves ((q.erase a).erase b ++ [256 + t.length])
      (t ++ [⟨localWeight freq t a + localWeight freq t b, a, b⟩]) := by
  obtain ⟨haq, hamin⟩ := minNode_spec ha
  obtain ⟨hbq, hbmin⟩ := minNode_spec hb
  have hnd := hi.nodup
  have hnda : (q.erase a).Nodup := hnd.erase a
  have hba : b ∈ q ∧ b ≠ a := by
    have := (hnd.mem_erase_iff).1 hbq
    exact ⟨this.2, this.1⟩
  have hqlt : ∀ id ∈ q, id < 256 + t.length := by
    intro id hid
    rcases ((hi.offer id).1 hid).1 with h | h
    · have := hl id h; omega
    · exact h.2
  have halt := hqlt a haq
  have hblt := hqlt b hba.1
  have hmem : ∀ id, id ∈ (q.erase a).erase b ↔ id ∈ q ∧ id ≠ a ∧ id ≠ b := by
    intro id
    rw [hnda.mem_erase_iff, hnd.mem_erase_iff]
    tauto
  have hca : a ∉ localChildren t := ((hi.offer a).1 haq).2
  have hcb : b ∉ localChildren t := ((hi.offer b).1 hba.1).2
  have hlena : (q.erase a).length = q.length - 1 := List.length_erase_of_mem haq
  have hlenb : ((q.erase a).erase b).length = q.length - 1 - 1 := by rw [List.length_erase_of_mem hbq, hlena]
  have hpos : 0 < q.length := List.length_pos_of_mem haq
  have hposa : 0 < q.length - 1 := hlena ▸ List.length_pos_of_mem hbq
  refine ⟨?_, ?_, ?_, ?_, ?_, ?_⟩
  · refine List.nodup_append.2 ⟨hnda.erase b, by simp, fun x hx y hy => ?_⟩
    have hxl := hqlt x ((hmem x).1 hx).1
    have hye : y = 256 + t.length := by simpa using hy
    omega
  · intro id
    rw [List.mem_append, hmem, hi.offer]
    simp only [localOffer, localChildren_append, List.mem_append, List.mem_cons, List.not_mem_nil, or_false, not_or,
      List.length_append, List.length_singleton]
    constructor
    · rintro (⟨⟨h, hc⟩, hna, hnb⟩ | rfl)
      · exact ⟨h.imp (fun h => h) (fun h => ⟨h.1, by omega⟩), hc, hna, hnb⟩
      · refine ⟨.inr ⟨by omega, by omega⟩, fun hc => ?_, by omega, by omega⟩
        have := hi.child_lt hl hc
        omega
    · rintro ⟨h, hc, hna, hnb⟩
      by_cases hid : id = 256 + t.length
      · exact .inr hid
      · exact .inl ⟨⟨h.imp (fun h => h) (fun h => ⟨h.1, by omega⟩), hc⟩, hna, hnb⟩
  · intro k n hk
    rcases Nat.lt_trichotomy k t.length with h | h | h
    · rw [List.getElem?_append_left h] at hk
      rw [List.take_append_of_le_length (by omega)]
      exact hi.nodes k n hk
    · subst h
      rw [List.getElem?_append_right (by omega)] at hk
      simp only [Nat.sub_self, List.getElem?_cons_zero, Option.some.injEq] at hk
      subst hk
      rw [List.take_append_of_le_length (by omega), List.take_length]
      refine ⟨(hi.offer a).1 haq, (hi.offer b).1 hba.1, Ne.symm hba.2, ?_, ?_, rfl⟩
      · exact fun y hy hne => hamin y ((hi.offer y).2 hy) hne
      · exact fun y hy hne hne' => hbmin y ((hnd.mem_erase_iff).2 ⟨hne, (hi.offer y).2 hy⟩) hne'
    · rw [List.getElem?_eq_none (by simp; omega)] at hk
      cases hk
  · rw [localChildren_append]
    refine List.nodup_append.2 ⟨hi.children, by simpa using Ne.symm hba.2, fun x hx y hy => ?_⟩
    simp only [List.mem_cons, List.not_mem_nil, or_false] at hy
    rintro rfl
    rcases hy with rfl | rfl
    · exact hca hx
    · exact hcb hx
  · have := hi.count
    simp only [List.length_append, List.length_singleton, hlenb]
    omega
  · rw [← hi.total]
    have hsame : ∀ l : List Nat, (∀ x ∈ l, x < 256 + t.length) → ∀ n : LocalNode,
        l.map (localWeight freq (t ++ [n])) = l.map (localWeight freq t) := by
      intro l hll n
      exact List.map_congr_left (fun x hx => localWeight_append freq t [n] x (hll x hx))
    rw [List.map_append, List.map_singleton, localWeight_last,
      hsame _ (fun x hx => hqlt x ((hmem x).1 hx).1), List.sum_append]
    have h1 := List.sum_map_erase (localWeight freq t) haq
    have h2 := List.sum_map_erase (localWeight freq t) hbq
    simp only [List.sum_singleton]
    omega

/-- One round of the loop. -/
theorem mergeLoop_round {freq : Vector Word 256} {q : List Nat} {t : List LocalNode} {a b : Nat}
    (ha : minNode (localWeight freq t) q = some a) (hb : minNode (localWeight freq t) (q.erase a) = some b)
    (fuel : Nat) : mergeLoop freq (fuel + 1) q t =
      mergeLoop freq fuel ((q.erase a).erase b ++ [256 + t.length])
        (t ++ [⟨localWeight freq t a + localWeight freq t b, a, b⟩]) := by
  rw [mergeLoop, ha]
  dsimp only
  rw [hb]

/-- With one node left the loop ends. -/
theorem mergeLoop_single (freq : Vector Word 256) (fuel r : Nat) (t : List LocalNode) :
    mergeLoop freq fuel [r] t = ([r], t) := by
  cases fuel <;> simp [mergeLoop, minNode]

/-- The loop ends with one node in the collection, and keeps the invariant. -/
theorem mergeLoop_spec (freq : Vector Word 256) (leaves : List Nat) (hl : ∀ id ∈ leaves, id < 256) (fuel : Nat)
    (q : List Nat) (t : List LocalNode) (hi : MergeInv freq leaves q t) (hq : q ≠ []) (hf : q.length ≤ fuel + 1) :
    ∃ root, (mergeLoop freq fuel q t).1 = [root] ∧ MergeInv freq leaves [root] (mergeLoop freq fuel q t).2 := by
  induction fuel generalizing q t with
  | zero =>
    have := List.length_pos_iff.2 hq
    obtain ⟨r, rfl⟩ := List.length_eq_one_iff.1 (show q.length = 1 by omega)
    exact ⟨r, rfl, hi⟩
  | succ fuel ih =>
    obtain ⟨a, ha⟩ : ∃ a, minNode (localWeight freq t) q = some a :=
      Option.ne_none_iff_exists'.1 (fun h => hq (minNode_eq_none.1 h))
    have haq := (minNode_spec ha).1
    have hlen : (q.erase a).length = q.length - 1 := List.length_erase_of_mem haq
    have hpos := List.length_pos_of_mem haq
    by_cases h1 : q.length = 1
    · obtain ⟨r, rfl⟩ := List.length_eq_one_iff.1 h1
      rw [mergeLoop_single]
      exact ⟨r, rfl, hi⟩
    · obtain ⟨b, hb⟩ : ∃ b, minNode (localWeight freq t) (q.erase a) = some b := by
        refine Option.ne_none_iff_exists'.1 (fun h => ?_)
        rw [minNode_eq_none.1 h, List.length_nil] at hlen
        omega
      have hlen' := List.length_erase_of_mem (minNode_spec hb).1
      rw [mergeLoop_round ha hb]
      refine ih _ _ (hi.merge hl ha hb) (by simp) ?_
      simp only [List.length_append, List.length_singleton, hlen', hlen]
      omega

/-- BUILD's loop over the leaves of a table that is not empty (42_tree.md R132). -/
theorem mergeLoop_leaves (freq : Vector Word 256) (h : treeLeaves freq ≠ []) :
    ∃ root, (mergeLoop freq (treeLeaves freq).length (treeLeaves freq) []).1 = [root] ∧
      MergeInv freq (treeLeaves freq) [root] (mergeLoop freq (treeLeaves freq).length (treeLeaves freq) []).2 :=
  mergeLoop_spec freq _ (fun k hk => ((mem_treeLeaves freq k).1 hk).1) _ _ _
    (MergeInv.start freq _ (treeLeaves_nodup freq)) h (by omega)

/-! ### The traversal of GENCODES -/

/-- Where the children of the first `m` internal nodes come before their parents, the traversal from a node among them
ends; its codes extend the bitstring it starts from, by less than `depth` bits. -/
theorem leafCodes_ends (tree : Vector TreeNode 255) (m : Nat) (hm : m ≤ 255)
    (hc : ∀ k, (h : k < 255) → k < m → tree[k].c0.toNat < 256 + k ∧ tree[k].c1.toNat < 256 + k)
    (depth : Nat) (id : NodeId) (c : Bits) (hid : id.toNat < 256 + m) (hd : id.toNat < 255 + depth) (hp : 0 < depth) :
    ∃ v, leafCodes tree depth id c = .ok v ∧
      ∀ p ∈ v, ∃ d : Bits, p.2 = c ++ d ∧ d.length < depth := by
  induction depth generalizing id c with
  | zero => omega
  | succ depth ih =>
    simp only [leafCodes]
    by_cases hleaf : id.toNat < 256
    · exact ⟨_, if_pos hleaf, fun p hp => ⟨[], by simp at hp; simp [hp], by simp⟩⟩
    · have hk : id.toNat - 256 < 255 := by omega
      obtain ⟨h0, h1⟩ := hc _ hk (by omega)
      have hchild : ∀ a : NodeId, a.toNat < 256 + (id.toNat - 256) →
          a.toNat < 256 + m ∧ a.toNat < 255 + depth ∧ 0 < depth := fun a ha => by omega
      obtain ⟨ha, hb, hz⟩ := hchild _ h0
      obtain ⟨v0, hv0, hp0⟩ := ih _ (c ++ [false]) ha hb hz
      obtain ⟨ha, hb, hz⟩ := hchild _ h1
      obtain ⟨v1, hv1, hp1⟩ := ih _ (c ++ [true]) ha hb hz
      rw [if_neg hleaf, dif_pos hk, hv0, hv1]
      refine ⟨_, rfl, fun p hp => ?_⟩
      rcases List.mem_append.1 hp with hp | hp
      · obtain ⟨d, he, hl⟩ := hp0 p hp
        exact ⟨false :: d, by rw [he, List.append_assoc]; rfl, by rw [List.length_cons]; omega⟩
      · obtain ⟨d, he, hl⟩ := hp1 p hp
        exact ⟨true :: d, by rw [he, List.append_assoc]; rfl, by rw [List.length_cons]; omega⟩

end Sys2Proof.Machine
end

