-- ==== Sys2Proof/Laws/Commands.lean ====
section
/-! SUPPORT. What the body of each command can do: its frame, and its end when the buffers it reads are written. -/
namespace Sys2Proof.Machine

/-! ### Frames -/

/-- Nothing outside HENC and the count of draws differs. -/
def hencOnly (s t : State) : Prop :=
  t.caps = s.caps ∧ t.hdec = s.hdec ∧ t.pending = s.pending ∧ t.response = s.response

/-- Nothing outside HDEC and the count of draws differs. -/
def hdecOnly (s t : State) : Prop :=
  t.caps = s.caps ∧ t.henc = s.henc ∧ t.pending = s.pending ∧ t.response = s.response

/-- The state a body ends in, if it ends, meets `P`. -/
def Stage.endsIn (P : State → Prop) : Stage → Prop
  | .done s   => P s
  | .raised s => P s
  | .stuck _  => True

theorem Stage.endsIn_of_result {P : State → Prop} {x : Stage} {t : State} (h : x.endsIn P) (hr : x.result = .next t) :
    P t := by
  rcases Stage.result_eq_next.1 hr with rfl | rfl <;> exact h

theorem Stage.endsIn_andThen {P Q : State → Prop} {x : Stage} {b : State → Stage} (h : x.endsIn P)
    (hd : ∀ s, P s → (b s).endsIn Q) (hr : ∀ s, P s → Q s) : (x.andThen b).endsIn Q := by
  cases x with
  | done s => exact hd s h
  | raised s => exact hr s h
  | stuck f => trivial

theorem hencOnly_trans {s t u : State} (h : hencOnly s t) (h' : hencOnly t u) : hencOnly s u :=
  ⟨h'.1.trans h.1, h'.2.1.trans h.2.1, h'.2.2.1.trans h.2.2.1, h'.2.2.2.trans h.2.2.2⟩

theorem hdecOnly_trans {s t u : State} (h : hdecOnly s t) (h' : hdecOnly t u) : hdecOnly s u :=
  ⟨h'.1.trans h.1, h'.2.1.trans h.2.1, h'.2.2.1.trans h.2.2.1, h'.2.2.2.trans h.2.2.2⟩

theorem analyzeBody_frame (s : State) : (analyzeBody s).endsIn (hencOnly s) := by
  unfold analyzeBody
  split <;> exact ⟨rfl, rfl, rfl, rfl⟩

theorem buildBody_frame (s : State) : (buildBody s).endsIn (hencOnly s) := by
  unfold buildBody
  dsimp only
  split <;> exact ⟨rfl, rfl, rfl, rfl⟩

/-- The two ways BUILD ends (42_tree.md R132, R137). -/
theorem buildBody_cases (s : State) :
    (treeLeaves s.henc.freq = [] ∧ buildBody s = buildFail s) ∨
    (treeLeaves s.henc.freq ≠ [] ∧ ∃ (root : Nat) (t : List LocalNode),
      MergeInv s.henc.freq (treeLeaves s.henc.freq) [root] t ∧
      buildBody s = .done { s with henc := { s.henc with
        root := BitVec.ofNat 9 root, tree := tabulate 255 (storedNode t), phase := .tree } }) := by
  by_cases h : treeLeaves s.henc.freq = []
  · exact .inl ⟨h, by simp [buildBody, h]⟩
  · obtain ⟨root, hr, hi⟩ := mergeLoop_leaves s.henc.freq h
    exact .inr ⟨h, root, _, hi, by simp [buildBody, h, hr]⟩

theorem gencodesBody_frame (s : State) : (gencodesBody s).endsIn (hencOnly s) := by
  unfold gencodesBody
  split
  · trivial
  · exact ⟨rfl, rfl, rfl, rfl⟩

theorem encodeBody_frame (s : State) : (encodeBody s).endsIn (hencOnly s) := by
  unfold encodeBody
  split
  · exact ⟨rfl, rfl, rfl, rfl⟩
  · dsimp only
    split <;> exact ⟨rfl, rfl, rfl, rfl⟩

theorem packBody_frame (s : State) : (packBody s).endsIn (hencOnly s) := ⟨rfl, rfl, rfl, rfl⟩

theorem unpackBody_frame (s : State) : (unpackBody s).endsIn (hdecOnly s) := by
  unfold unpackBody
  dsimp only
  repeat' split
  all_goals exact ⟨rfl, rfl, rfl, rfl⟩

theorem scanBody_frame (s : State) : (scanBody s).endsIn (hdecOnly s) := by
  unfold scanBody
  dsimp only
  split <;> exact ⟨rfl, rfl, rfl, rfl⟩

theorem compressBody_frame (s : State) : (compressBody s).endsIn (hencOnly s) := by
  have next : ∀ {x : Stage} {b : State → Stage}, x.endsIn (hencOnly s) → (∀ t, (b t).endsIn (hencOnly t)) →
      (x.andThen b).endsIn (hencOnly s) := by
    intro x b hx hb
    refine Stage.endsIn_andThen hx (fun t ht => ?_) (fun _ h => h)
    have := hb t
    cases h : b t <;> rw [h] at this
    · exact hencOnly_trans ht this
    · exact hencOnly_trans ht this
    · trivial
  exact next (next (next (next (analyzeBody_frame s) buildBody_frame) gencodesBody_frame) encodeBody_frame)
    packBody_frame

theorem decodeBody_frame (s : State) : (decodeBody s).endsIn (hdecOnly s) := by
  refine Stage.endsIn_andThen (unpackBody_frame s) (fun t ht => ?_) (fun _ h => h)
  have := scanBody_frame t
  cases h : scanBody t <;> rw [h] at this
  · exact hdecOnly_trans ht this
  · exact hdecOnly_trans ht this
  · trivial

/-! ### Ends over written buffers -/

/-- ANALYZE of a written input (41_frequency.md R120). -/
theorem analyzeBody_of_written {s : State} {syms : List Byte} (hcap : s.henc.inLen.toNat ≤ s.caps.inCap.toNat)
    (hlen : syms.length = s.henc.inLen.toNat)
    (h : ∀ i (hi : i < syms.length), s.henc.inBuf.cell? i = some syms[i]) :
    analyzeBody s = .done { s with henc := { s.henc with
      freq := symbolCounts syms, nsym := BitVec.ofNat 9 (distinctSymbols (symbolCounts syms)), phase := .counted } } := by
  rw [analyzeBody, if_neg (by omega), inputSymbols_of_written hlen h]

/-- The count of a symbol (41_frequency.md R120, R121): no count of a sequence of less than 2^32 symbols wraps. -/
theorem symbolCounts_toNat (syms : List Byte) (h : syms.length < 2 ^ 32) (x : Byte) :
    (bySymbol (symbolCounts syms) x).toNat = syms.count x := by
  rw [symbolCounts, bySymbol_tabulate]
  have := List.count_le_length (a := x) (l := syms)
  have hx : BitVec.ofNat 8 x.toNat = x := by simp
  rw [hx, BitVec.toNat_ofNat]
  exact Nat.mod_eq_of_lt (by omega)

/-- ENCODE of a written input whose symbols have codes that fit (44_bitpack.md R161). -/
theorem encodeBody_of_written {s : State} {syms : List Byte} (hcap : s.henc.inLen.toNat ≤ s.caps.inCap.toNat)
    (hlen : syms.length = s.henc.inLen.toNat)
    (h : ∀ i (hi : i < syms.length), s.henc.inBuf.cell? i = some syms[i])
    (hcode : ∀ x ∈ syms, (bySymbol s.henc.codeTab x).len.toNat ≠ 0)
    (hfit : (syms.map fun x => (bySymbol s.henc.codeTab x).len.toNat).sum ≤ s.caps.bitCap) :
    encodeBody s = .done { s with henc := { s.henc with
      bitBuf := s.henc.bitBuf.putRun 0 (syms.map fun x => (bySymbol s.henc.codeTab x).code).flatten
      bitLen := word (syms.map fun x => (bySymbol s.henc.codeTab x).code).flatten.length
      phase := .encoded } } := by
  rw [encodeBody, if_neg (by omega), inputSymbols_of_written hlen h]
  dsimp only
  rw [encodeFrom_ok _ _ _ _ _ hcode (by omega)]

/-- PACK of written bits (44_bitpack.md R166). -/
theorem packBody_of_written {s : State} {bits : Bits} (hlen : bits.length = s.henc.bitLen.toNat)
    (h : ∀ i (hi : i < bits.length), s.henc.bitBuf.cell? i = some bits[i]) :
    packBody s = .done { s with henc := { s.henc with
      outBuf := s.henc.outBuf.putRun 0 (packedBuffer bits), outLen := word (packedBuffer bits).length,
      phase := .packed } } := by
  rw [packBody, encodedBits_of_written hlen h]

/-- SCAN of written bits: what its loop does with them (45_bitunpack.md R180). -/
theorem scanBody_of_written {s : State} {bits : Bits} (hlen : bits.length = s.hdec.dBitLen.toNat)
    (h : ∀ i (hi : i < bits.length), s.hdec.dBits.cell? i = some bits[i]) :
    scanBody s =
      match scanFrom s.hdec.decTab s.caps.symCap.toNat bits 0 [] 0 0 with
      | .error f => scanFail s f
      | .ok out  => .done { s with hdec := { s.hdec with
          symBuf := s.hdec.symBuf.putRun 0 out, symLen := word out.length, phase := .decoded } } := by
  cases hr : scanFrom s.hdec.decTab s.caps.symCap.toNat bits 0 [] 0 0 <;>
    simp only [scanBody, payloadBits_of_written hlen h, hr]

/-- GENCODES of a tree whose children come before their parents ends (43_codes.md R146). -/
theorem gencodesBody_ends {s : State} {m : Nat} (hm : m ≤ 255)
    (hc : ∀ k, (h : k < 255) → k < m →
      s.henc.tree[k].c0.toNat < 256 + k ∧ s.henc.tree[k].c1.toNat < 256 + k)
    (hr : s.henc.root.toNat < 256 + m) :
    ∃ v, rootCodes s.henc.tree s.henc.root = .ok v ∧
      gencodesBody s = .done { s with henc := { s.henc with codeTab := tableOf v, phase := .codes } } := by
  have : ∃ v, rootCodes s.henc.tree s.henc.root = .ok v := by
    unfold rootCodes
    split
    · exact ⟨_, rfl⟩
    · obtain ⟨v, hv, -⟩ := leafCodes_ends s.henc.tree m hm hc 256 s.henc.root [] hr (by omega) (by omega)
      exact ⟨v, hv⟩
  obtain ⟨v, hv⟩ := this
  exact ⟨v, hv, by rw [gencodesBody, hv]⟩

end Sys2Proof.Machine
end

