-- ==== Sys2Proof/Laws/PerInstr.lean ====
section
/-! SUPPORT. Statements made for every command, one lemma for each constructor. -/
namespace Sys2Proof.Laws.Encoding

/-- The word of a command has the format CMD (30_encoding.md R90) and its unit takes it as that command (R92, R94). -/
def Statement (i : Instr) : Prop :=
  i.wf = true ∧ wordFormat (encode i) = true ∧ decode i.unit (encode i) = .ok i

theorem hencNop : Statement .hencNop := ⟨rfl, rfl, rfl⟩
theorem hencClear : Statement .hencClear := ⟨rfl, rfl, rfl⟩
theorem hencTabclr : Statement .hencTabclr := ⟨rfl, rfl, rfl⟩
theorem hencUsetab : Statement .hencUsetab := ⟨rfl, rfl, rfl⟩
theorem hencAnalyze : Statement .hencAnalyze := ⟨rfl, rfl, rfl⟩
theorem hencBuild : Statement .hencBuild := ⟨rfl, rfl, rfl⟩
theorem hencGencodes : Statement .hencGencodes := ⟨rfl, rfl, rfl⟩
theorem hencEncode : Statement .hencEncode := ⟨rfl, rfl, rfl⟩
theorem hencPack : Statement .hencPack := ⟨rfl, rfl, rfl⟩
theorem hencCompress : Statement .hencCompress := ⟨rfl, rfl, rfl⟩
theorem hdecNop : Statement .hdecNop := ⟨rfl, rfl, rfl⟩
theorem hdecClear : Statement .hdecClear := ⟨rfl, rfl, rfl⟩
theorem hdecTabclr : Statement .hdecTabclr := ⟨rfl, rfl, rfl⟩
theorem hdecUnpack : Statement .hdecUnpack := ⟨rfl, rfl, rfl⟩
theorem hdecScan : Statement .hdecScan := ⟨rfl, rfl, rfl⟩
theorem hdecDecode : Statement .hdecDecode := ⟨rfl, rfl, rfl⟩

end Sys2Proof.Laws.Encoding
end

