-- ==== Sys2Proof/Laws/Port.lean ====
section
/-! SUPPORT. What a step of the host port does, by the kind of transaction. -/
namespace Sys2Proof.Machine

/-- A step with an event pending takes it in the state without it. -/
theorem step_event (s : State) (e : Event) (rest : List Event) :
    step { s with pending := e :: rest } = takeEvent e { s with pending := rest } := rfl

/-- A transaction to no space of its unit is refused. -/
theorem transact_of_no_space {t : Transaction} (h : spaceOf t.unit t.space = none) (s : State) :
    transact t s = .next (s.respond refusedResponse) := by
  simp [transact, h]

/-- A read that the space answers. -/
theorem transact_of_read {t : Transaction} {sp : Space} {s r : State} {d : Word} (hs : spaceOf t.unit t.space = some sp)
    (hk : t.kind = .read) (h : readElement s sp t.index.toNat = some (d, r)) :
    transact t s = .next (r.respond ⟨.ok, d⟩) := by
  simp [transact, hs, hk, h]

/-- A read that the space refuses. -/
theorem transact_of_read_none {t : Transaction} {sp : Space} {s : State} (hs : spaceOf t.unit t.space = some sp)
    (hk : t.kind = .read) (h : readElement s sp t.index.toNat = none) :
    transact t s = .next (s.respond refusedResponse) := by
  simp [transact, hs, hk, h]

/-- A write to storage that the space takes. -/
theorem transact_of_write {t : Transaction} {sp : Space} {s r : State} (hs : spaceOf t.unit t.space = some sp)
    (hk : t.kind = .write) (hc : isCmd sp t.index.toNat = false)
    (h : writeElement s sp t.index.toNat t.wdata = some r) : transact t s = .next (r.respond ⟨.ok, 0⟩) := by
  simp [transact, hs, hk, hc, h]

/-- A write that the space refuses. -/
theorem transact_of_write_none {t : Transaction} {sp : Space} {s : State} (hs : spaceOf t.unit t.space = some sp)
    (hk : t.kind = .write) (hc : isCmd sp t.index.toNat = false)
    (h : writeElement s sp t.index.toNat t.wdata = none) : transact t s = .next (s.respond refusedResponse) := by
  simp [transact, hs, hk, hc, h]

/-- A write to CMD runs the command and answers OK. -/
theorem transact_of_command {t : Transaction} {sp : Space} {s : State} (hs : spaceOf t.unit t.space = some sp)
    (hk : t.kind = .write) (hc : isCmd sp t.index.toNat = true) :
    transact t s = thenDo (·.respond ⟨.ok, 0⟩) (command t.unit t.wdata s) := by
  simp [transact, hs, hk, hc]

/-- A read changes nothing but the count of draws. -/
theorem readElement_frame {s r : State} {sp : Space} {i : Nat} {d : Word} (h : readElement s sp i = some (d, r)) :
    r = { s with draws := r.draws } := by
  unfold readElement at h
  split at h
  · cases sp <;> simp [readByteCell, readBitCell, Option.map_eq_some_iff] at h <;>
      (obtain ⟨_, rfl⟩ := h; rfl)
  · simp at h

/-- The six ways a write to storage succeeds (20_memory.md R61, R63). -/
theorem writeElement_cases {s r : State} {sp : Space} {i : Nat} {v : Word} (h : writeElement s sp i v = some r) :
    (sp = .hencReg ∧ i = 6 ∧ r = { s with henc := { s.henc with inLen := v } }) ∨
    (sp = .hdecReg ∧ i = 6 ∧ r = { s with hdec := { s.hdec with payLen := v } }) ∨
    (sp = .inBuf ∧ i < s.caps.inCap.toNat ∧
      r = { s with henc := { s.henc with inBuf := s.henc.inBuf.put i (v.setWidth 8) } }) ∨
    (sp = .payBuf ∧ i < s.caps.payCap.toNat ∧
      r = { s with hdec := { s.hdec with payBuf := s.hdec.payBuf.put i (v.setWidth 8) } }) ∨
    (sp = .codeTab ∧ ∃ t, writeTableElement s.henc.codeTab i v = some t ∧
      r = { s with henc := { s.henc with codeTab := t } }) ∨
    (sp = .decTab ∧ ∃ t, writeTableElement s.hdec.decTab i v = some t ∧
      r = { s with hdec := { s.hdec with decTab := t } }) := by
  unfold writeElement at h
  split at h
  · next hi =>
    cases sp <;> simp [Option.map_eq_some_iff] at h
    · exact .inl ⟨rfl, h.1, h.2.symm⟩
    · exact .inr (.inr (.inl ⟨rfl, hi, h.symm⟩))
    · obtain ⟨t, ht, rfl⟩ := h
      exact .inr (.inr (.inr (.inr (.inl ⟨rfl, t, ht, rfl⟩))))
    · exact .inr (.inl ⟨rfl, h.1, h.2.symm⟩)
    · exact .inr (.inr (.inr (.inl ⟨rfl, hi, h.symm⟩)))
    · obtain ⟨t, ht, rfl⟩ := h
      exact .inr (.inr (.inr (.inr (.inr ⟨rfl, t, ht, rfl⟩))))
  · simp at h

end Sys2Proof.Machine
end

