-- ==== Sys2Proof/Tests/Slice0.lean ====
section
/-! SUPPORT. Small tests of the model with expected values from the encodings of spec/30_encoding.md and the vectors of
spec/95_test_vectors.md, and for each statement with hypotheses a witness that meets them. -/
namespace Sys2Proof.Tests

open Sys2Proof Sys2Proof.Machine

-- One theorem after another: each waits for the kernel, and the compiler gives every waiting theorem a thread of its own.
set_option Elab.async false

/-! ### Helpers -/

/-- A buffer with the values `vs` written from cell 0 up. -/
def cells {α : Type} (vs : List α) : Memory α := Memory.putRun [] 0 vs

/-- A table with the entries of a short list. -/
def tableWith (l : List (Nat × Entry)) : Vector Entry 256 :=
  tabulate 256 (fun k => match l.find? (fun p => p.1 == k) with | some p => p.2 | none => ⟨0, 0⟩)

/-- Table T1 of 95_test_vectors.md 2.5: a = "1", b = "0". -/
def t1 : Vector Entry 256 := tableWith [(0x61, ⟨1, 1⟩), (0x62, ⟨1, 0⟩)]

/-- Table T4 of 95_test_vectors.md 2.8: a = "0" only. -/
def t4 : Vector Entry 256 := tableWith [(0x61, ⟨1, 0⟩)]

/-- HENC in a phase with an input loaded and a table. -/
def encoder (c : Capacities) (p : HencPhase) (input : List Byte) (tab : Vector Entry 256) : State :=
  { State.resetWith c with
    henc := { Henc.reset with phase := p, inLen := word input.length, inBuf := cells input, codeTab := tab } }

/-- HENC in a phase with counts in FREQ. -/
def counter (p : HencPhase) (counts : List (Nat × Word)) : State :=
  { State.reset with
    henc := { Henc.reset with
      phase := p
      freq := tabulate 256 (fun k => match counts.find? (fun q => q.1 == k) with | some q => q.2 | none => 0)
      nsym := BitVec.ofNat 9 counts.length } }

/-- HENC in phase TREE with counts in FREQ and a tree. -/
def grown (counts : List (Nat × Word)) (nodes : List TreeNode) (root : NodeId) : State :=
  let s := counter .tree counts
  { s with henc := { s.henc with tree := tabulate 255 (fun k => nodes.getD k ⟨0, 0, 0⟩), root := root } }

/-- HENC in phase ENCODED with a bit sequence. -/
def encodedAs (bits : Bits) : State :=
  { State.reset with henc := { Henc.reset with phase := .encoded, bitBuf := cells bits, bitLen := word bits.length } }

/-- HDEC in IDLE with a packed buffer loaded and a table. -/
def decoder (c : Capacities) (pay : List Byte) (tab : Vector Entry 256) : State :=
  { State.resetWith c with
    hdec := { Hdec.reset with payLen := word pay.length, payBuf := cells pay, decTab := tab } }

/-- HDEC in phase UNPACKED with a bit sequence and a table. -/
def unpackedAs (c : Capacities) (bits : Bits) (tab : Vector Entry 256) : State :=
  { State.resetWith c with
    hdec := { Hdec.reset with phase := .unpacked, dBits := cells bits, dBitLen := word bits.length, decTab := tab } }

/-- A unit in FAULT with given error registers. -/
def hencFault (e : ErrRegs) : State := { State.reset with henc := { Henc.reset with phase := .fault, err := e } }
def hdecFault (e : ErrRegs) : State := { State.reset with hdec := { Hdec.reset with phase := .fault, err := e } }

/-- The result is a next state of which `p` holds. -/
def after (r : Result) (p : State → Bool) : Bool :=
  match r with
  | .next t    => p t
  | .fault _   => false
  | .refused _ => false

theorem exists_next {r : Result} {p : State → Bool} (h : after r p = true) : ∃ t, r = .next t ∧ p t = true := by
  cases r with
  | next t => exact ⟨t, rfl, h⟩
  | fault _ => cases h
  | refused _ => cases h

/-- STATUS and the error registers of a unit are these. -/
def endsAs (s : State) (u : UnitId) (status : Word) (e : ErrRegs) : Bool := s.status u == status && s.errRegs u == e

/-- The bit sequence written as 0s and 1s. -/
def bitsOf (l : List Nat) : Bits := l.map (· == 1)

/-! ### WellFormed: each check refuses an ill-formed term -/

theorem test_wf_reference : Config.reference.wf = true := by decide
theorem test_wf_outCap_zero : Capacities.wf ⟨4096, 0, 4097, 32768⟩ = false := by decide
theorem test_wf_outCap_large : Capacities.wf ⟨4096, 0x20000001, 4097, 32768⟩ = false := by decide
theorem test_wf_payCap_zero : Capacities.wf ⟨4096, 4097, 0, 32768⟩ = false := by decide
theorem test_wf_payCap_large : Capacities.wf ⟨4096, 4097, 0x20000001, 32768⟩ = false := by decide
theorem test_wf_bounds : Capacities.wf ⟨0, 1, 0x20000000, 0⟩ = true := by decide
theorem test_wordFormat_high_bits : wordFormat 0x00000110 = false := by decide
theorem test_wordFormat_top_bit : wordFormat 0x80000010 = false := by decide

/-! ### Decoding: words written out from 30_encoding.md R92 (opcode in bits 7:0, zeros in 31:8) -/

theorem test_decode_nop : decode .henc 0x00000000 = .ok .hencNop ∧ decode .hdec 0x00000000 = .ok .hdecNop := by decide
theorem test_decode_clear :
    decode .henc 0x00000001 = .ok .hencClear ∧ decode .hdec 0x00000001 = .ok .hdecClear := by decide
theorem test_decode_tabclr :
    decode .henc 0x00000002 = .ok .hencTabclr ∧ decode .hdec 0x00000002 = .ok .hdecTabclr := by decide
theorem test_decode_usetab : decode .henc 0x00000003 = .ok .hencUsetab := by decide
theorem test_decode_analyze : decode .henc 0x00000010 = .ok .hencAnalyze := by decide
theorem test_decode_build : decode .henc 0x00000011 = .ok .hencBuild := by decide
theorem test_decode_gencodes : decode .henc 0x00000012 = .ok .hencGencodes := by decide
theorem test_decode_encode : decode .henc 0x00000013 = .ok .hencEncode := by decide
theorem test_decode_pack : decode .henc 0x00000014 = .ok .hencPack := by decide
theorem test_decode_compress : decode .henc 0x0000001F = .ok .hencCompress := by decide
theorem test_decode_unpack : decode .hdec 0x00000020 = .ok .hdecUnpack := by decide
theorem test_decode_scan : decode .hdec 0x00000021 = .ok .hdecScan := by decide
theorem test_decode_decode : decode .hdec 0x0000002F = .ok .hdecDecode := by decide

/-- 30_encoding.md R92, R93: USETAB is no command of HDEC, UNPACK none of HENC, 0x15 none at all, 0x110 no opcode word. -/
theorem test_decode_illegal :
    decode .hdec 0x00000003 = .error .opcode ∧ decode .henc 0x00000020 = .error .opcode ∧
    decode .henc 0x00000015 = .error .opcode ∧ decode .henc 0x00000110 = .error .zeroField := by decide

/-- A bare table word goes to the unit that has its opcode (log 1), and the next step runs it there. -/
theorem test_tableWord :
    decodeTableWord 32 0x21 = some .hdecScan ∧ decodeTableWord 32 0x10 = some .hencAnalyze ∧
    decodeTableWord 32 0x15 = none := by decide
theorem test_withFetchWord : step (State.reset.withFetchWord 32 0x03) =
    .next { State.reset with henc := { Henc.reset with phase := .codes }, response := some ⟨.ok, 0⟩ } := rfl

/-! ### The control commands (95_test_vectors.md 2.9) -/

theorem test_nop : exec .hencNop (hencFault ⟨4, 0x14, 3⟩) = .next (hencFault ⟨4, 0x14, 3⟩) := rfl
theorem test_nop_hdec : exec .hdecNop (hdecFault ⟨3, 1, 8⟩) = .next (hdecFault ⟨3, 1, 8⟩) := rfl
theorem test_clear : after (exec .hencClear (hencFault ⟨4, 0x14, 3⟩)) (endsAs · .henc 0 ⟨0, 0, 0⟩) = true := by decide
theorem test_clear_hdec : after (exec .hdecClear (hdecFault ⟨3, 1, 8⟩)) (endsAs · .hdec 0 ⟨0, 0, 0⟩) = true := by decide
theorem test_tabclr : after (exec .hencTabclr (encoder Config.reference .codes [] t1)) (fun t =>
    endsAs t .henc 0 ⟨0, 0, 0⟩ && bySymbol t.henc.codeTab 0x61 == ⟨0, 0⟩) = true := by decide +kernel
theorem test_tabclr_hdec : after (exec .hdecTabclr (unpackedAs Config.reference [] t1)) (fun t =>
    endsAs t .hdec 1 ⟨0, 0, 0⟩ && bySymbol t.hdec.decTab 0x61 == ⟨0, 0⟩) = true := by decide +kernel
theorem test_usetab : after (exec .hencUsetab (encoder Config.reference .packed [] t1)) (endsAs · .henc 3 ⟨0, 0, 0⟩) = true := by
  decide +kernel
theorem test_illegal_word : after (command .henc 0x110 State.reset) (endsAs · .henc 15 ⟨4, 0x110, 0⟩) = true := by decide

/-! ### ANALYZE (95_test_vectors.md V1, 2.2) -/

theorem test_analyze : after (exec .hencAnalyze (encoder Config.reference .idle
    [0x61, 0x61, 0x61, 0x61, 0x61, 0x61, 0x61, 0x61, 0x62] emptyTable)) (fun t =>
    endsAs t .henc 1 ⟨0, 0, 0⟩ && t.henc.nsym == 2 && bySymbol t.henc.freq 0x61 == 8 &&
      bySymbol t.henc.freq 0x62 == 1 && bySymbol t.henc.freq 0x63 == 0) = true := by decide +kernel
theorem test_analyze_capacity : after (exec .hencAnalyze (encoder ⟨4, 2, 2, 2⟩ .idle
    [0x61, 0x61, 0x61, 0x61, 0x61] emptyTable)) (endsAs · .henc 15 ⟨5, 1, 5⟩) = true := by decide +kernel

/-! ### BUILD (95_test_vectors.md V3, 2.3) -/

/-- The counts of "abracadabra". -/
def abraCounts : List (Nat × Word) := [(0x61, 5), (0x62, 2), (0x63, 1), (0x64, 1), (0x72, 2)]

/-- The tree of "abracadabra". -/
def abraNodes : List TreeNode := [⟨2, 0x63, 0x64⟩, ⟨4, 0x62, 0x72⟩, ⟨6, 256, 257⟩, ⟨11, 0x61, 258⟩]

theorem test_build : after (exec .hencBuild (counter .counted abraCounts)) (fun t =>
    endsAs t .henc 2 ⟨0, 0, 0⟩ && t.henc.root == 259 && t.henc.tree.toList.take 5 == abraNodes ++ [⟨0, 0, 0⟩]) = true := by
  decide +kernel
/-- The error of 95_test_vectors.md 2.3, over an earlier tree, which is left zero (90_conflicts.md C2; log 19). -/
theorem test_build_empty :
    let old := (grown [] [⟨3, 0x62, 0x61⟩] 256).henc
    after (exec .hencBuild { State.reset with henc := { old with phase := .counted } }) (fun t =>
      endsAs t .henc 15 ⟨1, 0, 0⟩ && t.henc.root == 0 && t.henc.tree.toList.take 1 == [⟨0, 0, 0⟩]) = true := by
  decide +kernel

/-! ### GENCODES (95_test_vectors.md 2.4) -/

theorem test_gencodes : after (exec .hencGencodes (grown abraCounts abraNodes 259)) (fun t =>
    endsAs t .henc 3 ⟨0, 0, 0⟩ && bySymbol t.henc.codeTab 0x61 == ⟨1, 0⟩ && bySymbol t.henc.codeTab 0x62 == ⟨3, 6⟩ &&
      bySymbol t.henc.codeTab 0x63 == ⟨3, 4⟩ && bySymbol t.henc.codeTab 0x64 == ⟨3, 5⟩ &&
      bySymbol t.henc.codeTab 0x72 == ⟨3, 7⟩ && bySymbol t.henc.codeTab 0x65 == ⟨0, 0⟩) = true := by decide +kernel
theorem test_gencodes_leaf : after (exec .hencGencodes (grown [(0x61, 4)] [] 0x61)) (fun t =>
    endsAs t .henc 3 ⟨0, 0, 0⟩ && bySymbol t.henc.codeTab 0x61 == ⟨1, 0⟩ && bySymbol t.henc.codeTab 0x62 == ⟨0, 0⟩) = true := by
  decide +kernel

/-! ### Table entries (95_test_vectors.md 2.4) -/

theorem test_entry : entryOf (bitsOf [1, 1, 0]) = ⟨3, 6⟩ ∧ (Entry.mk 3 0xFFFFFFFE).code = bitsOf [1, 1, 0] := by decide
theorem test_invLookup : invLookup t1 [true] = some 0x61 ∧ invLookup t1 [true, true] = none := by decide +kernel

/-! ### ENCODE and PACK (95_test_vectors.md 2.5, 2.6) -/

theorem test_encode : after (exec .hencEncode (encoder Config.reference .codes
    [0x61, 0x61, 0x61, 0x61, 0x61, 0x61, 0x61, 0x61, 0x62] t1)) (fun t =>
    endsAs t .henc 4 ⟨0, 0, 0⟩ && t.henc.bitLen == 9 && t.henc.bitBuf == cells (bitsOf [1, 1, 1, 1, 1, 1, 1, 1, 0])) = true := by
  decide +kernel
theorem test_encode_unknown : after (exec .hencEncode (encoder Config.reference .codes [0x61, 0x62, 0x63] t1)) (fun t =>
    endsAs t .henc 15 ⟨2, 0x63, 2⟩ && t.henc.bitLen == 0 && t.henc.bitBuf == []) = true := by decide +kernel
theorem test_pack : after (exec .hencPack (encodedAs (bitsOf [1, 1, 1, 1, 1, 1, 1, 1, 0]))) (fun t =>
    endsAs t .henc 5 ⟨0, 0, 0⟩ && t.henc.outLen == 3 && t.henc.outBuf == cells [0x07, 0xFF, 0x00]) = true := by
  decide +kernel
theorem test_pack_msb_first : after (exec .hencPack (encodedAs (bitsOf [1, 0, 1]))) (fun t =>
    t.henc.outLen == 2 && t.henc.outBuf == cells [0x05, 0xA0]) = true := by decide +kernel

/-! ### UNPACK and SCAN (95_test_vectors.md 2.7, 2.8) -/

theorem test_unpack : after (exec .hdecUnpack (decoder Config.reference [0x00, 0x1B] t1)) (fun t =>
    endsAs t .hdec 1 ⟨0, 0, 0⟩ && t.hdec.dBitLen == 8 && t.hdec.dBits == cells (bitsOf [0, 0, 0, 1, 1, 0, 1, 1])) = true := by
  decide +kernel
theorem test_unpack_padding_first : after (exec .hdecUnpack (decoder Config.reference [0x09] t1))
    (endsAs · .hdec 15 ⟨3, 1, 9⟩) = true := by decide +kernel
theorem test_scan : after (exec .hdecScan (unpackedAs Config.reference (bitsOf [0, 1, 1])
    (tableWith [(0x61, ⟨1, 0⟩), (0x62, ⟨2, 1⟩), (0x63, ⟨1, 1⟩)]))) (fun t =>
    endsAs t .hdec 2 ⟨0, 0, 0⟩ && t.hdec.symLen == 3 && t.hdec.symBuf == cells [0x61, 0x63, 0x63]) = true := by
  decide +kernel
theorem test_scan_full : after (exec .hdecScan (unpackedAs ⟨4, 2, 2, 2⟩ (bitsOf [0, 0, 0, 0]) t4)) (fun t =>
    endsAs t .hdec 15 ⟨5, 6, 2⟩ && t.hdec.symLen == 0 && t.hdec.symBuf == []) = true := by decide +kernel

/-! ### COMPRESS and DECODE (95_test_vectors.md V12, 2.5, 2.8) -/

theorem test_compress : after (exec .hencCompress (encoder Config.reference .idle [0x61, 0x62, 0x63] emptyTable)) (fun t =>
    endsAs t .henc 5 ⟨0, 0, 0⟩ && t.henc.root == 257 && t.henc.bitLen == 5 && t.henc.outBuf == cells [0x03, 0xB0]) = true := by
  decide +kernel
theorem test_compress_no_room : after (exec .hencCompress (encoder ⟨4, 1, 2, 2⟩ .idle [0x61] emptyTable)) (fun t =>
    endsAs t .henc 15 ⟨5, 5, 0⟩ && t.henc.nsym == 1 && t.henc.root == 0x61) = true := by decide +kernel
theorem test_decode_cmd : after (exec .hdecDecode (decoder Config.reference [0x04, 0x80] t4)) (fun t =>
    endsAs t .hdec 15 ⟨3, 2, 0⟩) = true := by decide +kernel
theorem test_decode_cmd_ok : after (exec .hdecDecode (decoder Config.reference [0x04, 0x00] t4)) (fun t =>
    endsAs t .hdec 2 ⟨0, 0, 0⟩ && t.hdec.symLen == 4 && t.hdec.symBuf == cells [0x61, 0x61, 0x61, 0x61]) = true := by
  decide +kernel

/-! ### The host port (95_test_vectors.md 2.10) -/

/-- A write of 0x1FF to IN_BUF[0] keeps its low byte; of 0x103 to LEN of entry 0x61 its low byte. -/
theorem test_port_writes :
    after (transact ⟨.henc, 1, 0, .write, 0x1FF⟩ State.reset) (fun t =>
      t.henc.inBuf == cells [0xFF] && t.response == some ⟨.ok, 0⟩) = true ∧
    after (transact ⟨.henc, 4, 1552, .write, 0x103⟩ State.reset) (fun t =>
      bySymbol t.henc.codeTab 0x61 == ⟨3, 0⟩ && t.response == some ⟨.ok, 0⟩) = true := by decide +kernel

/-- A write to STATUS, a cell past IN_BUF, word 9 of an entry and a space HDEC does not have are refused. -/
theorem test_port_refusals :
    after (transact ⟨.henc, 0, 2, .write, 5⟩ State.reset) (·.response == some ⟨.err, 0⟩) = true ∧
    after (transact ⟨.henc, 1, 4096, .write, 0⟩ State.reset) (·.response == some ⟨.err, 0⟩) = true ∧
    after (transact ⟨.henc, 4, 1561, .read, 0⟩ State.reset) (·.response == some ⟨.err, 0⟩) = true ∧
    after (transact ⟨.hdec, 2, 0, .read, 0⟩ State.reset) (·.response == some ⟨.err, 0⟩) = true := by decide +kernel

/-- TREE word 1 of "aaaaaaaab" reads 0x00610062 (V1). -/
theorem test_port_tree : after (transact ⟨.henc, 3, 1, .read, 0⟩ (grown [(0x61, 8), (0x62, 1)] [⟨9, 0x62, 0x61⟩] 256))
    (·.response == some ⟨.ok, 0x00610062⟩) = true := by decide +kernel

/-! ### States that meet the invariant -/

theorem hdecReset_inv : HdecInv Config.reference Hdec.reset where
  err := ⟨by decide, by decide, by decide⟩
  payBuf := ⟨by decide, by decide⟩
  dBits := ⟨by decide, by decide⟩
  symBuf := ⟨by decide, by decide⟩
  dBitLen := by decide
  symLen := by decide
  bits := by decide
  syms := by decide

/-- A counted table of two symbols, a twice and b once. -/
def counted2 : State := counter .counted [(0x61, 2), (0x62, 1)]

/-- A counted table of one symbol. -/
def counted1 : State := counter .counted [(0x61, 4)]

/-- The table of an empty input. -/
def counted0 : State := counter .counted []

/-- The table of two symbols with its tree. -/
def tree2 : State := grown [(0x61, 2), (0x62, 1)] [⟨3, 0x62, 0x61⟩] 256

/-- The table of one symbol with its tree, a leaf. -/
def tree1 : State := grown [(0x61, 4)] [] 0x61

theorem counter_leaf {p : HencPhase} {counts : List (Nat × Word)} {id : NodeId}
    (h : isTreeLeaf (counter p counts).henc.freq id) : ∃ q ∈ counts, q.1 = id.toNat := by
  obtain ⟨hlt, h⟩ := h
  cases hf : counts.find? (fun q => q.1 == id.toNat) with
  | none =>
    rw [Vector.getElem?_eq_getElem hlt] at h
    simp [counter, hf] at h
  | some q => exact ⟨q, List.mem_of_find?_eq_some hf, by simpa using List.find?_some hf⟩

theorem counted2_inv : Inv counted2 where
  caps := by decide
  hdec := hdecReset_inv
  henc := {
    err := ⟨by decide, by decide, by decide⟩
    inBuf := ⟨by decide, by decide⟩
    bitBuf := ⟨by decide, by decide⟩
    outBuf := ⟨by decide, by decide⟩
    freqSum := by decide +kernel
    nsym := by decide +kernel
    bitLen := by decide
    outLen := by decide
    tree := nofun
    bits := by decide
    out := by decide }

theorem counted1_inv : Inv counted1 where
  caps := by decide
  hdec := hdecReset_inv
  henc := {
    err := ⟨by decide, by decide, by decide⟩
    inBuf := ⟨by decide, by decide⟩
    bitBuf := ⟨by decide, by decide⟩
    outBuf := ⟨by decide, by decide⟩
    freqSum := by decide +kernel
    nsym := by decide +kernel
    bitLen := by decide
    outLen := by decide
    tree := nofun
    bits := by decide
    out := by decide }

theorem counted0_inv : Inv counted0 where
  caps := by decide
  hdec := hdecReset_inv
  henc := {
    err := ⟨by decide, by decide, by decide⟩
    inBuf := ⟨by decide, by decide⟩
    bitBuf := ⟨by decide, by decide⟩
    outBuf := ⟨by decide, by decide⟩
    freqSum := by decide +kernel
    nsym := by decide +kernel
    bitLen := by decide
    outLen := by decide
    tree := nofun
    bits := by decide
    out := by decide }

theorem tree2_treeInv : TreeInv tree2.henc.freq tree2.henc.tree tree2.henc.root 2 where
  present := by decide
  rootLeaf := nofun
  rootInternal := by decide +kernel
  weight := by decide +kernel
  firstChild := by decide +kernel
  secondChild := by decide +kernel
  ordered := by decide +kernel
  parent id h hne := by
    rcases h with h | ⟨h1, h2⟩
    · obtain ⟨q, hq, hid⟩ := counter_leaf (p := .tree) h
      simp only [List.mem_cons, List.not_mem_nil, or_false] at hq
      rcases hq with rfl | rfl
      · obtain rfl : id = 0x61 := BitVec.eq_of_toNat_eq hid.symm
        decide +kernel
      · obtain rfl : id = 0x62 := BitVec.eq_of_toNat_eq hid.symm
        decide +kernel
    · exact absurd (BitVec.eq_of_toNat_eq (show id.toNat = 256 by omega)) hne
  unused k h hk := by
    obtain ⟨j, rfl⟩ := Nat.exists_eq_succ_of_ne_zero (show k ≠ 0 by omega)
    simp [tree2, grown]

theorem tree1_treeInv : TreeInv tree1.henc.freq tree1.henc.tree tree1.henc.root 1 where
  present := by decide
  rootLeaf := by decide +kernel
  rootInternal := nofun
  weight k _ hk := absurd hk (Nat.not_lt_zero k)
  firstChild k _ hk := absurd hk (Nat.not_lt_zero k)
  secondChild k _ hk := absurd hk (Nat.not_lt_zero k)
  ordered k _ hk := absurd hk (Nat.not_lt_zero k)
  parent id h hne := by
    rcases h with h | ⟨h1, h2⟩
    · obtain ⟨q, hq, hid⟩ := counter_leaf (p := .tree) (counts := [(0x61, 4)]) h
      simp only [List.mem_cons, List.not_mem_nil, or_false] at hq
      subst hq
      exact absurd (BitVec.eq_of_toNat_eq hid.symm) hne
    · omega
  unused k h hk := by simp [tree1, grown]

theorem tree2_inv : Inv tree2 where
  caps := by decide
  hdec := hdecReset_inv
  henc := {
    err := ⟨by decide, by decide, by decide⟩
    inBuf := ⟨by decide, by decide⟩
    bitBuf := ⟨by decide, by decide⟩
    outBuf := ⟨by decide, by decide⟩
    freqSum := by decide +kernel
    nsym := by decide +kernel
    bitLen := by decide
    outLen := by decide
    tree := fun _ => tree2_treeInv
    bits := by decide
    out := by decide }

theorem tree1_inv : Inv tree1 where
  caps := by decide
  hdec := hdecReset_inv
  henc := {
    err := ⟨by decide, by decide, by decide⟩
    inBuf := ⟨by decide, by decide⟩
    bitBuf := ⟨by decide, by decide⟩
    outBuf := ⟨by decide, by decide⟩
    freqSum := by decide +kernel
    nsym := by decide +kernel
    bitLen := by decide
    outLen := by decide
    tree := fun _ => tree1_treeInv
    bits := by decide
    out := by decide }

/-! ### Witnesses: concrete states and operands that meet the hypotheses of each statement, clause by clause -/

theorem witness_StepRunsTheWrittenCommand : decode .henc 0x13 = .ok .hencEncode ∧ decode .hdec 0x21 = .ok .hdecScan := by
  decide

theorem witness_IllegalWordRaisesUnlessInFault :
    (∀ i, decode .henc 0x110 ≠ .ok i) ∧ (∀ i, decode .hdec 3 ≠ .ok i) ∧ inFault (hencFault ⟨4, 0x14, 3⟩) .henc ∧
    ¬ inFault State.reset .henc ∧ ¬ inFault State.reset .hdec := by
  refine ⟨fun i h => ?_, fun i h => ?_, rfl, nofun, nofun⟩
  · rw [show decode .henc 0x110 = .error .zeroField by decide] at h; cases h
  · rw [show decode .hdec 3 = .error .opcode by decide] at h; cases h

theorem witness_StepWithoutEventsChangesNothing : State.reset.pending = [] := rfl

theorem witness_HencTabclrEmptiesCodeTab : (encoder Config.reference .codes [] t1).henc.phase ≠ .fault := nofun
theorem witness_HdecTabclrEmptiesDecTab : (unpackedAs Config.reference [] t1).hdec.phase ≠ .fault := nofun
theorem witness_UsetabPutsTheTableInForce : (encoder Config.reference .idle [] t1).henc.phase ≠ .fault := nofun

theorem witness_FaultIgnoresEveryCommandButClear :
    inFault (hencFault ⟨4, 0x14, 3⟩) Instr.hencCompress.unit ∧ Instr.hencCompress ≠ .hencClear ∧
    Instr.hencCompress ≠ .hdecClear ∧ inFault (hdecFault ⟨3, 1, 8⟩) Instr.hdecScan.unit := ⟨rfl, nofun, nofun, rfl⟩

theorem witness_CommandsFollowThePhaseTable :
    (inFault (hencFault ⟨4, 0x14, 3⟩) Instr.hencPack.unit ∧ Instr.hencPack ≠ .hencClear ∧ Instr.hencPack ≠ .hdecClear) ∧
    (¬ inFault State.reset .henc ∧ State.reset.phaseCode .henc ∉ runsIn .hencBuild) ∧
    (¬ inFault State.reset .hdec ∧ State.reset.phaseCode .hdec ∉ runsIn .hdecScan) ∧
    State.reset.phaseCode .henc ∈ runsIn .hencUsetab ∧ ∃ t, exec .hencUsetab State.reset = .next t :=
  ⟨⟨rfl, nofun, nofun⟩, ⟨nofun, by decide⟩, ⟨nofun, by decide⟩, by decide, _, rfl⟩

theorem witness_StatusIsTheViewOfPhaseAndError : Inv counted2 := counted2_inv

/-- IN_LEN at IN_CAP, and one above it. -/
theorem witness_AnalyzeCountsTheInput :
    ((encoder ⟨2, 2, 2, 2⟩ .idle [1, 2] t1).henc.phase ≠ .fault ∧
      (encoder ⟨2, 2, 2, 2⟩ .idle [1, 2] t1).henc.inLen.toNat ≤ (encoder ⟨2, 2, 2, 2⟩ .idle [1, 2] t1).caps.inCap.toNat) ∧
    (encoder ⟨2, 2, 2, 2⟩ .idle [1, 2, 3] t1).caps.inCap.toNat < (encoder ⟨2, 2, 2, 2⟩ .idle [1, 2, 3] t1).henc.inLen.toNat :=
  ⟨⟨nofun, by decide⟩, by decide⟩

theorem witness_AnalyzeCountsSumToInputLength :
    (∃ t, exec .hencAnalyze (encoder Config.reference .idle [1, 2, 1] t1) = .next t ∧ (t.henc.phase == .counted) = true) ∧
    (encoder Config.reference .idle [1, 2, 1] t1).henc.phase ≠ .fault ∧
    holds (encoder Config.reference .idle [1, 2, 1] t1).henc.inBuf [1, 2, 1] ∧
    [1, 2, 1].length = (encoder Config.reference .idle [1, 2, 1] t1).henc.inLen.toNat :=
  ⟨exists_next (by decide +kernel), nofun, by decide, by decide⟩

/-- Two symbols present, one, and none. -/
theorem witness_BuildMergesTheTwoLeastNodes :
    (Inv counted2 ∧ counted2.henc.phase = .counted ∧ 2 ≤ presentSymbols counted2.henc.freq) ∧
    (Inv counted1 ∧ counted1.henc.phase = .counted ∧ presentSymbols counted1.henc.freq = 1) ∧
    (Inv counted0 ∧ counted0.henc.phase = .counted ∧ presentSymbols counted0.henc.freq = 0) :=
  ⟨⟨counted2_inv, rfl, by decide +kernel⟩, ⟨counted1_inv, rfl, by decide +kernel⟩, counted0_inv, rfl, by decide +kernel⟩

theorem witness_BuildFailsOnlyOnAnEmptyTable :
    (∀ k, (h : k < 256) → (encoder Config.reference .counted [] t1).henc.freq[k] = 0) ∧
    counted2.henc.freq[0x61] ≠ 0 := ⟨fun k h => by simp [encoder, Henc.reset], by decide +kernel⟩

theorem witness_BuildOfOneSymbolIsALeaf : counted1.henc.phase = .counted ∧
    ∀ k, (h : k < 256) → (0 < counted1.henc.freq[k].toNat ↔ k = (0x61 : Byte).toNat) := by
  refine ⟨rfl, fun k h => ?_⟩
  by_cases hk : k = 0x61
  · subst hk
    simp [counted1, counter]
  · have he : (0x61 == k) = false := by simpa using Ne.symm hk
    simp [counted1, counter, List.find?, he, hk]

theorem witness_BuiltTreeIsAStrictBinaryTree : Inv counted2 ∧ counted2.henc.phase = .counted ∧
    1 ≤ presentSymbols counted2.henc.freq ∧ ∃ t, exec .hencBuild counted2 = .next t ∧ (fun _ => true) t = true :=
  ⟨counted2_inv, rfl, by decide +kernel, exists_next (by decide +kernel)⟩

/-- Two states with one FREQ and different inputs. -/
theorem witness_BuildDependsOnFreqAlone :
    counted2.henc.phase = .counted ∧ counted2.henc.freq = { counted2.henc with inLen := 9 }.freq ∧
    (∃ t, exec .hencBuild counted2 = .next t ∧ (t.henc.phase == .tree) = true) ∧
    ∃ u, exec .hencBuild { counted2 with henc := { counted2.henc with inLen := 9 } } = .next u ∧
      (u.henc.phase == .tree) = true :=
  ⟨rfl, rfl, exists_next (by decide +kernel), exists_next (by decide +kernel)⟩

/-- An internal ROOT, and one that is a leaf. -/
theorem witness_GencodesRecordsTheTreePaths :
    (Inv tree2 ∧ tree2.henc.phase = .tree ∧ 256 ≤ tree2.henc.root.toNat) ∧
    (Inv tree1 ∧ tree1.henc.phase = .tree ∧ tree1.henc.root.toNat < 256) :=
  ⟨⟨tree2_inv, rfl, by decide⟩, tree1_inv, rfl, by decide⟩

theorem witness_GencodesOfALeafRootIsOneZeroBit : tree1.henc.phase = .tree ∧ tree1.henc.root.toNat < 256 :=
  ⟨rfl, by decide⟩

/-- The children of node 256 are the sibling leaves b and a. -/
theorem witness_GeneratedTableIsACompletePrefixCode : Inv tree2 ∧ tree2.henc.phase = .tree ∧
    (∃ t, exec .hencGencodes tree2 = .next t ∧
      (codeLen t.henc.codeTab 0x61 == 1 && codeLen t.henc.codeTab 0x62 == 1) = true) ∧
    2 ≤ presentSymbols tree2.henc.freq ∧ tree2.henc.tree[0].c0 = (0x62 : Byte).setWidth 9 ∧
    tree2.henc.tree[0].c1 = (0x61 : Byte).setWidth 9 :=
  ⟨tree2_inv, rfl, exists_next (by decide +kernel), by decide +kernel, by decide +kernel, by decide +kernel⟩

/-- A code whose two ends differ: first bit at bit LEN - 1, in both directions (30_encoding.md R96, by hand: "100" is 4). -/
theorem test_entry_order : entryOf (bitsOf [1, 0, 0]) = ⟨3, 4⟩ ∧ (Entry.mk 3 4).code = bitsOf [1, 0, 0] := by decide

/-- The longest bitstring, the shortest, bit 0 of a code of one bit, and two entries that differ above LEN. -/
theorem witness_EntryHoldsItsBitstring :
    0 < (Entry.mk 1 3).len.toNat ∧
    (1 ≤ (List.replicate 255 true).length ∧ (List.replicate 255 true).length ≤ 255) ∧ 1 ≤ [true].length ∧
    (∀ i, i < (Entry.mk 1 3).len.toNat → (Entry.mk 1 3).bits.getLsbD i = (Entry.mk 1 1).bits.getLsbD i) := by decide +kernel

theorem witness_InvLookupIsTheLeastMatchingSymbol : 1 ≤ [true].length ∧
    (codeLen t1 0x61 = [true].length ∧ codeOf t1 0x61 = [true]) := by decide +kernel

theorem witness_EncodeWritesTheConcatenatedCodes :
    (encoder ⟨2, 2, 2, 2⟩ .codes [0x61, 0x62] t1).henc.inLen.toNat ≤ (encoder ⟨2, 2, 2, 2⟩ .codes [0x61, 0x62] t1).caps.inCap.toNat ∧
    [0x61, 0x62].length = (encoder ⟨2, 2, 2, 2⟩ .codes [0x61, 0x62] t1).henc.inLen.toNat ∧
    holds (encoder ⟨2, 2, 2, 2⟩ .codes [0x61, 0x62] t1).henc.inBuf [0x61, 0x62] ∧
    (∀ x ∈ ([0x61, 0x62] : List Byte), codeLen t1 x ≠ 0) ∧
    codedLength t1 [0x61, 0x62] ≤ (encoder ⟨2, 2, 2, 2⟩ .codes [0x61, 0x62] t1).caps.bitCap :=
  ⟨by decide, by decide, by decide, by decide +kernel, by decide +kernel⟩

/-- IN_LEN above IN_CAP; an input that is read as it was written, with a symbol without a code at index 1, and, with BIT_CAP
0, with a code that does not fit at index 0. -/
theorem witness_EncodeEndsAsTheSymbolsItReads :
    (encoder ⟨1, 2, 2, 2⟩ .codes [0x61, 0x62] t1).caps.inCap.toNat < (encoder ⟨1, 2, 2, 2⟩ .codes [0x61, 0x62] t1).henc.inLen.toNat ∧
    (encoder ⟨2, 1, 2, 2⟩ .codes [0x61, 0x63] t1).henc.inLen.toNat ≤ (encoder ⟨2, 1, 2, 2⟩ .codes [0x61, 0x63] t1).caps.inCap.toNat ∧
    readsAs (encoder ⟨2, 1, 2, 2⟩ .codes [0x61, 0x63] t1).henc.inBuf 2 [0x61, 0x63] ∧
    (([0x61, 0x63] : List Byte)[1]? = some 0x63 ∧ (∀ y ∈ ([0x61, 0x63] : List Byte).take 1, codeLen t1 y ≠ 0) ∧
      codedLength t1 (([0x61, 0x63] : List Byte).take 1) ≤ Config.reference.bitCap ∧ codeLen t1 0x63 = 0) ∧
    (([0x61, 0x63] : List Byte)[0]? = some 0x61 ∧ codeLen t1 0x61 ≠ 0 ∧
      (encoder ⟨2, 1, 2, 2⟩ .codes [0x61, 0x63] t1).caps.bitCap < codedLength t1 [] + codeLen t1 0x61) := by
  refine ⟨by decide, by decide, ⟨rfl, fun i v hi hv => ?_⟩, by decide +kernel, by decide +kernel⟩
  match i, hi with
  | 0, _ => exact hv
  | 1, _ => exact hv

theorem witness_PackWritesThePackedBuffer : (encodedAs (bitsOf [1, 0, 1])).henc.phase = .encoded ∧
    ∀ a, a < (encodedAs (bitsOf [1, 0, 1])).henc.bitLen.toNat → (encodedAs (bitsOf [1, 0, 1])).henc.bitBuf.cell? a ≠ none :=
  ⟨rfl, by decide⟩

/-- The largest padding, and no payload at all. -/
theorem witness_UnpackExpandsThePayload :
    ((decoder ⟨2, 2, 2, 2⟩ [7, 0xFF] t1).hdec.payLen.toNat ≤ 2 ∧ (decoder ⟨2, 2, 2, 2⟩ [7, 0xFF] t1).hdec.payBuf.cell? 0 = some 7 ∧
      (7 : Byte).toNat ≤ 8 * ((decoder ⟨2, 2, 2, 2⟩ [7, 0xFF] t1).hdec.payLen.toNat - 1)) ∧
    (1 ≤ (decoder ⟨2, 2, 1, 2⟩ [0] t1).hdec.payLen.toNat ∧ (decoder ⟨2, 2, 1, 2⟩ [0] t1).hdec.payBuf.cell? 0 = some 0 ∧
      (0 : Byte).toNat ≤ 8 * ((decoder ⟨2, 2, 1, 2⟩ [0] t1).hdec.payLen.toNat - 1)) := by decide

/-- PAY_LEN above PAY_CAP, 0, and in range; headers 8 and 7, and a header above the bits of an empty payload. -/
theorem witness_UnpackEndsAsTheBytesItReads :
    (decoder ⟨2, 2, 1, 2⟩ [0, 0] t1).caps.payCap.toNat < (decoder ⟨2, 2, 1, 2⟩ [0, 0] t1).hdec.payLen.toNat ∧
    (decoder ⟨2, 2, 1, 2⟩ [] t1).hdec.payLen.toNat = 0 ∧
    (∀ h : Byte, readsAs (decoder ⟨2, 2, 2, 2⟩ [h, 0] t1).hdec.payBuf 1 [h]) ∧
    (7 < (8 : Byte).toNat ∧ (7 : Byte).toNat ≤ 7 ∧
      (7 : Byte).toNat ≤ 8 * ((decoder ⟨2, 2, 2, 2⟩ [7, 0] t1).hdec.payLen.toNat - 1) ∧
      8 * ((decoder ⟨2, 2, 2, 2⟩ [1] t1).hdec.payLen.toNat - 1) < (1 : Byte).toNat) := by
  refine ⟨by decide, by decide, fun h => ⟨rfl, fun i v hi hv => ?_⟩, by decide⟩
  obtain rfl : i = 0 := by omega
  exact hv

/-- Shortest matches of a code of two symbols. -/
theorem t1_matches : matchesAll t1 [[true], [false]] [0x61, 0x62] := by
  refine .cons ⟨by decide +kernel, by decide +kernel⟩ (.cons ⟨by decide +kernel, by decide +kernel⟩ .nil)

theorem witness_ScanEmitsTheConcatenatedSymbols :
    (unpackedAs ⟨2, 2, 2, 2⟩ [true, false] t1).hdec.phase = .unpacked ∧
    [[true], [false]].flatten.length = (unpackedAs ⟨2, 2, 2, 2⟩ [true, false] t1).hdec.dBitLen.toNat ∧
    holds (unpackedAs ⟨2, 2, 2, 2⟩ [true, false] t1).hdec.dBits [[true], [false]].flatten ∧
    matchesAll (unpackedAs ⟨2, 2, 2, 2⟩ [true, false] t1).hdec.decTab [[true], [false]] [0x61, 0x62] ∧
    [0x61, 0x62].length ≤ (unpackedAs ⟨2, 2, 2, 2⟩ [true, false] t1).caps.symCap.toNat :=
  ⟨rfl, by decide, by decide, t1_matches, by decide⟩

/-- Bits that end on a code, that end inside one, and more symbols than SYM_CAP. -/
theorem witness_ScanEndsAsTheBitsItReads :
    (unpackedAs ⟨2, 2, 2, 2⟩ [true, false] t1).hdec.phase = .unpacked ∧
    readsAs (unpackedAs ⟨2, 2, 2, 2⟩ [true, false] t1).hdec.dBits 2 [true, false] ∧
    matchesAll t1 [[true], [false]] [0x61, 0x62] ∧ noMatch t1 [] ∧ noMatch t4 [true] ∧
    (unpackedAs ⟨2, 2, 2, 1⟩ [true, false] t1).caps.symCap.toNat < [0x61, 0x62].length := by
  refine ⟨rfl, ⟨rfl, fun i v hi hv => ?_⟩, t1_matches, by unfold noMatch; decide +kernel, by unfold noMatch; decide +kernel,
    by decide⟩
  match i, hi with
  | 0, _ => exact hv
  | 1, _ => exact hv

/-- A run through all five stages, and one that ends in FAULT after ANALYZE, after BUILD, after ENCODE. -/
theorem witness_CompressIsTheFiveStagesInOrder :
    after (exec .hencAnalyze (encoder Config.reference .idle [0x61] t1)) (fun s1 => s1.henc.phase != .fault &&
      after (exec .hencBuild s1) (fun s2 => s2.henc.phase != .fault &&
        after (exec .hencGencodes s2) (fun s3 => after (exec .hencEncode s3) (fun s4 => s4.henc.phase != .fault)))) = true ∧
    after (exec .hencAnalyze (encoder ⟨0, 2, 2, 2⟩ .idle [0x61] t1)) (fun s1 => s1.henc.phase == .fault) = true ∧
    after (exec .hencAnalyze (encoder ⟨0, 2, 2, 2⟩ .idle [] t1)) (fun s1 => s1.henc.phase != .fault &&
      after (exec .hencBuild s1) (fun s2 => s2.henc.phase == .fault)) = true ∧
    after (exec .hencAnalyze (encoder ⟨1, 1, 2, 2⟩ .idle [0x61] t1)) (fun s1 => s1.henc.phase != .fault &&
      after (exec .hencBuild s1) (fun s2 => s2.henc.phase != .fault &&
        after (exec .hencGencodes s2) (fun s3 => after (exec .hencEncode s3) (fun s4 => s4.henc.phase == .fault)))) = true := by
  refine ⟨?_, ?_, ?_, ?_⟩ <;> decide +kernel

theorem witness_CompressOfAWrittenInputSucceeds :
    (encoder Config.reference .idle [0x61, 0x62] t1).henc.phase ≠ .fault ∧
    [0x61, 0x62].length = (encoder Config.reference .idle [0x61, 0x62] t1).henc.inLen.toNat ∧
    holds (encoder Config.reference .idle [0x61, 0x62] t1).henc.inBuf [0x61, 0x62] ∧ 1 ≤ [0x61, 0x62].length ∧
    [0x61, 0x62].length ≤ (encoder Config.reference .idle [0x61, 0x62] t1).caps.inCap.toNat ∧
    255 * [0x61, 0x62].length ≤ (encoder Config.reference .idle [0x61, 0x62] t1).caps.bitCap ∧
    (encoder Config.reference .idle [0x61, 0x62] t1).caps.wf = true :=
  ⟨nofun, by decide, by decide, by decide, by decide, by decide, by decide⟩

/-- IN_LEN at IN_CAP, with no room for a single bit. -/
theorem witness_CompressEndsPackedOrOutOfSpace :
    (encoder ⟨2, 1, 2, 2⟩ .idle [0x61, 0x62] t1).henc.phase ≠ .fault ∧
    [0x61, 0x62].length = (encoder ⟨2, 1, 2, 2⟩ .idle [0x61, 0x62] t1).henc.inLen.toNat ∧
    holds (encoder ⟨2, 1, 2, 2⟩ .idle [0x61, 0x62] t1).henc.inBuf [0x61, 0x62] ∧
    [0x61, 0x62].length ≤ (encoder ⟨2, 1, 2, 2⟩ .idle [0x61, 0x62] t1).caps.inCap.toNat :=
  ⟨nofun, by decide, by decide, by decide⟩

theorem witness_EmptyInputIsAnErrorOnBothSides : State.reset.henc.phase ≠ .fault ∧ State.reset.henc.inLen = 0 ∧
    State.reset.hdec.phase ≠ .fault ∧ State.reset.hdec.payLen = 0 := ⟨nofun, rfl, nofun, rfl⟩

/-- An UNPACK that succeeds, and one that fails. -/
theorem witness_DecodeIsUnpackThenScan :
    (∃ t, exec .hdecUnpack (decoder Config.reference [6, 0x40] t1) = .next t ∧ (t.hdec.phase != .fault) = true) ∧
    ∃ t, exec .hdecUnpack (decoder Config.reference [8] t1) = .next t ∧ (t.hdec.phase == .fault) = true :=
  ⟨exists_next (by decide +kernel), exists_next (by decide +kernel)⟩

theorem witness_DecodeOfCodedBitsSucceeds :
    (decoder Config.reference [6, 0x80] t1).hdec.phase ≠ .fault ∧
    (decoder Config.reference [6, 0x80] t1).hdec.payLen.toNat = 1 + ([0x80] : List Byte).length ∧
    (decoder Config.reference [6, 0x80] t1).hdec.payLen.toNat ≤ (decoder Config.reference [6, 0x80] t1).caps.payCap.toNat ∧
    (decoder Config.reference [6, 0x80] t1).caps.wf = true ∧
    holds (decoder Config.reference [6, 0x80] t1).hdec.payBuf (6 :: [0x80]) ∧ (6 : Byte).toNat ≤ 7 ∧
    (([0x80] : List Byte).map bits8).flatten.take (8 * ([0x80] : List Byte).length - (6 : Byte).toNat) = [[true], [false]].flatten ∧
    matchesAll (decoder Config.reference [6, 0x80] t1).hdec.decTab [[true], [false]] [0x61, 0x62] ∧
    [0x61, 0x62].length ≤ (decoder Config.reference [6, 0x80] t1).caps.symCap.toNat :=
  ⟨nofun, by decide, by decide, by decide, by decide, by decide, by decide, t1_matches, by decide⟩

/-- HDEC loaded with what COMPRESS of "ab" left in HENC. -/
def handedOver (t : State) : State :=
  { t with hdec := { Hdec.reset with payLen := t.henc.outLen, payBuf := t.henc.outBuf, decTab := t.henc.codeTab } }

theorem witness_DecompressionInvertsCompression :
    (encoder Config.reference .idle [0x61, 0x62] t1).caps.wf = true ∧
    (encoder Config.reference .idle [0x61, 0x62] t1).henc.phase ≠ .fault ∧
    [0x61, 0x62].length = (encoder Config.reference .idle [0x61, 0x62] t1).henc.inLen.toNat ∧
    holds (encoder Config.reference .idle [0x61, 0x62] t1).henc.inBuf [0x61, 0x62] ∧
    ∃ t, exec .hencCompress (encoder Config.reference .idle [0x61, 0x62] t1) = .next t ∧
      (t.henc.phase == .packed && decide (2 ≤ t.caps.inCap.toNat) && (handedOver t).caps == Config.reference && (handedOver t).hdec.phase == .idle &&
        decide (2 ≤ (handedOver t).caps.symCap.toNat) &&
        decide (t.henc.outLen.toNat ≤ (handedOver t).caps.payCap.toNat)) = true :=
  ⟨by decide, nofun, by decide, by decide, exists_next (by decide +kernel)⟩

/-- Two states with one input and different tables. -/
theorem witness_CompressionIsDeterministic :
    (encoder Config.reference .idle [0x61, 0x62] t1).caps = (encoder Config.reference .codes [0x61, 0x62] t4).caps ∧
    holds (encoder Config.reference .idle [0x61, 0x62] t1).henc.inBuf [0x61, 0x62] ∧
    holds (encoder Config.reference .codes [0x61, 0x62] t4).henc.inBuf [0x61, 0x62] ∧
    (∃ t, exec .hencCompress (encoder Config.reference .idle [0x61, 0x62] t1) = .next t ∧ (t.henc.phase == .packed) = true) ∧
    ∃ u, exec .hencCompress (encoder Config.reference .codes [0x61, 0x62] t4) = .next u ∧ (u.henc.phase == .packed) = true :=
  ⟨rfl, by decide, by decide, exists_next (by decide +kernel), exists_next (by decide +kernel)⟩

/-- The last element of TREE and the first index above it; word 8 of the last table entry and word 9. -/
theorem witness_AccessIsRefusedExactlyByTheRule :
    accepted Config.reference (readOf .henc 3 509 0xFFFFFFFF) = true ∧ accepted Config.reference (readOf .henc 3 510 0xFFFFFFFF) = false ∧
    accepted Config.reference (readOf .hdec 4 4088 0xFFFFFFFF) = true ∧ accepted Config.reference (readOf .hdec 4 4089 0xFFFFFFFF) = false ∧
    (∃ r, step (atTransaction State.reset (readOf .henc 3 509 0xFFFFFFFF) []) = .next r ∧ (fun _ => true) r = true) :=
  ⟨by decide, by decide, by decide, by decide, exists_next (by decide +kernel)⟩

theorem witness_InputWritesStoreTheirData : 4095 < State.reset.caps.inCap.toNat ∧ 4096 < State.reset.caps.payCap.toNat := by
  decide

theorem witness_TableWritesChangeOneWord : (255 < 256 ∧ 8 ≤ 8) ∧ (0 < 256 ∧ 0 ≤ 8) ∧
    State.reset.henc.codeTab[255]? = some ⟨0, 0⟩ ∧ State.reset.hdec.decTab[255]? = some ⟨0, 0⟩ := by decide +kernel

/-- A written cell and one that holds UNSPEC, of a byte buffer and of a bit space. -/
theorem witness_BufferCellsReadTheirValues :
    (accepted Config.reference (readOf .henc 1 0 0xFFFFFFFF) = true ∧
      (encoder Config.reference .idle [0x61] t1).henc.inBuf.cell? 0 = some 0x61) ∧
    (accepted Config.reference (readOf .henc 6 4096 0xFFFFFFFF) = true ∧ State.reset.henc.outBuf.cell? 4096 = none) ∧
    (accepted Config.reference (readOf .henc 5 0 0xFFFFFFFF) = true ∧ (encodedAs [true]).henc.bitBuf.cell? 0 = some true) ∧
    (accepted Config.reference (readOf .hdec 5 32767 0xFFFFFFFF) = true ∧ State.reset.hdec.dBits.cell? 32767 = none) := by decide

theorem witness_ReadsLeaveBothUnitsAlone : (readOf .henc 6 0 0xFFFFFFFF).kind = .read := rfl

/-- A state of the invariant about to run BUILD. -/
theorem witness_EveryStepKeepsTheInvariant : Inv { counted2 with pending := [commandEvent .henc 0x11] } ∧
    ∃ t, step { counted2 with pending := [commandEvent .henc 0x11] } = .next t ∧ (t.henc.phase == .tree) = true :=
  ⟨⟨counted2_inv.caps, counted2_inv.henc, counted2_inv.hdec⟩, exists_next (by decide +kernel)⟩

theorem witness_NoStepEverStops : Inv { tree2 with pending := [commandEvent .henc 0x12] } :=
  ⟨tree2_inv.caps, tree2_inv.henc, tree2_inv.hdec⟩

theorem witness_CommandsLeaveTheOtherUnitAlone : ∃ t, exec .hencPack (encodedAs [true]) = .next t ∧ (fun _ => true) t = true :=
  exists_next (by decide +kernel)

/-- HENC packs beside an HDEC in FAULT as it does beside one in IDLE. -/
theorem witness_CommandsDoNotReadTheOtherUnit :
    { encodedAs [true] with hdec := (hdecFault ⟨3, 1, 8⟩).hdec }.caps = (encodedAs [true]).caps ∧
    { encodedAs [true] with hdec := (hdecFault ⟨3, 1, 8⟩).hdec }.draws = (encodedAs [true]).draws ∧
    { encodedAs [true] with hdec := (hdecFault ⟨3, 1, 8⟩).hdec }.henc = (encodedAs [true]).henc ∧
    ∃ t, exec .hencPack (encodedAs [true]) = .next t ∧ (fun _ => true) t = true :=
  ⟨rfl, rfl, rfl, exists_next (by decide +kernel)⟩

theorem witness_FirstErrorIsKeptUntilClearOrReset :
    inFault { hencFault ⟨4, 0x14, 3⟩ with pending := [commandEvent .henc 0x99] } .henc ∧
    (∃ t, step { hencFault ⟨4, 0x14, 3⟩ with pending := [commandEvent .henc 0x99] } = .next t ∧ (fun _ => true) t = true) ∧
    ([commandEvent .henc 0x99]).head? ≠ some .rst ∧
    ([commandEvent .henc 0x99]).head? ≠ some (.transaction (writeOf .henc 0 1 1)) :=
  ⟨rfl, exists_next (by decide +kernel), by decide, by decide⟩

end Sys2Proof.Tests
end

section
/-! SUPPORT. The status view bit by bit, the error invariant of a unit by its name, and the values after reset
(spec/10_state.md R22, R46 (c), R50). -/
namespace Sys2Proof.Machine

/-! ### STATUS -/

/-- The ERR part of STATUS has one bit, bit 3, set when the code is not 0. -/
theorem getLsbD_errMask (c : BitVec 8) (i : Nat) :
    (if c == 0 then (0 : Word) else 8).getLsbD i = decide (i = 3 ∧ c ≠ 0) := by
  by_cases hc : c = 0
  · simp [hc]
  · have eight : (8 : Word) = BitVec.twoPow 32 3 := rfl
    rw [if_neg (by simpa using hc), eight, BitVec.getLsbD_twoPow]
    simpa [eq_comm (a := i)] using fun _ => hc

/-- STATUS bit by bit: a bit of PHASE, or ERR at bit 3. -/
theorem State.getLsbD_status (s : State) (u : UnitId) (i : Nat) :
    (s.status u).getLsbD i = ((s.phaseCode u).getLsbD i || decide (i = 3 ∧ (s.errRegs u).code ≠ 0)) := by
  have hphase : (decide (i < 32) && (s.phaseCode u).getLsbD i) = (s.phaseCode u).getLsbD i := by
    by_cases hi : i < 32
    · rw [decide_eq_true hi, Bool.true_and]
    · rw [BitVec.getLsbD_of_ge _ _ (by omega), Bool.and_false]
  rw [State.status, BitVec.getLsbD_or, BitVec.getLsbD_setWidth, getLsbD_errMask, hphase]

/-- STATUS[2:0] = PHASE. -/
theorem State.extractLsb'_status (s : State) (u : UnitId) : (s.status u).extractLsb' 0 3 = s.phaseCode u := by
  refine BitVec.eq_of_getLsbD_eq fun i hi => ?_
  have hne : i ≠ 3 := by omega
  rw [BitVec.getLsbD_extractLsb', State.getLsbD_status, Nat.zero_add, decide_eq_true hi]
  simp [hne]

/-- STATUS[3] = ERR. -/
theorem State.status_err (s : State) (u : UnitId) : (s.status u).getLsbD 3 = true ↔ (s.errRegs u).code ≠ 0 := by
  rw [State.getLsbD_status, BitVec.getLsbD_of_ge _ _ (Nat.le_refl 3)]
  simp

/-- STATUS[31:4] = 0. -/
theorem State.status_lt (s : State) (u : UnitId) : (s.status u).toNat < 16 := by
  refine Nat.lt_pow_two_of_testBit (n := 4) _ fun i hi => ?_
  have hne : i ≠ 3 := by omega
  rw [BitVec.testBit_toNat, State.getLsbD_status, BitVec.getLsbD_of_ge _ _ (by omega)]
  simp [hne]

/-! ### FAULT and the error registers of a unit -/

theorem State.faulted_iff_inFault (s : State) (u : UnitId) : s.faulted u = true ↔ inFault s u := by
  cases u with
  | henc => exact s.faulted_henc
  | hdec => exact s.faulted_hdec

/-- The error invariant of each unit, by the unit's name. -/
theorem Inv.errInv {s : State} (hs : Inv s) (u : UnitId) : ErrInv (s.faulted u) (s.errRegs u) := by
  cases u with
  | henc => exact hs.henc.err
  | hdec => exact hs.hdec.err

/-- A state that meets the invariant shows ERR exactly in FAULT. -/
theorem Inv.status_err {s : State} (hs : Inv s) (u : UnitId) : (s.status u).getLsbD 3 = true ↔ inFault s u :=
  calc (s.status u).getLsbD 3 = true
    _ ↔ (s.errRegs u).code ≠ 0 := s.status_err u
    _ ↔ s.faulted u = true := (hs.errInv u).fault.symm
    _ ↔ inFault s u := s.faulted_iff_inFault u

/-- Settles O16: STATUS is known bit by bit, and the invariant ties ERR_CODE to FAULT. -/
theorem statusIsTheViewOfPhaseAndError : Obligations.StatusIsTheViewOfPhaseAndError := fun s u =>
  ⟨s.extractLsb'_status u, s.status_err u, s.status_lt u, fun hs => hs.status_err u⟩

/-! ### The reset state: the four tables entry by entry, STATUS, and the whole list -/

theorem Henc.reset_freq (k : Nat) (h : k < 256) : Henc.reset.freq[k] = 0 := Vector.getElem_replicate h

theorem Henc.reset_tree (k : Nat) (h : k < 255) : Henc.reset.tree[k] = ⟨0, 0, 0⟩ := Vector.getElem_replicate h

theorem Henc.reset_codeTab (k : Nat) (h : k < 256) : Henc.reset.codeTab[k] = ⟨0, 0⟩ := Vector.getElem_replicate h

theorem Hdec.reset_decTab (k : Nat) (h : k < 256) : Hdec.reset.decTab[k] = ⟨0, 0⟩ := Vector.getElem_replicate h

/-- STATUS is 0 in a unit whose PHASE has the value 0 and whose ERR_CODE is 0. -/
theorem State.status_eq_zero {s : State} {u : UnitId} (hp : s.phaseCode u = 0) (he : (s.errRegs u).code = 0) :
    s.status u = 0 := by
  simp [State.status, hp, he]

/-- Settles O8: the registers and constants by computation, the tables entry by entry, the buffers as empty memories. -/
theorem resetStateHoldsTheListedValues : Obligations.ResetStateHoldsTheListedValues := by
  have hstatus (u : UnitId) : State.reset.status u = 0 := by
    cases u <;> exact State.status_eq_zero rfl rfl
  exact ⟨rfl, rfl, rfl, rfl, hstatus .henc, hstatus .hdec, rfl, rfl, rfl, rfl, rfl, rfl, rfl, rfl,
    Henc.reset_freq, Henc.reset_tree, fun k h => ⟨Henc.reset_codeTab k h, Hdec.reset_decTab k h⟩,
    fun a => ⟨Memory.cell?_nil a, Memory.cell?_nil a, Memory.cell?_nil a, Memory.cell?_nil a⟩,
    fun a => ⟨Memory.cell?_nil a, Memory.cell?_nil a⟩,
    rfl, rfl, rfl, rfl, rfl, rfl⟩

end Sys2Proof.Machine
end

section
/-! SUPPORT. The host port space by space: which unit and id name a space, which elements it reads and writes, and the step
of a read (spec/20_memory.md R60 to R71). -/
namespace Sys2Proof.Machine

/-! ### The table of spaces -/

/-- The unit a space belongs to (20_memory.md R61). -/
def Space.unit : Space → UnitId
  | .hencReg | .inBuf | .freq | .tree | .codeTab | .bitBuf | .outBuf => .henc
  | .hdecReg | .payBuf | .decTab | .dBits | .symBuf => .hdec

/-- The id of a space in its unit (20_memory.md R61). -/
def Space.id : Space → BitVec 4
  | .hencReg | .hdecReg => 0
  | .inBuf | .payBuf => 1
  | .freq => 2
  | .tree => 3
  | .codeTab | .decTab => 4
  | .bitBuf | .dBits => 5
  | .outBuf | .symBuf => 6

/-- Each space is found under its own unit and id, and under no other. -/
theorem spaceOf_eq_some_iff {u : UnitId} {id : BitVec 4} {sp : Space} :
    spaceOf u id = some sp ↔ u = sp.unit ∧ id = sp.id := by
  cases u <;> cases sp <;> revert id <;> decide

theorem elementCount_unit_id (c : Capacities) (sp : Space) : elementCount c sp.unit sp.id = some (sp.elements c) := by
  cases sp <;> rfl

theorem elementCount_of_no_space {u : UnitId} {id : BitVec 4} (h : spaceOf u id = none) (c : Capacities) :
    elementCount c u id = none := by
  unfold spaceOf at h
  split at h <;> simp_all [elementCount]

/-! ### Which accesses a space takes -/

/-- Element `i` exists in the space: in range, and no word 9 to 15 of a table entry (20_memory.md R63, R71). -/
def Space.hasElement (c : Capacities) (sp : Space) (i : Nat) : Prop := i < sp.elements c ∧ (sp.id = 4 → i % 16 ≤ 8)

/-- The conditions of R63 for a transaction to a space. -/
theorem accepted_iff {c : Capacities} {t : Transaction} {sp : Space} (hs : spaceOf t.unit t.space = some sp) :
    accepted c t = true ↔
      sp.hasElement c t.index.toNat ∧ (t.kind = .read ∨ takesWrite sp.id t.index.toNat = true) := by
  obtain ⟨hu, hid⟩ := spaceOf_eq_some_iff.mp hs
  simp only [accepted, hu, hid, elementCount_unit_id, Space.hasElement, Bool.and_eq_true, Bool.or_eq_true,
    decide_eq_true_eq, beq_iff_eq, bne_iff_ne]
  tauto

theorem hencRegister_isSome (s : State) (i : Nat) : (hencRegister s i).isSome = true ↔ i < 13 := by
  by_cases h : i < 13
  · interval_cases i <;> simp [hencRegister]
  · obtain ⟨k, rfl⟩ := Nat.exists_eq_add_of_le' (Nat.le_of_not_lt h)
    simp [hencRegister]

theorem hdecRegister_isSome (s : State) (i : Nat) : (hdecRegister s i).isSome = true ↔ i < 11 := by
  by_cases h : i < 11
  · interval_cases i <;> simp [hdecRegister]
  · obtain ⟨k, rfl⟩ := Nat.exists_eq_add_of_le' (Nat.le_of_not_lt h)
    simp [hdecRegister]

theorem treeElement_isSome (t : Vector TreeNode 255) (i : Nat) : (treeElement t i).isSome = true ↔ i < 510 := by
  by_cases h : i / 2 < 255 <;> simp [treeElement, h] <;> omega

theorem entryWord_isSome (e : Entry) (w : Nat) : (entryWord e w).isSome = true ↔ w ≤ 8 := by
  unfold entryWord
  split_ifs <;> simp <;> omega

theorem writeEntryWord_isSome (e : Entry) (w : Nat) (v : Word) : (writeEntryWord e w v).isSome = true ↔ w ≤ 8 := by
  unfold writeEntryWord
  split_ifs <;> simp <;> omega

theorem tableElement_isSome (t : Vector Entry 256) (i : Nat) :
    (tableElement t i).isSome = true ↔ i < 4096 ∧ i % 16 ≤ 8 := by
  by_cases h : i / 16 < 256 <;> simp [tableElement, h, entryWord_isSome] <;> omega

theorem writeTableElement_isSome (t : Vector Entry 256) (i : Nat) (v : Word) :
    (writeTableElement t i v).isSome = true ↔ i < 4096 ∧ i % 16 ≤ 8 := by
  have hw (e : Entry) := writeEntryWord_isSome e (i % 16) v
  unfold writeTableElement
  split
  · next h =>
    specialize hw t[i / 16]
    split <;> next he => simp [he] at hw ⊢; omega
  · simp; omega

/-- A space answers the reads of the elements it has, and no others. -/
theorem readElement_isSome (s : State) (sp : Space) (i : Nat) :
    (readElement s sp i).isSome = true ↔ sp.hasElement s.caps i := by
  unfold readElement Space.hasElement
  split
  · next h =>
    cases sp <;> simp [hencRegister_isSome, hdecRegister_isSome, treeElement_isSome, tableElement_isSome, Space.id,
      Space.elements] at h ⊢ <;> omega
  · next h => simp [h]

/-- A space takes the writes, other than to CMD, of the elements it has that take one, and no others. -/
theorem writeElement_isSome (s : State) (sp : Space) (i : Nat) (v : Word) (hc : isCmd sp i = false) :
    (writeElement s sp i v).isSome = true ↔ sp.hasElement s.caps i ∧ takesWrite sp.id i = true := by
  unfold writeElement Space.hasElement
  split
  · next h =>
    cases sp <;> simp [writeTableElement_isSome, Space.id, Space.elements, takesWrite, isCmd] at h hc ⊢ <;> omega
  · next h => simp [h]

/-- CMD exists and takes a write. -/
theorem hasElement_of_isCmd {sp : Space} {i : Nat} (hc : isCmd sp i = true) (c : Capacities) :
    sp.hasElement c i ∧ takesWrite sp.id i = true := by
  obtain ⟨hreg, rfl⟩ : (sp = .hencReg ∨ sp = .hdecReg) ∧ i = 1 := by simpa [isCmd] using hc
  rcases hreg with rfl | rfl <;> simp [Space.hasElement, Space.elements, Space.id, takesWrite]

/-! ### Refusal -/

/-- A transaction that R63 does not allow is refused (20_memory.md R64). -/
theorem transact_of_not_accepted {s : State} {t : Transaction} (h : accepted s.caps t = false) :
    transact t s = .next (s.respond refusedResponse) := by
  cases hs : spaceOf t.unit t.space with
  | none => exact transact_of_no_space hs s
  | some sp =>
    have hna := (accepted_iff hs).not.mp (Bool.eq_false_iff.mp h)
    cases hk : t.kind with
    | read =>
      have hr : readElement s sp t.index.toNat = none := by
        rw [← Option.not_isSome_iff_eq_none, readElement_isSome]
        exact fun he => hna ⟨he, .inl hk⟩
      exact transact_of_read_none hs hk hr
    | write =>
      have hc : isCmd sp t.index.toNat = false :=
        Bool.eq_false_iff.mpr fun hc => hna ((hasElement_of_isCmd hc _).imp_right .inr)
      have hw : writeElement s sp t.index.toNat t.wdata = none := by
        rw [← Option.not_isSome_iff_eq_none, writeElement_isSome s sp _ _ hc]
        exact fun he => hna (he.imp_right .inr)
      exact transact_of_write_none hs hk hc hw

/-- A transaction that R63 allows is answered OK, if the command of a write to CMD ends. -/
theorem transact_of_accepted {s r : State} {t : Transaction} (h : accepted s.caps t = true)
    (hr : transact t s = .next r) : ∃ d, r.response = some ⟨.ok, d⟩ := by
  cases hs : spaceOf t.unit t.space with
  | none => simp [accepted, elementCount_of_no_space hs] at h
  | some sp =>
    obtain ⟨he, hacc⟩ := (accepted_iff hs).mp h
    cases hk : t.kind with
    | read =>
      obtain ⟨⟨d, u⟩, hread⟩ := Option.isSome_iff_exists.mp ((readElement_isSome s sp _).mpr he)
      cases (transact_of_read hs hk hread).symm.trans hr
      exact ⟨d, rfl⟩
    | write =>
      cases hc : isCmd sp t.index.toNat with
      | true =>
        obtain ⟨u, -, rfl⟩ := thenDo_eq_next.mp ((transact_of_command hs hk hc).symm.trans hr)
        exact ⟨0, rfl⟩
      | false =>
        have htakes : takesWrite sp.id t.index.toNat = true := hacc.resolve_left (by simp [hk])
        obtain ⟨u, hwrite⟩ := Option.isSome_iff_exists.mp ((writeElement_isSome s sp _ t.wdata hc).mpr ⟨he, htakes⟩)
        cases (transact_of_write hs hk hc hwrite).symm.trans hr
        exact ⟨0, rfl⟩

/-- Settles O46: a step with a transaction pending takes it, and R63 decides between refusal and OK. -/
theorem accessIsRefusedExactlyByTheRule : Obligations.AccessIsRefusedExactlyByTheRule := fun s _ rest =>
  ⟨fun h => transact_of_not_accepted (s := { s with pending := rest }) h,
    fun h _ hr => transact_of_accepted (s := { s with pending := rest }) h hr⟩

/-! ### The step of a read -/

/-- The value a read answers and the state it leaves do not depend on the events still pending. -/
theorem readElement_pending (s : State) (rest : List Event) (sp : Space) (i : Nat) :
    readElement { s with pending := rest } sp i =
      (readElement s sp i).map fun x => (x.1, { x.2 with pending := rest }) := by
  unfold readElement
  split
  · cases sp <;> simp [Function.comp_def] <;> rfl
  · rfl

/-- The step of a read that the space answers. -/
theorem step_readOf {s r : State} {u : UnitId} {id : BitVec 4} {sp : Space} {i : Nat} {v : Word}
    (hs : spaceOf u id = some sp) (hi : i < 2 ^ 32) (h : readElement s sp i = some (v, r)) (d : Word) (rest : List Event) :
    step (atTransaction s (readOf u id i d) rest) = .next (answered r rest .ok v) := by
  have hindex : (word i).toNat = i := Nat.mod_eq_of_lt hi
  have hread : readElement { s with pending := rest } sp (readOf u id i d).index.toNat =
      some (v, { r with pending := rest }) := by
    rw [readElement_pending, readOf, hindex, h, Option.map_some]
  exact transact_of_read hs rfl hread

/-- The word element `i` of a register space or a table space holds; the buffers, whose cells can hold UNSPEC, have none. -/
def Space.storedWord (s : State) (sp : Space) (i : Nat) : Option Word :=
  match sp with
  | .hencReg => hencRegister s i
  | .hdecReg => hdecRegister s i
  | .freq    => s.henc.freq[i]?
  | .tree    => treeElement s.henc.tree i
  | .codeTab => tableElement s.henc.codeTab i
  | .decTab  => tableElement s.hdec.decTab i
  | .inBuf | .bitBuf | .outBuf | .payBuf | .dBits | .symBuf => none

/-- An element with a stored word is in range, and its index fits a word. -/
theorem lt_of_storedWord {s : State} {sp : Space} {i : Nat} {v : Word} (h : sp.storedWord s i = some v) :
    i < sp.elements s.caps ∧ i < 2 ^ 32 := by
  have hsome : (sp.storedWord s i).isSome = true := Option.isSome_of_eq_some h
  cases sp <;> simp [Space.storedWord, hencRegister_isSome, hdecRegister_isSome, treeElement_isSome,
    tableElement_isSome] at hsome <;> simp only [Space.elements] <;> omega

/-- A read of an element with a stored word answers it and draws nothing. -/
theorem readElement_of_storedWord {s : State} {sp : Space} {i : Nat} {v : Word} (h : sp.storedWord s i = some v) :
    readElement s sp i = some (v, s) := by
  unfold readElement
  rw [if_pos (lt_of_storedWord h).1]
  cases sp <;> simp_all [Space.storedWord]

/-- The step of a read of a stored word answers it and changes nothing else. -/
theorem step_readOf_storedWord {s : State} {u : UnitId} {id : BitVec 4} (sp : Space) {i : Nat} {v d : Word}
    {rest : List Event} (hs : spaceOf u id = some sp) (h : sp.storedWord s i = some v) :
    step (atTransaction s (readOf u id i d) rest) = .next (answered s rest .ok v) :=
  step_readOf hs (lt_of_storedWord h).2 (readElement_of_storedWord h) d rest

/-! ### The layouts of TREE and the code tables -/

/-- An even element of TREE is a weight. -/
theorem treeElement_even (t : Vector TreeNode 255) (k : Nat) (h : k < 255) : treeElement t (2 * k) = some t[k].w := by
  simp [treeElement, h]

/-- C1 in bits 24:16 beside C0 in bits 8:0 is a sum, since C0 is below 2^16. -/
theorem children_word (c1 c0 : NodeId) :
    (c1.setWidth 32 <<< 16) ||| c0.setWidth 32 = word (c1.toNat * 2 ^ 16 + c0.toNat) := by
  have h0 : c0.toNat < 2 ^ 16 := by omega
  have h1 : c1.toNat % 2 ^ 32 = c1.toNat := by omega
  refine BitVec.eq_of_toNat_eq ?_
  rw [BitVec.toNat_or, BitVec.toNat_shiftLeft, BitVec.toNat_setWidth, BitVec.toNat_setWidth, h1, BitVec.toNat_ofNat,
    ← Nat.shiftLeft_eq, Nat.shiftLeft_add_eq_or_of_lt h0, Nat.or_mod_two_pow]

/-- An odd element of TREE is the two children. -/
theorem treeElement_odd (t : Vector TreeNode 255) (k : Nat) (h : k < 255) :
    treeElement t (2 * k + 1) = some (word (t[k].c1.toNat * 2 ^ 16 + t[k].c0.toNat)) := by
  have hdiv : (2 * k + 1) / 2 = k := by omega
  simp [treeElement, hdiv, h, children_word]

/-- Element `16 k + w` of a table is word `w` of entry `k`. -/
theorem tableElement_word (t : Vector Entry 256) (k w : Nat) (h : k < 256) (hw : w ≤ 8) :
    tableElement t (16 * k + w) = entryWord t[k] w := by
  have hdiv : (16 * k + w) / 16 = k := by omega
  have hmod : (16 * k + w) % 16 = w := by omega
  simp [tableElement, hdiv, hmod, h]

/-- Word 0 of an entry is LEN. -/
theorem tableElement_len (t : Vector Entry 256) (k : Nat) (h : k < 256) :
    tableElement t (16 * k) = some (t[k].len.setWidth 32) :=
  tableElement_word t k 0 h (Nat.zero_le 8)

/-- Words 1 to 8 of an entry are the 32-bit parts of BITS, lowest first. -/
theorem tableElement_bits (t : Vector Entry 256) (k w : Nat) (h : k < 256) (h1 : 1 ≤ w) (h8 : w ≤ 8) :
    tableElement t (16 * k + w) = some (word (t[k].bits.toNat / 2 ^ (32 * (w - 1)))) := by
  rw [tableElement_word t k w h h8, entryWord, if_neg (by omega), if_pos h8, BitVec.extractLsb',
    Nat.shiftRight_eq_div_pow]

/-- Settles O48: FREQ, TREE and both tables hold their elements in the layouts of R69 to R71, and a read answers them. -/
theorem tablesReadInTheirLayouts : Obligations.TablesReadInTheirLayouts := fun s _ _ =>
  ⟨fun _ h => step_readOf_storedWord .freq rfl (Vector.getElem?_eq_getElem h),
    fun k h => ⟨step_readOf_storedWord .tree rfl (treeElement_even s.henc.tree k h),
      step_readOf_storedWord .tree rfl (treeElement_odd s.henc.tree k h)⟩,
    fun k h => ⟨step_readOf_storedWord .codeTab rfl (tableElement_len s.henc.codeTab k h),
      step_readOf_storedWord .decTab rfl (tableElement_len s.hdec.decTab k h),
      fun w h1 h8 => ⟨step_readOf_storedWord .codeTab rfl (tableElement_bits s.henc.codeTab k w h h1 h8),
        step_readOf_storedWord .decTab rfl (tableElement_bits s.hdec.decTab k w h h1 h8)⟩⟩⟩

/-- Settles O45: every listed value is that of the register with its index, and a read answers it. -/
theorem registersReadTheirValues : Obligations.RegistersReadTheirValues := by
  refine fun s _ _ => ⟨fun p hp => ?_, fun p hp => ?_⟩
  · have hreg : hencRegister s p.1 = some p.2 := by
      revert p
      simp [hencRegister, Config.hencId]
    exact step_readOf_storedWord .hencReg rfl hreg
  · have hreg : hdecRegister s p.1 = some p.2 := by
      revert p
      simp [hdecRegister, Config.hdecId]
    exact step_readOf_storedWord .hdecReg rfl hreg

end Sys2Proof.Machine
end

section
/-! SUPPORT. The decoder and the encoder as inverses of each other at each unit (spec/30_encoding.md R90 to R94). -/
namespace Sys2Proof

/-! ### From a command to its word and back -/

/-- The law of encodings of every command. -/
theorem Laws.Encoding.all : ∀ i : Instr, Laws.Encoding.Statement i
  | .hencNop      => hencNop
  | .hencClear    => hencClear
  | .hencTabclr   => hencTabclr
  | .hencUsetab   => hencUsetab
  | .hencAnalyze  => hencAnalyze
  | .hencBuild    => hencBuild
  | .hencGencodes => hencGencodes
  | .hencEncode   => hencEncode
  | .hencPack     => hencPack
  | .hencCompress => hencCompress
  | .hdecNop      => hdecNop
  | .hdecClear    => hdecClear
  | .hdecTabclr   => hdecTabclr
  | .hdecUnpack   => hdecUnpack
  | .hdecScan     => hdecScan
  | .hdecDecode   => hdecDecode

/-- A unit takes the word of each of its commands as that command. -/
theorem decode_encode (i : Instr) : decode i.unit (encode i) = .ok i := by
  obtain ⟨-, -, hdecode⟩ := Laws.Encoding.all i
  exact hdecode

/-! ### From a word to its command and back -/

/-- A word of the format CMD is its low byte, zero-extended (R90). -/
theorem setWidth_setWidth_of_wordFormat {w : Word} (h : wordFormat w = true) : (w.setWidth 8).setWidth 32 = w := by
  have hzero : w.extractLsb' 8 24 = 0#24 := eq_of_beq h
  have hhigh : w.toNat / 2 ^ 8 % 2 ^ 24 = 0 := by
    simpa [Nat.shiftRight_eq_div_pow] using congrArg BitVec.toNat hzero
  refine BitVec.eq_of_toNat_eq ?_
  simp only [BitVec.toNat_setWidth]
  omega

/-- Each row of the opcode map agrees with `Instr.unit` and `encode`: the column and the byte are those of its command. -/
theorem unit_encode_of_mem_opcodeMap :
    ∀ r ∈ opcodeMap, r.instr.unit = r.unit ∧ encode r.instr = r.opc.setWidth 32 := by
  decide

/-- A unit takes a word as a command only by a row of the opcode map for the unit and the word's low byte (R94). -/
theorem exists_row_of_decode {u : UnitId} {w : Word} {i : Instr} (h : decode u w = .ok i) :
    wordFormat w = true ∧ ∃ r ∈ opcodeMap, r.unit = u ∧ r.opc = w.setWidth 8 ∧ r.instr = i := by
  unfold decode at h
  split at h
  · next hformat =>
    split at h
    · next r hfind =>
      obtain ⟨hunit, hopc⟩ : r.unit = u ∧ r.opc = w.setWidth 8 := by simpa using List.find?_some hfind
      exact ⟨hformat, r, List.mem_of_find?_eq_some hfind, hunit, hopc, Except.ok.inj h⟩
    · cases h
  · cases h

/-- A word that a unit takes as a command is the word of that command, and the command is the unit's. -/
theorem unit_encode_of_decode {u : UnitId} {w : Word} {i : Instr} (h : decode u w = .ok i) :
    i.unit = u ∧ encode i = w := by
  obtain ⟨hformat, r, hmem, rfl, hopc, rfl⟩ := exists_row_of_decode h
  obtain ⟨hunit, hencode⟩ := unit_encode_of_mem_opcodeMap r hmem
  exact ⟨hunit, by rw [hencode, hopc, setWidth_setWidth_of_wordFormat hformat]⟩

/-- Settles O3: the row that decodes a word is that of the word's command, and each command's word decodes to it. -/
theorem decodeAcceptsExactlyTheMapWords : Obligations.DecodeAcceptsExactlyTheMapWords := fun _ _ i =>
  ⟨unit_encode_of_decode, by rintro ⟨rfl, rfl⟩; exact decode_encode i⟩

end Sys2Proof
end

section
/-! SUPPORT. ANALYZE: what the reads of its input return, and the two ways it ends (spec/41_frequency.md R120 to R122). -/
namespace Sys2Proof.Machine

/-! ### Reads of the first cells of a buffer -/

/-- Reads of cells 0 to `n - 1` return values that these cells can be read as. -/
theorem Memory.readsAs_drawList_range {α : Type} (free : Nat → α) (m : Memory α) (n d : Nat) :
    readsAs m n (m.drawList free (List.range n) d).1 :=
  ⟨by rw [Memory.length_drawList, List.length_range],
    fun i v hi hv => m.drawList_stored free (List.range n) d i i v (List.getElem?_range hi) hv⟩

/-- Reads of cells that all hold a value draw nothing. -/
theorem Memory.drawList_draws_of_written {α : Type} (free : Nat → α) (m : Memory α) (as : List Nat) (d : Nat)
    (h : ∀ a ∈ as, m.cell? a ≠ none) : (m.drawList free as d).2 = d := by
  induction as with
  | nil => rfl
  | cons a as ih =>
    obtain ⟨ha, has⟩ := List.forall_mem_cons.mp h
    obtain ⟨v, hv⟩ := Option.ne_none_iff_exists'.mp ha
    rw [Memory.drawList, Memory.draw_of_some hv]
    exact ih has

/-- The values ANALYZE and ENCODE read are values that IN_BUF can be read as. -/
theorem readsAs_inputSymbols (s : State) : readsAs s.henc.inBuf s.henc.inLen.toNat (inputSymbols s).1 :=
  Memory.readsAs_drawList_range _ _ _ _

/-- Reading an input whose cells are all written draws nothing. -/
theorem inputSymbols_draws_of_written {s : State}
    (h : ∀ a, a < s.henc.inLen.toNat → s.henc.inBuf.cell? a ≠ none) : (inputSymbols s).2 = s.draws :=
  Memory.drawList_draws_of_written _ _ _ _ fun a ha => h a (List.mem_range.mp ha)

/-! ### NSYM -/

/-- NSYM's 9 bits hold the number of symbols present, which is at most 256. -/
theorem toNat_nsym (freq : Vector Word 256) :
    (BitVec.ofNat 9 (distinctSymbols freq)).toNat = presentSymbols freq := by
  have hle : presentSymbols freq ≤ 256 := List.countP_le_length.trans_eq freq.length_toList
  exact (BitVec.toNat_ofNat _ _).trans (Nat.mod_eq_of_lt (Nat.lt_of_le_of_lt hle (by decide)))

/-! ### ANALYZE -/

/-- Outside FAULT, ANALYZE runs its body. -/
theorem exec_hencAnalyze {s : State} (h : s.henc.phase ≠ .fault) : exec .hencAnalyze s = (analyzeBody s).result :=
  prologue_of_legal (Bool.eq_false_iff.mpr (mt s.faulted_henc.mp h)) rfl analyzeBody

/-- An input within IN_CAP is read and counted. -/
theorem analyzeBody_of_le {s : State} (h : s.henc.inLen.toNat ≤ s.caps.inCap.toNat) :
    analyzeBody s = .done { s with
      henc := { s.henc with
        freq := symbolCounts (inputSymbols s).1,
        nsym := BitVec.ofNat 9 (distinctSymbols (symbolCounts (inputSymbols s).1)),
        phase := .counted },
      draws := (inputSymbols s).2 } :=
  if_neg (Nat.not_lt.mpr h)

/-- An IN_LEN above IN_CAP raises CapacityError. -/
theorem analyzeBody_of_lt {s : State} (h : s.caps.inCap.toNat < s.henc.inLen.toNat) :
    analyzeBody s = .raised (s.raise .henc ⟨.capacity, 1, s.henc.inLen⟩) :=
  if_pos h

/-- Settles O17: the body splits at IN_LEN = IN_CAP; no count wraps, since IN_LEN is a 32-bit register. -/
theorem analyzeCountsTheInput : Obligations.AnalyzeCountsTheInput := by
  refine fun s hs => ⟨fun hle => ?_, fun hlt => ?_⟩
  · have hshort : (inputSymbols s).1.length < 2 ^ 32 := by
      rw [length_inputSymbols]
      exact s.henc.inLen.isLt
    have hexec := (exec_hencAnalyze hs).trans (congrArg Stage.result (analyzeBody_of_le hle))
    exact ⟨(inputSymbols s).1, _, _, _, readsAs_inputSymbols s, hexec, symbolCounts_toNat _ hshort, toNat_nsym _,
      inputSymbols_draws_of_written⟩
  · exact (exec_hencAnalyze hs).trans (congrArg Stage.result (analyzeBody_of_lt hlt))

end Sys2Proof.Machine
end

section
/-! SUPPORT. BUILD: what it leaves in TREE and ROOT as a function of FREQ, and the tree of a single leaf (spec/42_tree.md R132,
R134, R135). -/
namespace Sys2Proof.Machine

/-! ### The leaves of FREQ -/

/-- The weights of the 256 leaves are FREQ, entry by entry. -/
theorem map_toNat_toList_freq (freq : Vector Word 256) :
    freq.toList.map BitVec.toNat = (List.range 256).map (localWeight freq []) := by
  refine List.ext_getElem (by simp) fun k hk _ => ?_
  have hk : k < 256 := by simpa using hk
  simp [localWeight, hk]

/-- BUILD starts from one leaf for each symbol present. -/
theorem length_treeLeaves (freq : Vector Word 256) : (treeLeaves freq).length = presentSymbols freq :=
  calc (treeLeaves freq).length
      = ((List.range 256).map (localWeight freq [])).countP (fun w => decide (0 < w)) := by
        rw [List.countP_map, List.countP_eq_length_filter]
        rfl
    _ = presentSymbols freq := by
        rw [← map_toNat_toList_freq, List.countP_map]
        rfl

/-- The symbols that are no leaf add nothing to the sum of FREQ. -/
theorem sum_treeLeaves (freq : Vector Word 256) :
    ((treeLeaves freq).map (localWeight freq [])).sum = freqSum freq := by
  have hpos : (fun k => decide (0 < localWeight freq [] k)) = (· != 0) ∘ localWeight freq [] :=
    funext fun k => Bool.eq_iff_iff.mpr (by simp [Nat.pos_iff_ne_zero])
  calc ((treeLeaves freq).map (localWeight freq [])).sum
      = (((List.range 256).map (localWeight freq [])).filter (· != 0)).sum := by rw [treeLeaves, hpos, List.filter_map]
    _ = freqSum freq := by rw [List.sum_filter_bne_zero, ← map_toNat_toList_freq, freqSum]

theorem lt_of_mem_treeLeaves {freq : Vector Word 256} {id : Nat} (h : id ∈ treeLeaves freq) : id < 256 :=
  ((mem_treeLeaves freq id).mp h).1

theorem isTreeLeaf_iff (freq : Vector Word 256) (id : NodeId) : isTreeLeaf freq id ↔ id.toNat ∈ treeLeaves freq := by
  rw [mem_treeLeaves, isTreeLeaf, ← exists_prop]
  exact exists_congr fun hlt => by rw [Vector.getElem?_eq_getElem hlt, Option.getD_some]

/-! ### BUILD as a function of FREQ -/

/-- In phase COUNTED, BUILD runs its body. -/
theorem exec_hencBuild {s : State} (h : s.henc.phase = .counted) : exec .hencBuild s = (buildBody s).result :=
  prologue_of_legal (Bool.eq_false_iff.mpr (mt s.faulted_henc.mp (by simp [h]))) (by simp [legal, h]) buildBody

/-- With no symbol present BUILD fails. -/
theorem buildBody_of_no_leaf {s : State} (h : treeLeaves s.henc.freq = []) : buildBody s = buildFail s := by
  simp [buildBody, h]

/-- With a symbol present BUILD writes what its loop makes of the leaves. -/
theorem buildBody_of_leaves {s : State} (h : treeLeaves s.henc.freq ≠ []) :
    buildBody s = .done { s with henc := { s.henc with
      root := BitVec.ofNat 9
        ((mergeLoop s.henc.freq (treeLeaves s.henc.freq).length (treeLeaves s.henc.freq) []).1.headD 0),
      tree := tabulate 255
        (storedNode (mergeLoop s.henc.freq (treeLeaves s.henc.freq).length (treeLeaves s.henc.freq) []).2),
      phase := .tree } } := by
  simp [buildBody, h]

/-- Settles O23: with no symbol present both runs fail, else both write what the loop makes of the one FREQ. -/
theorem buildDependsOnFreqAlone : Obligations.BuildDependsOnFreqAlone := by
  intro s r t u hs hr hfreq ht hu
  rw [exec_hencBuild hs] at ht
  rw [exec_hencBuild hr] at hu
  by_cases hleaves : treeLeaves s.henc.freq = []
  · rw [buildBody_of_no_leaf hleaves] at ht
    rw [buildBody_of_no_leaf (hfreq ▸ hleaves)] at hu
    cases ht
    cases hu
    exact ⟨rfl, nofun⟩
  · rw [buildBody_of_leaves hleaves] at ht
    rw [buildBody_of_leaves (hfreq ▸ hleaves), ← hfreq] at hu
    cases ht
    cases hu
    exact ⟨rfl, fun _ => ⟨rfl, rfl⟩⟩

/-! ### One symbol present -/

/-- A symbol that alone is present is the only leaf. -/
theorem treeLeaves_eq_singleton {freq : Vector Word 256} {x : Byte}
    (h : ∀ k, (hk : k < 256) → (0 < freq[k].toNat ↔ k = x.toNat)) : treeLeaves freq = [x.toNat] := by
  refine List.perm_singleton.mp ((List.perm_ext_iff_of_nodup (treeLeaves_nodup freq) (List.nodup_singleton _)).mpr
    fun k => ?_)
  rw [mem_treeLeaves, List.mem_singleton]
  exact ⟨fun ⟨hk, hpos⟩ => (h k hk).mp hpos, fun hk => ⟨hk ▸ x.isLt, (h k _).mpr hk⟩⟩

/-- An image without nodes is stored as an all-zero TREE. -/
theorem tabulate_storedNode_nil : tabulate 255 (storedNode []) = Vector.replicate 255 ⟨0, 0, 0⟩ := by
  refine Vector.ext fun k hk => ?_
  rw [getElem_tabulate, Vector.getElem_replicate]
  rfl

/-- Settles O21: the loop ends at once, with the leaf in the collection and no node in the image. -/
theorem buildOfOneSymbolIsALeaf : Obligations.BuildOfOneSymbolIsALeaf := by
  intro s x hs hone
  have hleaves : treeLeaves s.henc.freq = [x.toNat] := treeLeaves_eq_singleton hone
  rw [exec_hencBuild hs, buildBody_of_leaves (by simp [hleaves]), hleaves, mergeLoop_single, tabulate_storedNode_nil,
    List.headD_cons, BitVec.ofNat_toNat, Stage.result_done]

end Sys2Proof.Machine
end

section
/-! SUPPORT. The shape of the tree BUILD makes (spec/42_tree.md R136): the nodes of the loop's image and their weights, the
image as TREE stores it, and the paths from ROOT. -/
namespace Sys2Proof.Machine

/-! ### Nodes of the local image -/

/-- A leaf, or one of the first `m` nodes of the image. -/
def localNode (leaves : List Nat) (m id : Nat) : Prop := id ∈ leaves ∨ (256 ≤ id ∧ id < 256 + m)

theorem localNode.mono {leaves : List Nat} {m m' id : Nat} (h : localNode leaves m id) (hm : m ≤ m') :
    localNode leaves m' id :=
  h.imp_right fun ⟨hge, hlt⟩ => ⟨hge, by omega⟩

theorem localNode.lt {leaves : List Nat} {m id : Nat} (h : localNode leaves m id) (hl : ∀ l ∈ leaves, l < 256) :
    id < 256 + m := by
  rcases h with hleaf | ⟨-, hlt⟩
  · exact Nat.lt_add_right m (hl id hleaf)
  · exact hlt

/-- The nodes of BUILD's image are those of its tree. -/
theorem isTreeNode_iff (freq : Vector Word 256) (n : Nat) (id : NodeId) :
    isTreeNode freq n id ↔ localNode (treeLeaves freq) (n - 1) id.toNat :=
  or_congr (isTreeLeaf_iff freq id) Iff.rfl

theorem localWeight_node (freq : Vector Word 256) {t : List LocalNode} {k : Nat} {n : LocalNode} (hn : t[k]? = some n) :
    localWeight freq t (256 + k) = n.w := by
  simp [localWeight, hn]

/-- The first `k` nodes decide the weights of the ids below `256 + k`. -/
theorem localWeight_take (freq : Vector Word 256) {t : List LocalNode} {k id : Nat} (hk : k ≤ t.length)
    (hid : id < 256 + k) : localWeight freq (t.take k) id = localWeight freq t id := by
  have happend := localWeight_append freq (t.take k) (t.drop k) id (by rwa [List.length_take_of_le hk])
  rw [← happend, List.take_append_drop]

section
variable {freq : Vector Word 256} {leaves q : List Nat} {t : List LocalNode} {k root id c : Nat} {n : LocalNode}

/-- The children of node `256 + k` are nodes made before it. -/
theorem MergeInv.localNode_child (hi : MergeInv freq leaves q t) (hn : t[k]? = some n) (hc : c ∈ [n.c0, n.c1]) :
    localNode leaves k c := by
  have hk : k ≤ t.length := (List.getElem?_eq_some_iff.mp hn).1.le
  have hm := hi.nodes k n hn
  have hoffer : localOffer leaves (t.take k) c := by
    rcases List.mem_pair.mp hc with rfl | rfl
    · exact hm.offer0
    · exact hm.offer1
  obtain ⟨hnode, -⟩ := hoffer
  rwa [List.length_take_of_le hk] at hnode

/-- The weight of a node is the sum of its children's. -/
theorem MergeInv.weight_eq (hi : MergeInv freq leaves q t) (hl : ∀ l ∈ leaves, l < 256) (hn : t[k]? = some n) :
    n.w = localWeight freq t n.c0 + localWeight freq t n.c1 := by
  have hk : k ≤ t.length := (List.getElem?_eq_some_iff.mp hn).1.le
  rw [(hi.nodes k n hn).weight, localWeight_take freq hk ((hi.localNode_child hn (by simp)).lt hl),
    localWeight_take freq hk ((hi.localNode_child hn (by simp)).lt hl)]

/-- The first child of a node is Before the second (R133). -/
theorem MergeInv.before_children (hi : MergeInv freq leaves q t) (hl : ∀ l ∈ leaves, l < 256) (hn : t[k]? = some n) :
    before (localWeight freq t) n.c0 n.c1 = true := by
  have hk : k ≤ t.length := (List.getElem?_eq_some_iff.mp hn).1.le
  have hm := hi.nodes k n hn
  have hbefore := hm.least0 n.c1 hm.offer1 hm.differ.symm
  rw [before_iff, localWeight_take freq hk ((hi.localNode_child hn (by simp)).lt hl),
    localWeight_take freq hk ((hi.localNode_child hn (by simp)).lt hl)] at hbefore
  exact (before_iff _ _ _).mpr hbefore

/-- Once one node is left in the collection, every other is a child. -/
theorem MergeInv.exists_parent (hi : MergeInv freq leaves [root] t) (hid : localNode leaves t.length id)
    (hne : id ≠ root) : ∃ (k : Nat) (n : LocalNode), t[k]? = some n ∧ id ∈ [n.c0, n.c1] := by
  have hchild : id ∈ localChildren t := by
    by_contra hnot
    exact hne (List.mem_singleton.mp ((hi.offer id).mpr ⟨hid, hnot⟩))
  obtain ⟨n, hn, hid⟩ := List.mem_flatMap.mp hchild
  obtain ⟨k, hk⟩ := List.mem_iff_getElem?.mp hn
  exact ⟨k, n, hk, hid⟩

/-- The node left in the collection is the one made last. -/
theorem MergeInv.root_eq (hi : MergeInv freq leaves [root] t) (hl : ∀ l ∈ leaves, l < 256) (ht : 0 < t.length) :
    root = 256 + (t.length - 1) := by
  by_contra hne
  obtain ⟨k, n, hn, hc⟩ := hi.exists_parent (.inr ⟨Nat.le_add_right _ _, by omega⟩) (Ne.symm hne)
  have hk : k < t.length := (List.getElem?_eq_some_iff.mp hn).1
  have hlt := (hi.localNode_child hn hc).lt hl
  omega

/-- The root weighs as much as all leaves together. -/
theorem MergeInv.weight_root (hi : MergeInv freq leaves [root] t) :
    localWeight freq t root = (leaves.map (localWeight freq [])).sum := by
  simpa using hi.total

/-- No node weighs more than the root, by induction from the root down. -/
theorem MergeInv.weight_le_root (hi : MergeInv freq leaves [root] t) (hl : ∀ l ∈ leaves, l < 256)
    (hid : localNode leaves t.length id) : localWeight freq t id ≤ localWeight freq t root := by
  induction hd : 256 + t.length - id using Nat.strong_induction_on generalizing id with
  | _ d ih =>
    by_cases hroot : id = root
    · rw [hroot]
    · obtain ⟨k, n, hn, hc⟩ := hi.exists_parent hid hroot
      have hk : k < t.length := (List.getElem?_eq_some_iff.mp hn).1
      have hlt : id < 256 + k := (hi.localNode_child hn hc).lt hl
      have hparent : localWeight freq t (256 + k) ≤ localWeight freq t root :=
        ih (256 + t.length - (256 + k)) (by omega) (.inr ⟨by omega, by omega⟩) rfl
      rw [localWeight_node freq hn, hi.weight_eq hl hn] at hparent
      rcases List.mem_pair.mp hc with rfl | rfl
      · omega
      · omega

end

/-! ### The image as TREE stores it -/

/-- The node of an image that an entry of TREE stands for. -/
def TreeNode.widen (x : TreeNode) : LocalNode := ⟨x.w.toNat, x.c0.toNat, x.c1.toNat⟩

/-- The child of an internal node that a bit of a path chooses (43_codes.md R146). -/
def TreeNode.child (x : TreeNode) (b : Bool) : NodeId := if b then x.c1 else x.c0

theorem TreeNode.toNat_child_mem (x : TreeNode) (b : Bool) : (x.child b).toNat ∈ [x.widen.c0, x.widen.c1] := by
  cases b
  · exact List.mem_cons_self
  · exact List.mem_cons_of_mem _ List.mem_cons_self

/-- TREE holds exactly the nodes of the image `t`, with no bit lost. -/
structure StoresImage (tree : Vector TreeNode 255) (t : List LocalNode) : Prop where
  length : t.length ≤ 255
  node   : ∀ k, (h : k < 255) → k < t.length → t[k]? = some tree[k].widen
  unused : ∀ k, (h : k < 255) → t.length ≤ k → tree[k] = ⟨0, 0, 0⟩

/-- An image whose numbers fit the fields of TREE is stored with no bit lost. -/
theorem storesImage_of_fits {t : List LocalNode} (hlen : t.length ≤ 255)
    (hfit : ∀ n ∈ t, n.w < 2 ^ 32 ∧ n.c0 < 2 ^ 9 ∧ n.c1 < 2 ^ 9) : StoresImage (tabulate 255 (storedNode t)) t where
  length := hlen
  node k h hk := by
    obtain ⟨hw, h0, h1⟩ := hfit t[k] (List.getElem_mem hk)
    rw [getElem_tabulate, storedNode, List.getElem?_eq_getElem hk]
    simp only [TreeNode.widen, word, BitVec.toNat_ofNat, Nat.mod_eq_of_lt hw, Nat.mod_eq_of_lt h0, Nat.mod_eq_of_lt h1]
  unused k h hk := by
    rw [getElem_tabulate, storedNode, List.getElem?_eq_none hk]

section
variable {tree : Vector TreeNode 255} {t : List LocalNode}

/-- The weight of every node is the weight in the image. -/
theorem StoresImage.nodeWeight_eq (hs : StoresImage tree t) (freq : Vector Word 256) (id : NodeId) :
    nodeWeight freq tree id = localWeight freq t id.toNat := by
  unfold nodeWeight localWeight
  by_cases hleaf : id.toNat < 256
  · rw [dif_pos hleaf, dif_pos hleaf]
  · rw [dif_neg hleaf, dif_neg hleaf]
    have hlen := hs.length
    by_cases hk : id.toNat - 256 < t.length
    · rw [hs.node _ (by omega) hk, Vector.getElem?_eq_getElem (by omega)]
      rfl
    · rw [List.getElem?_eq_none (by omega)]
      by_cases h255 : id.toNat - 256 < 255
      · rw [Vector.getElem?_eq_getElem h255, hs.unused _ h255 (by omega)]
        rfl
      · rw [Vector.getElem?_eq_none (by omega)]

/-- The first `k` nodes of the image are the first `k` entries of TREE. -/
theorem StoresImage.take_eq (hs : StoresImage tree t) {k : Nat} (hk : k ≤ t.length) :
    t.take k = (tree.toList.take k).map TreeNode.widen := by
  have hlen := hs.length
  refine List.ext_getElem (by simp; omega) fun j hj _ => ?_
  have hj : j < k ∧ j < t.length := by simpa using hj
  have hnode := hs.node j (by omega) hj.2
  rw [List.getElem?_eq_getElem hj.2] at hnode
  simpa using hnode

/-- The children stored in TREE are those of the image. -/
theorem StoresImage.map_childrenBelow (hs : StoresImage tree t) {k : Nat} (hk : k ≤ t.length) :
    (childrenBelow tree k).map BitVec.toNat = localChildren (t.take k) := by
  rw [hs.take_eq hk, localChildren, childrenBelow, List.map_flatMap, List.flatMap_map]
  rfl

end

section
variable {freq : Vector Word 256} {t : List LocalNode} {root : Nat}

theorem presentSymbols_le (freq : Vector Word 256) : presentSymbols freq ≤ 256 :=
  List.countP_le_length.trans_eq freq.length_toList

/-- With `n` symbols present the loop runs `n - 1` times (R132). -/
theorem MergeInv.length_eq (hi : MergeInv freq (treeLeaves freq) [root] t) :
    t.length + 1 = presentSymbols freq := by
  rw [← length_treeLeaves, ← hi.count]
  exact Nat.add_comm _ _

/-- BUILD's image fits TREE: no weight exceeds the sum of FREQ, and no id the 9 bits of a node id. -/
theorem MergeInv.storesImage (hi : MergeInv freq (treeLeaves freq) [root] t) (hsum : freqSum freq < 2 ^ 32) :
    StoresImage (tabulate 255 (storedNode t)) t := by
  have hl : ∀ l ∈ treeLeaves freq, l < 256 := fun _ => lt_of_mem_treeLeaves
  have hlen : t.length ≤ 255 := by
    have hn := hi.length_eq
    have hle := presentSymbols_le freq
    omega
  refine storesImage_of_fits hlen fun n hn => ?_
  obtain ⟨k, hk, rfl⟩ := List.mem_iff_getElem.mp hn
  have hnode := List.getElem?_eq_getElem hk
  have hw : localWeight freq t (256 + k) ≤ freqSum freq := by
    rw [← sum_treeLeaves, ← hi.weight_root]
    exact hi.weight_le_root hl (.inr ⟨by omega, by omega⟩)
  rw [localWeight_node freq hnode] at hw
  have h0 : t[k].c0 < 256 + k := (hi.localNode_child hnode (by simp)).lt hl
  have h1 : t[k].c1 < 256 + k := (hi.localNode_child hnode (by simp)).lt hl
  exact ⟨by omega, by omega, by omega⟩

/-- ROOT's 9 bits hold the node left in the collection. -/
theorem MergeInv.toNat_root (hi : MergeInv freq (treeLeaves freq) [root] t) : (BitVec.ofNat 9 root).toNat = root := by
  obtain ⟨hroot, -⟩ := (hi.offer root).mp (List.mem_singleton_self root)
  have hlt : root < 256 + t.length := localNode.lt hroot fun _ => lt_of_mem_treeLeaves
  have hn := hi.length_eq
  have hle := presentSymbols_le freq
  rw [BitVec.toNat_ofNat, Nat.mod_eq_of_lt (by omega)]

/-- Every node but ROOT is stored as a child exactly once. -/
theorem MergeInv.count_childrenBelow {tree : Vector TreeNode 255} {rootId id : NodeId}
    (hi : MergeInv freq (treeLeaves freq) [root] t) (hs : StoresImage tree t) (hroot : rootId.toNat = root)
    (hid : localNode (treeLeaves freq) t.length id.toNat) (hne : id ≠ rootId) :
    (childrenBelow tree t.length).count id = 1 := by
  have hmap : (childrenBelow tree t.length).map BitVec.toNat = localChildren t := by
    rw [hs.map_childrenBelow le_rfl, List.take_length]
  have hnodup : (childrenBelow tree t.length).Nodup := List.Nodup.of_map BitVec.toNat (hmap ▸ hi.children)
  have hmem : id.toNat ∈ localChildren t := by
    by_contra hnot
    have hq : id.toNat = root := List.mem_singleton.mp ((hi.offer id.toNat).mpr ⟨hid, hnot⟩)
    exact hne (BitVec.eq_of_toNat_eq (hq.trans hroot.symm))
  rw [← hmap, List.mem_map_of_injective fun _ _ => BitVec.eq_of_toNat_eq] at hmem
  exact List.count_eq_one_of_mem hnodup hmem

/-- The image of a finished loop, stored, has the shape of R136. -/
theorem MergeInv.treeInv {tree : Vector TreeNode 255} {rootId : NodeId}
    (hi : MergeInv freq (treeLeaves freq) [root] t) (hs : StoresImage tree t) (hroot : rootId.toNat = root) :
    TreeInv freq tree rootId (presentSymbols freq) := by
  have hl : ∀ l ∈ treeLeaves freq, l < 256 := fun _ => lt_of_mem_treeLeaves
  have hn : presentSymbols freq - 1 = t.length := by rw [← hi.length_eq, Nat.add_sub_cancel]
  have hchild : ∀ k, (h : k < 255) → k < presentSymbols freq - 1 → ∀ b,
      isTreeNode freq (presentSymbols freq) (tree[k].child b) ∧ (tree[k].child b).toNat < 256 + k := by
    intro k h hk b
    have hnode := hi.localNode_child (hs.node k h (by omega)) (tree[k].toNat_child_mem b)
    exact ⟨(isTreeNode_iff freq _ _).mpr (hnode.mono hk.le), hnode.lt hl⟩
  constructor
  case present => exact hi.length_eq ▸ Nat.le_add_left 1 _
  case rootLeaf =>
    intro hone
    obtain ⟨hnode, -⟩ := (hi.offer root).mp (List.mem_singleton_self root)
    rw [isTreeLeaf_iff, hroot]
    exact hnode.resolve_right (by omega)
  case rootInternal =>
    intro htwo
    have hlast := hi.root_eq hl (by omega)
    omega
  case weight =>
    intro k h hk
    rw [hs.nodeWeight_eq, hs.nodeWeight_eq]
    exact hi.weight_eq hl (hs.node k h (by omega))
  case firstChild => exact fun k h hk => hchild k h hk false
  case secondChild => exact fun k h hk => hchild k h hk true
  case ordered =>
    intro k h hk
    rw [nodeBefore, hs.nodeWeight_eq, hs.nodeWeight_eq]
    exact (before_iff _ _ _).mp (hi.before_children hl (hs.node k h (by omega)))
  case parent =>
    intro id hid hne
    rw [isTreeNode_iff, hn] at hid
    rw [hn]
    exact hi.count_childrenBelow hs hroot hid hne
  case unused => exact fun k h hk => hs.unused k h (by omega)

end

/-! ### Paths from ROOT -/

/-- The rule of one step, the children by their bit. (`delta`, since Lean does not derive this equation by itself: it
would count the literal 256 down.) -/
theorem follow_cons (tree : Vector TreeNode 255) (id : NodeId) (b : Bool) (c : Bits) :
    follow tree id (b :: c) =
      if id.toNat < 256 then none else tree[id.toNat - 256]?.bind fun x => follow tree (x.child b) c := by
  delta follow
  refine ite_congr rfl (fun _ => rfl) fun _ => ?_
  cases tree[id.toNat - 256]? with
  | none => rfl
  | some x => rfl

theorem follow_cons_internal {tree : Vector TreeNode 255} {id : NodeId} {k : Nat} (h : k < 255)
    (hid : id.toNat = 256 + k) (b : Bool) (c : Bits) :
    follow tree id (b :: c) = follow tree (tree[k].child b) c := by
  have hx : tree[id.toNat - 256]? = some tree[k] := by simp [hid, h]
  rw [follow_cons, if_neg (by omega), hx, Option.bind_some]

/-- A path goes on only from an internal node, to the child its next bit chooses. -/
theorem exists_of_follow_cons {tree : Vector TreeNode 255} {id m : NodeId} {b : Bool} {c : Bits}
    (hf : follow tree id (b :: c) = some m) :
    ∃ (k : Nat) (h : k < 255), id.toNat = 256 + k ∧ follow tree (tree[k].child b) c = some m := by
  rw [follow_cons] at hf
  split at hf
  · cases hf
  · next hleaf =>
    obtain ⟨x, hx, hf⟩ := Option.bind_eq_some_iff.mp hf
    obtain ⟨h, rfl⟩ := Vector.getElem?_eq_some_iff.mp hx
    exact ⟨id.toNat - 256, h, by omega, hf⟩

/-- A path goes on from where its first part leads. -/
theorem follow_append {tree : Vector TreeNode 255} {id m : NodeId} {c : Bits} (hf : follow tree id c = some m)
    (d : Bits) : follow tree id (c ++ d) = follow tree m d := by
  induction c generalizing id with
  | nil => rw [List.nil_append, Option.some.inj hf]
  | cons b c ih =>
    obtain ⟨k, h, hid, hf⟩ := exists_of_follow_cons hf
    rw [List.cons_append, follow_cons_internal h hid, ih hf]

/-- A stored child is a child of one of the entries that are read. -/
theorem exists_of_mem_childrenBelow {tree : Vector TreeNode 255} {m : Nat} {id : NodeId}
    (hid : id ∈ childrenBelow tree m) : ∃ (k : Nat) (h : k < 255), k < m ∧ ∃ b, tree[k].child b = id := by
  obtain ⟨x, hx, hid⟩ := List.mem_flatMap.mp hid
  obtain ⟨k, hk, rfl⟩ := List.mem_take_iff_getElem.mp hx
  have hk : k < m ∧ k < 255 := by simpa using hk
  rw [Vector.getElem_toList] at hid
  rcases List.mem_pair.mp hid with rfl | rfl
  · exact ⟨k, hk.2, hk.1, false, rfl⟩
  · exact ⟨k, hk.2, hk.1, true, rfl⟩

section
variable {freq : Vector Word 256} {tree : Vector TreeNode 255} {root : NodeId} {n : Nat}

theorem TreeInv.isTreeNode_root (hi : TreeInv freq tree root n) : isTreeNode freq n root := by
  rcases Nat.eq_or_lt_of_le hi.present with hone | htwo
  · exact .inl (hi.rootLeaf hone.symm)
  · have hroot := hi.rootInternal htwo
    exact .inr (by omega)

/-- Both children of an internal node are nodes made before it. -/
theorem TreeInv.isTreeNode_child (hi : TreeInv freq tree root n) {k : Nat} (h : k < 255) (hk : k < n - 1) (b : Bool) :
    isTreeNode freq n (tree[k].child b) ∧ (tree[k].child b).toNat < 256 + k := by
  cases b
  · exact hi.firstChild k h hk
  · exact hi.secondChild k h hk

/-- A path from a node of the tree stays in the tree. -/
theorem TreeInv.isTreeNode_of_follow (hi : TreeInv freq tree root n) {id m : NodeId} {c : Bits}
    (hid : isTreeNode freq n id) (hf : follow tree id c = some m) : isTreeNode freq n m := by
  induction c generalizing id with
  | nil => rwa [← Option.some.inj hf]
  | cons b c ih =>
    obtain ⟨k, h, hk, hf⟩ := exists_of_follow_cons hf
    obtain ⟨-, hlt⟩ := hid.resolve_left fun ⟨hleaf, _⟩ => by omega
    obtain ⟨hchild, -⟩ := hi.isTreeNode_child h (by omega) b
    exact ih hchild hf

/-- Every node of the tree lies on a path from ROOT: the path of its parent and one bit more. -/
theorem TreeInv.exists_follow (hi : TreeInv freq tree root n) {id : NodeId} (hid : isTreeNode freq n id) :
    ∃ c, follow tree root c = some id := by
  induction hd : 512 - id.toNat using Nat.strong_induction_on generalizing id with
  | _ d ih =>
    by_cases hroot : id = root
    · exact ⟨[], congrArg some hroot.symm⟩
    · have hmem : id ∈ childrenBelow tree (n - 1) := by
        rw [← List.count_pos_iff, hi.parent id hid hroot]
        exact Nat.one_pos
      obtain ⟨k, h, hk, b, rfl⟩ := exists_of_mem_childrenBelow hmem
      obtain ⟨-, hlt⟩ := hi.isTreeNode_child h hk b
      have hid : (BitVec.ofNat 9 (256 + k)).toNat = 256 + k := Nat.mod_eq_of_lt (by omega)
      have hparent : isTreeNode freq n (BitVec.ofNat 9 (256 + k)) := .inr (by omega)
      obtain ⟨c, hc⟩ := ih (512 - (256 + k)) (by omega) hparent (by rw [hid])
      exact ⟨c ++ [b], (follow_append hc [b]).trans (follow_cons_internal h hid b [])⟩

/-- Exactly the nodes of the tree are reached from ROOT. -/
theorem TreeInv.exists_follow_iff (hi : TreeInv freq tree root n) (id : NodeId) :
    (∃ c, follow tree root c = some id) ↔ isTreeNode freq n id :=
  ⟨fun ⟨_, hc⟩ => hi.isTreeNode_of_follow hi.isTreeNode_root hc, hi.exists_follow⟩

end

/-! ### BUILD with a symbol present -/

/-- Settles O22: the loop's image is stored with no bit lost, so the invariant of the loop gives the shape of the tree. -/
theorem builtTreeIsAStrictBinaryTree : Obligations.BuiltTreeIsAStrictBinaryTree := by
  intro s t hs hphase hpresent ht
  rw [exec_hencBuild hphase] at ht
  rcases buildBody_cases s with ⟨hleaves, -⟩ | ⟨-, root, image, hi, hbody⟩
  · rw [← length_treeLeaves, hleaves] at hpresent
    exact absurd hpresent (by decide)
  · rw [hbody] at ht
    cases ht
    have hsum : freqSum s.henc.freq < 2 ^ 32 := Nat.lt_of_le_of_lt hs.henc.freqSum (by decide)
    have hstored := hi.storesImage hsum
    have hinv := hi.treeInv hstored hi.toNat_root
    exact ⟨hinv, hinv.exists_follow_iff,
      by rw [hstored.nodeWeight_eq, hi.toNat_root, hi.weight_root, sum_treeLeaves]⟩

end Sys2Proof.Machine
end

section
/-! SUPPORT. InvLookup as the least symbol with a code (spec/43_codes.md R150). -/
namespace Sys2Proof.Machine

/-! ### The entries of a table -/

/-- The entry of symbol `x` is element `x` of the table's list. -/
theorem getElem_toList_eq_bySymbol {α : Type} (t : Vector α 256) (x : Byte) (h : x.toNat < t.toList.length) :
    t.toList[x.toNat] = bySymbol t x :=
  Vector.getElem_toList h

/-- The symbols name all entries of a table. -/
theorem mem_toList_iff_bySymbol {α : Type} {t : Vector α 256} {a : α} :
    a ∈ t.toList ↔ ∃ x : Byte, bySymbol t x = a := by
  rw [List.mem_iff_getElem]
  constructor
  · rintro ⟨k, hk, rfl⟩
    have hx : (BitVec.ofNat 8 k).toNat = k := Nat.mod_eq_of_lt (by simpa using hk)
    exact ⟨BitVec.ofNat 8 k, by simp [bySymbol, hx]⟩
  · rintro ⟨x, rfl⟩
    have hx : x.toNat < t.toList.length := by simpa using x.isLt
    exact ⟨x.toNat, hx, getElem_toList_eq_bySymbol t x hx⟩

/-! ### InvLookup -/

/-- The entry is that of the code `c`, as InvLookup tests it (43_codes.md R150). -/
def Entry.matchesCode (c : Bits) (e : Entry) : Bool := e.len.toNat == c.length && e.code == c

theorem matchesCode_bySymbol (t : Vector Entry 256) (c : Bits) (x : Byte) :
    (bySymbol t x).matchesCode c = true ↔ codeLen t x = c.length ∧ codeOf t x = c := by
  simp [Entry.matchesCode, codeLen, codeOf]

/-- A bitstring of at least one bit is searched for from symbol 0 up. -/
theorem invLookup_of_ne_nil (t : Vector Entry 256) {c : Bits} (hc : c ≠ []) :
    invLookup t c = (t.toList.findIdx? (Entry.matchesCode c)).map (BitVec.ofNat 8) :=
  if_neg (by simpa using hc)

theorem invLookup_eq_none_iff (t : Vector Entry 256) {c : Bits} (hc : c ≠ []) :
    invLookup t c = none ↔ ∀ x : Byte, ¬ (codeLen t x = c.length ∧ codeOf t x = c) := by
  rw [invLookup_of_ne_nil t hc, Option.map_eq_none_iff, List.findIdx?_eq_none_iff]
  simp only [mem_toList_iff_bySymbol, forall_exists_index, forall_apply_eq_imp_iff, ← Bool.not_eq_true,
    matchesCode_bySymbol]

/-- InvLookup finds the symbol whose number is the first matching index, since all indices fit a symbol. -/
theorem invLookup_eq_some_iff_findIdx? (t : Vector Entry 256) {c : Bits} (hc : c ≠ []) (x : Byte) :
    invLookup t c = some x ↔ t.toList.findIdx? (Entry.matchesCode c) = some x.toNat := by
  rw [invLookup_of_ne_nil t hc, Option.map_eq_some_iff]
  constructor
  · rintro ⟨k, hk, rfl⟩
    obtain ⟨hlt, -⟩ := List.findIdx?_eq_some_iff_getElem.mp hk
    rw [hk, BitVec.toNat_ofNat, Nat.mod_eq_of_lt (by simpa using hlt)]
  · exact fun hx => ⟨x.toNat, hx, BitVec.ofNat_toNat 8 x⟩

theorem invLookup_eq_some_iff (t : Vector Entry 256) {c : Bits} (hc : c ≠ []) (x : Byte) :
    invLookup t c = some x ↔
      (codeLen t x = c.length ∧ codeOf t x = c) ∧
        ∀ y : Byte, y.toNat < x.toNat → ¬ (codeLen t y = c.length ∧ codeOf t y = c) := by
  have hlen (y : Byte) : y.toNat < t.toList.length := by simpa using y.isLt
  rw [invLookup_eq_some_iff_findIdx? t hc, List.findIdx?_eq_some_iff_getElem, exists_prop_of_true (hlen x),
    getElem_toList_eq_bySymbol, matchesCode_bySymbol]
  refine and_congr_right fun _ => ⟨fun h y hy => ?_, fun h k hk => ?_⟩
  · rw [← matchesCode_bySymbol, ← getElem_toList_eq_bySymbol t y (hlen y)]
    exact h y.toNat hy
  · have hy : (BitVec.ofNat 8 k).toNat = k := Nat.mod_eq_of_lt (by omega)
    have hno := h (BitVec.ofNat 8 k) (hy.trans_lt hk)
    rw [← matchesCode_bySymbol, ← getElem_toList_eq_bySymbol t _ (hlen _)] at hno
    simpa only [hy] using hno

/-- Settles O28: the search answers the first matching index of the table, and none when no entry matches. -/
theorem invLookupIsTheLeastMatchingSymbol : Obligations.InvLookupIsTheLeastMatchingSymbol := fun t _ hlen =>
  have hc := List.ne_nil_of_length_pos hlen
  ⟨invLookup_eq_none_iff t hc, invLookup_eq_some_iff t hc⟩

end Sys2Proof.Machine
end

section
/-! SUPPORT. GENCODES: the code a tree gives each symbol, the visits of the traversal, and the table they make
(spec/43_codes.md R145 to R148). -/
namespace Sys2Proof.Machine

/-! ### The leaf of a symbol -/

/-- The leaf of a symbol has the symbol's number (10_state.md R28). -/
theorem toNat_setWidth_nine (x : Byte) : (x.setWidth 9).toNat = x.toNat := BitVec.toNat_setWidth_of_le (by decide)

theorem toNat_setWidth_nine_lt (x : Byte) : (x.setWidth 9).toNat < 256 := (toNat_setWidth_nine x).trans_lt x.isLt

theorem setWidth_nine_eq_iff {x : Byte} {id : NodeId} : x.setWidth 9 = id ↔ x.toNat = id.toNat := by
  rw [← BitVec.toNat_inj, toNat_setWidth_nine]

theorem setWidth_nine_inj {x y : Byte} : x.setWidth 9 = y.setWidth 9 ↔ x = y := by
  rw [setWidth_nine_eq_iff, toNat_setWidth_nine, BitVec.toNat_inj]

/-! ### Entries made from bitstrings -/

section
variable {c : Bits} (h : c.length ≤ 255)
include h

theorem toNat_len_entryOf : (entryOf c).len.toNat = c.length :=
  Nat.mod_eq_of_lt (by omega)

theorem toNat_bits_entryOf : (entryOf c).bits.toNat = bitsValue c :=
  Nat.mod_eq_of_lt ((bitsValue_lt c).trans_le (Nat.pow_le_pow_right Nat.two_pos h))

/-- `Code(Entry(c)) = c` (30_encoding.md R96). -/
theorem code_entryOf : (entryOf c).code = c := by
  have hlen := toNat_len_entryOf h
  refine List.ext_getElem (by rw [Entry.length_code, hlen]) fun i _ hi => ?_
  have hlast : c.length - 1 - (c.length - 1 - i) = i := by omega
  rw [Entry.getElem_code, hlen, ← BitVec.testBit_toNat, toNat_bits_entryOf h, testBit_bitsValue _ _ (by omega)]
  simp only [hlast]

end

/-! ### The table of a list of visits -/

section
variable {v : List (Nat × Bits)} {x : Byte} {c : Bits}

theorem bySymbol_tableOf (v : List (Nat × Bits)) (x : Byte) :
    bySymbol (tableOf v) x = ((v.reverse.find? fun p => p.1 == x.toNat).map fun p => entryOf p.2).getD ⟨0, 0⟩ := by
  rw [tableOf, bySymbol_tabulate]
  cases v.reverse.find? fun p => p.1 == x.toNat <;> rfl

/-- A symbol visited with one bitstring only gets the entry of that bitstring. -/
theorem bySymbol_tableOf_of_mem (hmem : (x.toNat, c) ∈ v) (hunique : ∀ d, (x.toNat, d) ∈ v → d = c) :
    bySymbol (tableOf v) x = entryOf c := by
  rw [bySymbol_tableOf]
  cases hfind : v.reverse.find? fun p => p.1 == x.toNat with
  | none =>
    have hno := List.find?_eq_none.mp hfind (x.toNat, c) (List.mem_reverse.mpr hmem)
    simp at hno
  | some p =>
    obtain ⟨k, d⟩ := p
    obtain rfl : k = x.toNat := by simpa using List.find?_some hfind
    have hd : (x.toNat, d) ∈ v := List.mem_reverse.mp (List.mem_of_find?_eq_some hfind)
    rw [hunique d hd]
    rfl

/-- A symbol not visited gets the zero entry. -/
theorem bySymbol_tableOf_of_not_mem (hno : ∀ d, (x.toNat, d) ∉ v) : bySymbol (tableOf v) x = ⟨0, 0⟩ := by
  have hfind : (v.reverse.find? fun p => p.1 == x.toNat) = none := by
    refine List.find?_eq_none.mpr fun p hp hx => ?_
    obtain ⟨k, d⟩ := p
    obtain rfl : k = x.toNat := by simpa using hx
    exact hno d (List.mem_reverse.mp hp)
  rw [bySymbol_tableOf, hfind]
  rfl

end

/-! ### GENCODES in phase TREE -/

theorem exec_hencGencodes {s : State} (h : s.henc.phase = .tree) : exec .hencGencodes s = (gencodesBody s).result :=
  prologue_of_legal (Bool.eq_false_iff.mpr (mt s.faulted_henc.mp (by simp [h]))) (by simp [legal, h]) gencodesBody

/-- When the traversal ends with the visits `v`, GENCODES writes their table. -/
theorem exec_hencGencodes_of_rootCodes {s : State} {v : List (Nat × Bits)} (h : s.henc.phase = .tree)
    (hv : rootCodes s.henc.tree s.henc.root = .ok v) :
    exec .hencGencodes s = .next { s with henc := { s.henc with codeTab := tableOf v, phase := .codes } } := by
  rw [exec_hencGencodes h, gencodesBody, hv]
  rfl

theorem rootCodes_of_leaf (tree : Vector TreeNode 255) {root : NodeId} (h : root.toNat < 256) :
    rootCodes tree root = .ok [(root.toNat, [false])] :=
  if_pos h

theorem rootCodes_of_internal (tree : Vector TreeNode 255) {root : NodeId} (h : ¬ root.toNat < 256) :
    rootCodes tree root = leafCodes tree 256 root [] :=
  if_neg h


/-- Settles O25: the one visit is that of ROOT with the bitstring "0". -/
theorem gencodesOfALeafRootIsOneZeroBit : Obligations.GencodesOfALeafRootIsOneZeroBit := by
  intro s hphase hroot
  refine ⟨_, exec_hencGencodes_of_rootCodes hphase (rootCodes_of_leaf _ hroot), fun x => ?_⟩
  split
  · next hx =>
    rw [setWidth_nine_eq_iff] at hx
    exact bySymbol_tableOf_of_mem (c := [false]) (by simp [hx]) (by simp)
  · next hx =>
    rw [setWidth_nine_eq_iff] at hx
    exact bySymbol_tableOf_of_not_mem (by simp [hx])

/-! ### Paths to the leaves -/

section
variable {tree : Vector TreeNode 255} {id m : NodeId} {x : Byte} {b : Bool} {c d : Bits}

@[simp] theorem follow_nil (tree : Vector TreeNode 255) (id : NodeId) : follow tree id [] = some id := rfl

/-- No path goes on from a leaf. -/
theorem follow_of_leaf (h : id.toNat < 256) : follow tree id c = some m ↔ c = [] ∧ id = m := by
  cases c with
  | nil => simp [follow_nil]
  | cons b c => simp [follow_cons, h]

/-- A path leads through the node where its first part ends. -/
theorem exists_of_follow_append (hf : follow tree id (c ++ d) = some m) :
    ∃ p, follow tree id c = some p ∧ follow tree p d = some m := by
  induction c generalizing id with
  | nil => exact ⟨id, rfl, hf⟩
  | cons b c ih =>
    obtain ⟨k, h, hid, hf⟩ := exists_of_follow_cons hf
    rw [follow_cons_internal h hid]
    exact ih hf

/-- No leaf lies on the path to another, so a path to a leaf is the beginning of no other one (43_codes.md R148 (c)). -/
theorem eq_of_follow_prefix {y : Byte} (hx : follow tree id c = some (x.setWidth 9))
    (hy : follow tree id d = some (y.setWidth 9)) (hp : c <+: d) : x = y := by
  obtain ⟨e, rfl⟩ := hp
  rw [follow_append hx, follow_of_leaf (toNat_setWidth_nine_lt x)] at hy
  exact setWidth_nine_inj.mp hy.2

end

/-! ### The visits of the traversal -/

section
variable {tree : Vector TreeNode 255} {depth : Nat} {id : NodeId} {c : Bits} {v : List (Nat × Bits)}

/-- The two ways the traversal ends with visits: at a leaf, or after both children of an internal node. -/
theorem leafCodes_cases (hv : leafCodes tree depth id c = .ok v) :
    (id.toNat < 256 ∧ v = [(id.toNat, c)]) ∨
    ∃ (depth' k : Nat) (h : k < 255) (v0 v1 : List (Nat × Bits)), depth = depth' + 1 ∧ id.toNat = 256 + k ∧
      leafCodes tree depth' (tree[k].child false) (c ++ [false]) = .ok v0 ∧
      leafCodes tree depth' (tree[k].child true) (c ++ [true]) = .ok v1 ∧ v = v0 ++ v1 := by
  cases depth with
  | zero => cases hv
  | succ depth =>
    simp only [leafCodes] at hv
    split at hv
    · next hleaf => exact .inl ⟨hleaf, (Except.ok.inj hv).symm⟩
    · split at hv
      · next h =>
        split at hv
        · cases hv
        · next v0 h0 =>
          split at hv
          · cases hv
          · next v1 h1 =>
            exact .inr ⟨depth, id.toNat - 256, h, v0, v1, rfl, by omega, h0, h1, (Except.ok.inj hv).symm⟩
      · cases hv

/-- The traversal visits the leaf of a symbol with exactly the bitstrings that extend `c` by a path to it. -/
theorem mem_leafCodes_iff (hv : leafCodes tree depth id c = .ok v) (x : Byte) (e : Bits) :
    (x.toNat, e) ∈ v ↔ ∃ d, follow tree id d = some (x.setWidth 9) ∧ e = c ++ d := by
  induction depth generalizing id c v with
  | zero => cases hv
  | succ depth ih =>
    rcases leafCodes_cases hv with ⟨hleaf, rfl⟩ | ⟨_, k, h, v0, v1, hdepth, hid, h0, h1, rfl⟩
    · simp [follow_of_leaf hleaf, eq_comm (a := id), setWidth_nine_eq_iff, and_assoc]
    · obtain rfl := Nat.succ.inj hdepth
      rw [List.mem_append, ih h0, ih h1]
      constructor
      · rintro (⟨d, hd, rfl⟩ | ⟨d, hd, rfl⟩)
        · exact ⟨false :: d, by rwa [follow_cons_internal h hid], by simp⟩
        · exact ⟨true :: d, by rwa [follow_cons_internal h hid], by simp⟩
      · rintro ⟨d, hd, rfl⟩
        cases d with
        | nil =>
          have hx := toNat_setWidth_nine_lt x
          rw [← Option.some.inj hd] at hx
          omega
        | cons b d =>
          rw [follow_cons_internal h hid] at hd
          cases b
          · exact .inl ⟨d, hd, by simp⟩
          · exact .inr ⟨d, hd, by simp⟩

end

/-! ### The paths of a built tree -/

/-- A list of pairs of children holds the children of node `k` at `2 k` and `2 k + 1`. -/
theorem getElem?_flatMap_children (l : List TreeNode) (k : Nat) (b : Bool) :
    (l.flatMap fun x => [x.c0, x.c1])[2 * k + b.toNat]? = l[k]?.map fun x => x.child b := by
  induction l generalizing k with
  | nil => rfl
  | cons x l ih =>
    cases k with
    | zero => cases b <;> rfl
    | succ k =>
      have hindex : 2 * (k + 1) + b.toNat = 2 * k + b.toNat + 1 + 1 := by omega
      rw [List.flatMap_cons, List.cons_append, List.singleton_append, hindex, List.getElem?_cons_succ,
        List.getElem?_cons_succ, ih, List.getElem?_cons_succ]

theorem getElem?_childrenBelow {tree : Vector TreeNode 255} {m k : Nat} (h : k < 255) (hk : k < m) (b : Bool) :
    (childrenBelow tree m)[2 * k + b.toNat]? = some (tree[k].child b) := by
  rw [childrenBelow, getElem?_flatMap_children, List.getElem?_take_of_lt hk, Vector.getElem?_toList,
    Vector.getElem?_eq_getElem h, Option.map_some]

section
variable {freq : Vector Word 256} {tree : Vector TreeNode 255} {root m : NodeId} {n k j : Nat} {b a : Bool} {c d : Bits}

/-- ROOT is no child: it was made last. -/
theorem TreeInv.child_ne_root (hi : TreeInv freq tree root n) (h : k < 255) (hk : k < n - 1) (b : Bool) :
    tree[k].child b ≠ root := by
  intro heq
  obtain ⟨-, hlt⟩ := hi.isTreeNode_child h hk b
  have hroot := hi.rootInternal (by omega)
  rw [heq] at hlt
  omega

/-- No node is stored twice as a child. -/
theorem TreeInv.nodup_childrenBelow (hi : TreeInv freq tree root n) : (childrenBelow tree (n - 1)).Nodup := by
  refine List.nodup_iff_count_le_one.mpr fun id => ?_
  by_cases hid : id ∈ childrenBelow tree (n - 1)
  · obtain ⟨k, h, hk, b, rfl⟩ := exists_of_mem_childrenBelow hid
    exact (hi.parent _ (hi.isTreeNode_child h hk b).1 (hi.child_ne_root h hk b)).le
  · rw [List.count_eq_zero_of_not_mem hid]
    exact Nat.zero_le 1

/-- A node has one parent, and is one of its two children only. -/
theorem TreeInv.eq_of_child_eq (hi : TreeInv freq tree root n) (h : k < 255) (hk : k < n - 1) (h' : j < 255)
    (hj : j < n - 1) (heq : tree[k].child b = tree[j].child a) : k = j ∧ b = a := by
  have hkb := getElem?_childrenBelow (tree := tree) h hk b
  have hja := getElem?_childrenBelow (tree := tree) h' hj a
  obtain ⟨hlt, -⟩ := List.getElem?_eq_some_iff.mp hkb
  have hindex := (List.getElem?_inj hlt hi.nodup_childrenBelow).mp (hkb.trans (heq ▸ hja.symm))
  have hb := b.toNat_lt
  have ha := a.toNat_lt
  have hbit : ∀ b a : Bool, b.toNat = a.toNat → b = a := by decide
  exact ⟨by omega, hbit b a (by omega)⟩

/-- The last step of a path from ROOT goes from an internal node of the tree to a child of it. -/
theorem TreeInv.exists_of_follow_concat (hi : TreeInv freq tree root n) (hf : follow tree root (c ++ [b]) = some m) :
    ∃ (p : NodeId) (k : Nat) (h : k < 255), k < n - 1 ∧ p.toNat = 256 + k ∧ follow tree root c = some p ∧
      tree[k].child b = m := by
  obtain ⟨p, hp, hm⟩ := exists_of_follow_append hf
  obtain ⟨k, h, hk, hm⟩ := exists_of_follow_cons hm
  have hnode := hi.isTreeNode_of_follow hi.isTreeNode_root hp
  obtain ⟨-, hlt⟩ := hnode.resolve_left fun ⟨hleaf, _⟩ => by omega
  exact ⟨p, k, h, by omega, hk, hp, Option.some.inj hm⟩

/-- A node of the tree has one path from ROOT, by induction from the node back to ROOT. -/
theorem TreeInv.eq_of_follow_eq (hi : TreeInv freq tree root n) (hc : follow tree root c = some m)
    (hd : follow tree root d = some m) : c = d := by
  induction c using List.reverseRecOn generalizing d m with
  | nil =>
    cases d using List.reverseRecOn with
    | nil => rfl
    | append_singleton d a =>
      obtain ⟨_, j, h', hj, -, -, hm⟩ := hi.exists_of_follow_concat hd
      exact absurd (hm.trans (Option.some.inj hc).symm) (hi.child_ne_root h' hj a)
  | append_singleton c b ih =>
    obtain ⟨p, k, h, hk, hp, hc, rfl⟩ := hi.exists_of_follow_concat hc
    cases d using List.reverseRecOn with
    | nil => exact absurd (Option.some.inj hd).symm (hi.child_ne_root h hk b)
    | append_singleton d a =>
      obtain ⟨q, j, h', hj, hq, hd', heq⟩ := hi.exists_of_follow_concat hd
      obtain ⟨rfl, rfl⟩ := hi.eq_of_child_eq h' hj h hk heq
      obtain rfl : q = p := BitVec.eq_of_toNat_eq (hq.trans hp.symm)
      rw [ih hc hd']

/-- A path goes down through the internal nodes made before the one it starts from. -/
theorem TreeInv.length_le_of_follow (hi : TreeInv freq tree root n) {id : NodeId} (hid : isTreeNode freq n id)
    (hf : follow tree id c = some m) : c.length ≤ id.toNat - 255 := by
  induction c generalizing id with
  | nil => exact Nat.zero_le _
  | cons b c ih =>
    obtain ⟨k, h, hk, hf⟩ := exists_of_follow_cons hf
    obtain ⟨-, hlt⟩ := hid.resolve_left fun ⟨hleaf, _⟩ => by omega
    obtain ⟨hchild, hchildlt⟩ := hi.isTreeNode_child h (by omega) b
    have hlen := ih hchild hf
    rw [List.length_cons]
    omega

/-- Every infinite bit sequence leads from a node of the tree to a leaf (43_codes.md R148 (d)). -/
theorem TreeInv.exists_leaf_along (hi : TreeInv freq tree root n) (hn : n ≤ 256) {id : NodeId}
    (hid : isTreeNode freq n id) (f : Nat → Bool) :
    ∃ (l : Nat) (x : Byte), follow tree id ((List.range l).map f) = some (x.setWidth 9) := by
  induction hd : id.toNat using Nat.strong_induction_on generalizing id f with
  | _ w ih =>
    subst hd
    rcases hid with ⟨hleaf, -⟩ | ⟨hge, hlt⟩
    · refine ⟨0, BitVec.ofNat 8 id.toNat, congrArg some (setWidth_nine_eq_iff.mpr ?_).symm⟩
      exact Nat.mod_eq_of_lt hleaf
    · obtain ⟨k, hk⟩ := Nat.exists_eq_add_of_le hge
      have h : k < 255 := by omega
      obtain ⟨hchild, hchildlt⟩ := hi.isTreeNode_child h (by omega) (f 0)
      obtain ⟨l, x, hx⟩ := ih _ (by omega) hchild (f ∘ Nat.succ) rfl
      exact ⟨l + 1, x, by rwa [List.range_succ_eq_map, List.map_cons, List.map_map, follow_cons_internal h hk]⟩

end

/-! ### The code of a symbol -/

/-- `c` is the code that the tree below `root` gives symbol `x`: the path to its leaf (43_codes.md R146), or "0" when
`root` is that leaf itself (R147). -/
def treeCode (tree : Vector TreeNode 255) (root : NodeId) (x : Byte) (c : Bits) : Prop :=
  if root.toNat < 256 then x.setWidth 9 = root ∧ c = [false] else follow tree root c = some (x.setWidth 9)

section
variable {tree : Vector TreeNode 255} {root : NodeId} {x y : Byte} {c d : Bits} {v : List (Nat × Bits)}

theorem treeCode_of_leaf (h : root.toNat < 256) : treeCode tree root x c ↔ x.setWidth 9 = root ∧ c = [false] :=
  iff_of_eq (if_pos h)

theorem treeCode_of_internal (h : ¬ root.toNat < 256) :
    treeCode tree root x c ↔ follow tree root c = some (x.setWidth 9) :=
  iff_of_eq (if_neg h)

/-- The visits are exactly the codes of the tree. -/
theorem mem_rootCodes_iff (hv : rootCodes tree root = .ok v) (x : Byte) (c : Bits) :
    (x.toNat, c) ∈ v ↔ treeCode tree root x c := by
  by_cases hroot : root.toNat < 256
  · rw [rootCodes_of_leaf tree hroot] at hv
    rw [treeCode_of_leaf hroot, ← Except.ok.inj hv, List.mem_singleton, Prod.mk_inj, setWidth_nine_eq_iff]
  · rw [rootCodes_of_internal tree hroot] at hv
    rw [treeCode_of_internal hroot, mem_leafCodes_iff hv]
    simp

/-- A symbol has a code exactly when its leaf is reached from ROOT. -/
theorem exists_treeCode_iff (tree : Vector TreeNode 255) (root : NodeId) (x : Byte) :
    (∃ c, treeCode tree root x c) ↔ ∃ c, follow tree root c = some (x.setWidth 9) := by
  by_cases hroot : root.toNat < 256
  · simp [treeCode_of_leaf hroot, follow_of_leaf hroot, eq_comm (a := root)]
  · simp only [treeCode_of_internal hroot]

/-- No code is the beginning of another symbol's (43_codes.md R148 (c)). -/
theorem eq_of_treeCode_prefix (hx : treeCode tree root x c) (hy : treeCode tree root y d) (hp : c <+: d) : x = y := by
  by_cases hroot : root.toNat < 256
  · rw [treeCode_of_leaf hroot] at hx hy
    exact setWidth_nine_inj.mp (hx.1.trans hy.1.symm)
  · rw [treeCode_of_internal hroot] at hx hy
    exact eq_of_follow_prefix hx hy hp

end

/-! ### The table of a built tree -/

theorem one_le_codeLen_iff (t : Vector Entry 256) (x : Byte) : 1 ≤ codeLen t x ↔ (bySymbol t x).len ≠ 0 := by
  rw [codeLen, Nat.one_le_iff_ne_zero, ne_eq, ne_eq, ← BitVec.toNat_inj]
  rfl

@[simp] theorem length_codeOf (t : Vector Entry 256) (x : Byte) : (codeOf t x).length = codeLen t x :=
  Entry.length_code _

section
variable {freq : Vector Word 256} {tree : Vector TreeNode 255} {root : NodeId} {x : Byte} {c d : Bits}
  {v : List (Nat × Bits)}

/-- A code has 1 to 255 bits (43_codes.md R148). -/
theorem TreeInv.length_treeCode (hi : TreeInv freq tree root (presentSymbols freq)) (hc : treeCode tree root x c) :
    1 ≤ c.length ∧ c.length ≤ 255 := by
  by_cases hroot : root.toNat < 256
  · obtain ⟨-, rfl⟩ := (treeCode_of_leaf hroot).mp hc
    decide
  · rw [treeCode_of_internal hroot] at hc
    have hle := presentSymbols_le freq
    have hbound := hi.length_le_of_follow hi.isTreeNode_root hc
    constructor
    · refine List.length_pos_iff.mpr ?_
      rintro rfl
      exact hroot (Option.some.inj hc ▸ toNat_setWidth_nine_lt x)
    · rcases hi.isTreeNode_root with ⟨hleaf, -⟩ | ⟨-, hlt⟩
      · exact absurd hleaf hroot
      · omega

theorem TreeInv.treeCode_unique (hi : TreeInv freq tree root (presentSymbols freq)) (hc : treeCode tree root x c)
    (hd : treeCode tree root x d) : d = c := by
  by_cases hroot : root.toNat < 256
  · rw [treeCode_of_leaf hroot] at hc hd
    rw [hc.2, hd.2]
  · rw [treeCode_of_internal hroot] at hc hd
    exact hi.eq_of_follow_eq hd hc

/-- The entry of a symbol: that of its code, or the zero entry when the tree gives it none. -/
theorem TreeInv.bySymbol_tableOf_cases (hi : TreeInv freq tree root (presentSymbols freq))
    (hv : rootCodes tree root = .ok v) (x : Byte) :
    (∃ c, treeCode tree root x c ∧ bySymbol (tableOf v) x = entryOf c) ∨
    ((∀ c, ¬ treeCode tree root x c) ∧ bySymbol (tableOf v) x = ⟨0, 0⟩) := by
  by_cases hx : ∃ c, treeCode tree root x c
  · obtain ⟨c, hc⟩ := hx
    refine .inl ⟨c, hc, bySymbol_tableOf_of_mem ((mem_rootCodes_iff hv x c).mpr hc) fun d hd => ?_⟩
    exact hi.treeCode_unique hc ((mem_rootCodes_iff hv x d).mp hd)
  · rw [not_exists] at hx
    exact .inr ⟨hx, bySymbol_tableOf_of_not_mem fun d hd => hx d ((mem_rootCodes_iff hv x d).mp hd)⟩

/-- The table holds exactly the codes of the tree. -/
theorem TreeInv.treeCode_iff (hi : TreeInv freq tree root (presentSymbols freq)) (hv : rootCodes tree root = .ok v)
    (x : Byte) (c : Bits) :
    treeCode tree root x c ↔ 1 ≤ codeLen (tableOf v) x ∧ codeOf (tableOf v) x = c := by
  rw [codeLen, codeOf]
  rcases hi.bySymbol_tableOf_cases hv x with ⟨d, hd, hentry⟩ | ⟨hno, hentry⟩
  · obtain ⟨hpos, hle⟩ := hi.length_treeCode hd
    rw [hentry, toNat_len_entryOf hle, code_entryOf hle]
    exact ⟨fun hc => ⟨hpos, hi.treeCode_unique hc hd⟩, fun ⟨_, hc⟩ => hc ▸ hd⟩
  · rw [hentry]
    exact ⟨fun hc => absurd hc (hno c), fun ⟨hpos, _⟩ => absurd hpos (by decide)⟩

/-- BITS is zero at and above LEN (43_codes.md R148 (e)). -/
theorem TreeInv.bits_tableOf_lt (hi : TreeInv freq tree root (presentSymbols freq)) (hv : rootCodes tree root = .ok v)
    (x : Byte) : (bySymbol (tableOf v) x).bits.toNat < 2 ^ codeLen (tableOf v) x := by
  rw [codeLen]
  rcases hi.bySymbol_tableOf_cases hv x with ⟨c, hc, hentry⟩ | ⟨-, hentry⟩
  · obtain ⟨-, hle⟩ := hi.length_treeCode hc
    rw [hentry, toNat_len_entryOf hle, toNat_bits_entryOf hle]
    exact bitsValue_lt c
  · rw [hentry]
    decide

/-- The symbols with a code are those present (43_codes.md R148 (a)). -/
theorem TreeInv.exists_treeCode_iff_present (hi : TreeInv freq tree root (presentSymbols freq)) (x : Byte) :
    (∃ c, treeCode tree root x c) ↔ 0 < (bySymbol freq x).toNat := by
  have hx := x.isLt
  rw [exists_treeCode_iff, hi.exists_follow_iff, isTreeNode, isTreeLeaf, toNat_setWidth_nine,
    Vector.getElem?_eq_getElem hx, Option.getD_some]
  exact ⟨fun h => (h.resolve_right (by omega)).2, fun h => .inl ⟨hx, h⟩⟩

/-- With an internal ROOT every infinite bit sequence begins with the code of exactly one symbol (R148 (d)). -/
theorem TreeInv.existsUnique_treeCode_along (hi : TreeInv freq tree root (presentSymbols freq))
    (hroot : ¬ root.toNat < 256) (f : Nat → Bool) :
    ∃! x : Byte, ∃ l, treeCode tree root x ((List.range l).map f) := by
  obtain ⟨l, x, hx⟩ := hi.exists_leaf_along (presentSymbols_le freq) hi.isTreeNode_root f
  have hx := (treeCode_of_internal hroot).mpr hx
  have hprefix {a b : Nat} (hab : a ≤ b) : (List.range a).map f <+: (List.range b).map f := by
    rw [← Nat.min_eq_left hab, ← List.take_range]
    exact (List.take_prefix _ _).map f
  refine ⟨x, ⟨l, hx⟩, fun y ⟨m, hy⟩ => ?_⟩
  rcases Nat.le_total m l with hle | hle
  · exact eq_of_treeCode_prefix hy hx (hprefix hle)
  · exact (eq_of_treeCode_prefix hx hy (hprefix hle)).symm

/-- A sequence begins with a code of the tree exactly when it begins with the code of the table. -/
theorem TreeInv.exists_treeCode_along_iff (hi : TreeInv freq tree root (presentSymbols freq))
    (hv : rootCodes tree root = .ok v) (f : Nat → Bool) (x : Byte) :
    (∃ l, treeCode tree root x ((List.range l).map f)) ↔
      1 ≤ codeLen (tableOf v) x ∧ codeOf (tableOf v) x = (List.range (codeLen (tableOf v) x)).map f := by
  refine ⟨fun ⟨l, hl⟩ => ?_, fun h => ⟨_, (hi.treeCode_iff hv x _).mpr h⟩⟩
  obtain ⟨hpos, hcode⟩ := (hi.treeCode_iff hv x _).mp hl
  have hlen : codeLen (tableOf v) x = l := by rw [← length_codeOf, hcode, List.length_map, List.length_range]
  exact ⟨hpos, by rw [hlen, hcode]⟩

/-- The paths to the two children of an internal node differ in the last bit alone (43_codes.md R148 (f)). -/
theorem TreeInv.exists_follow_children {n k : Nat} (hi : TreeInv freq tree root n) (h : k < 255) (hk : k < n - 1) :
    ∃ p, ∀ b, follow tree root (p ++ [b]) = some (tree[k].child b) := by
  have hid : (BitVec.ofNat 9 (256 + k)).toNat = 256 + k := Nat.mod_eq_of_lt (by omega)
  obtain ⟨p, hp⟩ := hi.exists_follow (id := BitVec.ofNat 9 (256 + k)) (.inr (by omega))
  exact ⟨p, fun b => (follow_append hp [b]).trans (follow_cons_internal h hid b [])⟩

end

/-! ### GENCODES of a built tree -/

/-- The tree of a state in phase TREE, by the number of symbols present. -/
theorem Inv.treeInv {s : State} (hs : Inv s) (hphase : s.henc.phase = .tree) :
    TreeInv s.henc.freq s.henc.tree s.henc.root (presentSymbols s.henc.freq) :=
  hs.henc.nsym ▸ hs.henc.tree hphase

/-- The traversal of a built tree ends. -/
theorem TreeInv.exists_rootCodes {s : State}
    (hi : TreeInv s.henc.freq s.henc.tree s.henc.root (presentSymbols s.henc.freq)) :
    ∃ v, rootCodes s.henc.tree s.henc.root = .ok v := by
  have hle := presentSymbols_le s.henc.freq
  have hroot : s.henc.root.toNat < 256 + (presentSymbols s.henc.freq - 1) := by
    rcases hi.isTreeNode_root with ⟨hleaf, -⟩ | ⟨-, hlt⟩
    · exact Nat.lt_add_right _ hleaf
    · exact hlt
  obtain ⟨v, hv, -⟩ := gencodesBody_ends (by omega)
    (fun k h hk => ⟨(hi.firstChild k h hk).2, (hi.secondChild k h hk).2⟩) hroot
  exact ⟨v, hv⟩

/-- Settles O24: the traversal of a built tree ends, and its table holds exactly the codes of the tree. -/
theorem gencodesRecordsTheTreePaths : Obligations.GencodesRecordsTheTreePaths := by
  intro s hs hphase
  have hi := hs.treeInv hphase
  obtain ⟨v, hv⟩ := hi.exists_rootCodes
  have htable (x : Byte) (c : Bits) : treeCode s.henc.tree s.henc.root x c ↔
      (bySymbol (tableOf v) x).len ≠ 0 ∧ codeOf (tableOf v) x = c := by
    rw [hi.treeCode_iff hv, one_le_codeLen_iff]
  exact ⟨tableOf v, exec_hencGencodes_of_rootCodes hphase hv,
    fun hroot x c => (treeCode_of_internal (Nat.not_lt.mpr hroot)).symm.trans (htable x c),
    fun hroot x c => (treeCode_of_leaf hroot).symm.trans (htable x c),
    hi.bits_tableOf_lt hv⟩

/-- Settles O26: each clause holds of the codes of the tree, and these are the codes of the table. -/
theorem generatedTableIsACompletePrefixCode : Obligations.GeneratedTableIsACompletePrefixCode := by
  intro s t hs hphase ht
  have hi := hs.treeInv hphase
  obtain ⟨v, hv⟩ := hi.exists_rootCodes
  rw [exec_hencGencodes_of_rootCodes hphase hv] at ht
  cases ht
  have hinternal (htwo : 2 ≤ presentSymbols s.henc.freq) : ¬ s.henc.root.toNat < 256 := by
    rw [hi.rootInternal htwo]
    omega
  refine ⟨fun x => ?present, fun x y hne hx hy hp => ?prefixFree, fun htwo f => ?complete, hi.bits_tableOf_lt hv,
    fun k h hk x y h0 h1 => ?siblings⟩
  case present =>
    rw [← hi.exists_treeCode_iff_present x]
    exact ⟨fun hx => ⟨_, (hi.treeCode_iff hv x _).mpr ⟨hx, rfl⟩⟩,
      fun ⟨c, hc⟩ => ((hi.treeCode_iff hv x c).mp hc).1⟩
  case prefixFree =>
    have hx := (hi.treeCode_iff hv x _).mpr ⟨hx, rfl⟩
    have hy := (hi.treeCode_iff hv y _).mpr ⟨hy, rfl⟩
    exact hne (eq_of_treeCode_prefix hx hy hp)
  case complete =>
    have hunique := hi.existsUnique_treeCode_along (hinternal htwo) f
    simpa only [hi.exists_treeCode_along_iff hv] using hunique
  case siblings =>
    refine ⟨h0 ▸ h1 ▸ hi.ordered k h hk, ?_⟩
    obtain ⟨p, hp⟩ := hi.exists_follow_children h hk
    have hchild {z : Byte} {b : Bool} (hz : s.henc.tree[k].child b = z.setWidth 9) :
        codeOf (tableOf v) z = p ++ [b] := by
      have hcode := (treeCode_of_internal (hinternal (by omega))).mpr ((hp b).trans (congrArg some hz))
      exact ((hi.treeCode_iff hv z _).mp hcode).2
    exact ⟨p, hchild h0, hchild h1⟩

end Sys2Proof.Machine
end

section
/-! SUPPORT. ENCODE and PACK: the padding count, the packed buffer, and the ways the two commands end over whatever values
their reads return (spec/44_bitpack.md R161 to R166). -/
namespace Sys2Proof.Machine

/-- A run of writes from cell 0 overwrites the buffer with its values. -/
theorem overwritten_putRun {α : Type} (m : Memory α) (vs : List α) : overwritten (m.putRun 0 vs) m vs := fun a => by
  simpa using Memory.cell?_putRun vs m 0 a

/-! ### The padding count -/

theorem paddingOf_of_mod_eq_zero {L : Nat} (h : L % 8 = 0) : paddingOf L = 0 := by
  rw [paddingOf, h]

theorem paddingOf_of_mod_ne_zero {L : Nat} (h : L % 8 ≠ 0) : paddingOf L = 8 - L % 8 :=
  Nat.mod_eq_of_lt (by omega)

theorem paddingOf_lt (L : Nat) : paddingOf L < 8 := Nat.mod_lt _ (by decide)

/-- The padding fills the last byte that the bits reach. -/
theorem add_paddingOf (L : Nat) : L + paddingOf L = 8 * ((L + 7) / 8) := by
  by_cases h : L % 8 = 0
  · rw [paddingOf_of_mod_eq_zero h]
    omega
  · rw [paddingOf_of_mod_ne_zero h]
    omega

/-- Settles O31: length and padding together are 8 times the number of bytes that the bits reach. -/
theorem paddingReachesTheNextByte : Obligations.PaddingReachesTheNextByte := by
  intro L
  refine ⟨paddingOf_of_mod_eq_zero, paddingOf_of_mod_ne_zero, Nat.le_of_lt_succ (paddingOf_lt L), ?_, fun n hn hle => ?_⟩
  · rw [add_paddingOf, Nat.mul_mod_right]
  · rw [add_paddingOf]
    omega

/-! ### The packed buffer -/

/-- The packed buffer is the header byte and one byte for every eight bits or part of eight. -/
theorem length_packedBuffer_eq (b : Bits) : (packedBuffer b).length = 1 + (b.length + 7) / 8 := by
  rw [length_packedBuffer, add_paddingOf, Nat.mul_div_cancel_left _ (by decide)]

/-- The header byte holds the padding count. -/
theorem toNat_of_packedBuffer_zero {b : Bits} {v : Byte} (h : (packedBuffer b)[0]? = some v) :
    v.toNat = paddingOf b.length := by
  obtain rfl : BitVec.ofNat 8 (paddingOf b.length) = v := Option.some.inj h
  have hlt := paddingOf_lt b.length
  exact (BitVec.toNat_ofNat _ _).trans (Nat.mod_eq_of_lt (by omega))

/-- The bytes after the header are the packed bytes of the bits. -/
theorem eq_packedByte_of_packedBuffer {b : Bits} {k : Nat} {v : Byte} (h : (packedBuffer b)[1 + k]? = some v) :
    v = packedByte b k := by
  rw [Nat.add_comm 1 k, packedBuffer, List.getElem?_cons_succ, List.getElem?_map, Option.map_eq_some_iff] at h
  obtain ⟨j, hj, rfl⟩ := h
  obtain ⟨-, rfl⟩ := List.getElem?_eq_some_iff.mp hj
  rw [List.getElem_range]

/-! ### PACK -/

/-- The bits PACK reads are values that BITBUF can be read as. -/
theorem readsAs_encodedBits (s : State) : readsAs s.henc.bitBuf s.henc.bitLen.toNat (encodedBits s).1 :=
  Memory.readsAs_drawList_range _ _ _ _

/-- Reading bits that are all written draws nothing. -/
theorem encodedBits_draws_of_written {s : State}
    (h : ∀ a, a < s.henc.bitLen.toNat → s.henc.bitBuf.cell? a ≠ none) : (encodedBits s).2 = s.draws :=
  Memory.drawList_draws_of_written _ _ _ _ fun a ha => h a (List.mem_range.mp ha)

/-- In phase ENCODED, PACK runs its body, which always succeeds. -/
theorem exec_hencPack {s : State} (h : s.henc.phase = .encoded) : exec .hencPack s = (packBody s).result :=
  prologue_of_legal (Bool.eq_false_iff.mpr (mt s.faulted_henc.mp (by simp [h]))) (by simp [legal, h]) packBody

/-- Settles O32: the values written are the packed buffer of the bits read. -/
theorem packWritesThePackedBuffer : Obligations.PackWritesThePackedBuffer := by
  intro s hs
  have hlen : (packedBuffer (encodedBits s).1).length = 1 + (s.henc.bitLen.toNat + 7) / 8 := by
    rw [length_packedBuffer_eq, length_encodedBits]
  refine ⟨(encodedBits s).1, packedBuffer (encodedBits s).1, _, (encodedBits s).2, readsAs_encodedBits s, ?_,
    overwritten_putRun _ _, hlen, fun v hv => ?_, fun k v hv j hj => ?_, encodedBits_draws_of_written⟩
  · rw [exec_hencPack hs, ← hlen]
    rfl
  · rw [toNat_of_packedBuffer_zero hv, length_encodedBits, paddingOf]
  · rw [eq_packedByte_of_packedBuffer hv, getLsbD_packedByte _ _ _ hj]

/-! ### ENCODE -/

@[simp] theorem length_codedBits (t : Vector Entry 256) (syms : List Byte) :
    (codedBits t syms).length = codedLength t syms := by
  simp [codedBits, codedLength, List.length_flatten, Function.comp_def]

/-- In phase CODES, ENCODE runs its body. -/
theorem exec_hencEncode {s : State} (h : s.henc.phase = .codes) : exec .hencEncode s = (encodeBody s).result :=
  prologue_of_legal (Bool.eq_false_iff.mpr (mt s.faulted_henc.mp (by simp [h]))) (by simp [legal, h]) encodeBody

/-- An IN_LEN above IN_CAP fails before anything is read. -/
theorem encodeBody_of_lt {s : State} (h : s.caps.inCap.toNat < s.henc.inLen.toNat) :
    encodeBody s = encodeFail s ⟨.capacity, 1, s.henc.inLen⟩ :=
  if_pos h

/-- When the loop over the symbols read gives `c`, ENCODE writes it to BITBUF. -/
theorem encodeBody_of_ok {s : State} {c : Bits} (h : s.henc.inLen.toNat ≤ s.caps.inCap.toNat)
    (hc : encodeFrom s.henc.codeTab s.caps.bitCap (inputSymbols s).1 0 0 = .ok c) :
    encodeBody s = .done { s with
      henc := { s.henc with bitBuf := s.henc.bitBuf.putRun 0 c, bitLen := word c.length, phase := .encoded },
      draws := (inputSymbols s).2 } := by
  rw [encodeBody, if_neg (Nat.not_lt.mpr h)]
  simp only [hc]

/-- When the loop over the symbols read fails, ENCODE fails with its error, after the reads. -/
theorem encodeBody_of_error {s : State} {f : Failure} (h : s.henc.inLen.toNat ≤ s.caps.inCap.toNat)
    (hf : encodeFrom s.henc.codeTab s.caps.bitCap (inputSymbols s).1 0 0 = .error f) :
    encodeBody s = encodeFail { s with draws := (inputSymbols s).2 } f := by
  rw [encodeBody, if_neg (Nat.not_lt.mpr h)]
  simp only [hf]

theorem result_encodeFail (s : State) (f : Failure) :
    (encodeFail s f).result = .next (encodeFailed s s.draws f.regs) := rfl

/-- In phase CODES, with the input within IN_CAP, an error of the loop is the error of ENCODE. -/
theorem exec_hencEncode_of_error {s : State} {f : Failure} (hs : s.henc.phase = .codes)
    (h : s.henc.inLen.toNat ≤ s.caps.inCap.toNat)
    (hf : encodeFrom s.henc.codeTab s.caps.bitCap (inputSymbols s).1 0 0 = .error f) :
    exec .hencEncode s = .next (encodeFailed s (inputSymbols s).2 f.regs) := by
  rw [exec_hencEncode hs, encodeBody_of_error h hf, result_encodeFail]
  rfl

/-- In phase CODES, with the input within IN_CAP and codes that fit for all symbols read, ENCODE writes the codes one after
another. -/
theorem exec_hencEncode_of_fits {s : State} (hs : s.henc.phase = .codes)
    (h : s.henc.inLen.toNat ≤ s.caps.inCap.toNat)
    (hcode : ∀ x ∈ (inputSymbols s).1, codeLen s.henc.codeTab x ≠ 0)
    (hfit : codedLength s.henc.codeTab (inputSymbols s).1 ≤ s.caps.bitCap) :
    exec .hencEncode s = .next { s with
      henc := { s.henc with
        bitBuf := s.henc.bitBuf.putRun 0 (codedBits s.henc.codeTab (inputSymbols s).1),
        bitLen := word (codedLength s.henc.codeTab (inputSymbols s).1), phase := .encoded },
      draws := (inputSymbols s).2 } := by
  have hloop : encodeFrom s.henc.codeTab s.caps.bitCap (inputSymbols s).1 0 0 =
      .ok (codedBits s.henc.codeTab (inputSymbols s).1) :=
    encodeFrom_ok _ _ _ _ _ hcode ((Nat.zero_add _).trans_le hfit)
  rw [exec_hencEncode hs, encodeBody_of_ok h hloop, length_codedBits]
  rfl

/-- Settles O30: the body splits at IN_LEN = IN_CAP, and then ends as its loop does over the symbols read. -/
theorem encodeEndsAsTheSymbolsItReads : Obligations.EncodeEndsAsTheSymbolsItReads := by
  refine fun s hs => ⟨fun hlt => ?_, fun hle => ?_⟩
  · rw [exec_hencEncode hs, encodeBody_of_lt hlt, result_encodeFail]
    rfl
  · refine ⟨(inputSymbols s).1, (inputSymbols s).2, readsAs_inputSymbols s, fun hcode hfit => ?_,
      fun i x hx hcode hfit => ?_⟩
    · exact ⟨_, exec_hencEncode_of_fits hs hle hcode hfit, overwritten_putRun _ _⟩
    · obtain ⟨hunknown, hfull⟩ := encodeFrom_error s.henc.codeTab s.caps.bitCap (inputSymbols s).1 0 0 i x hx hcode
        ((Nat.zero_add _).trans_le hfit)
      simp only [Nat.zero_add] at hunknown hfull
      exact ⟨fun h => exec_hencEncode_of_error hs hle (hunknown h),
        fun h hlt => exec_hencEncode_of_error hs hle (hfull h hlt)⟩

end Sys2Proof.Machine
end

section
/-! SUPPORT. UNPACK: its four checks, and the bits it writes for whatever values its reads of PAY_BUF return
(spec/45_bitunpack.md R176). -/
namespace Sys2Proof.Machine

/-! ### Reads of PAY_BUF -/

/-- The header byte is a value that PAY_BUF[0] can be read as. -/
theorem readsAs_headerByte (s : State) : readsAs s.hdec.payBuf 1 [(headerByte s).1] :=
  s.hdec.payBuf.readsAs_drawList_range Config.freeByte 1 s.draws

/-- Reading a written header draws nothing. -/
theorem headerByte_draws_of_written {s : State} (h : s.hdec.payBuf.cell? 0 ≠ none) : (headerByte s).2 = s.draws := by
  obtain ⟨v, hv⟩ := Option.ne_none_iff_exists'.mp h
  exact congrArg Prod.snd (Memory.draw_of_some hv)

/-- The byte read for bit `i` is the stored one of PAY_BUF[1 + i / 8], where there is one. -/
theorem getElem?_payloadBytes {s : State} {n d i : Nat} {v : Byte} (hi : i < n)
    (hv : s.hdec.payBuf.cell? (1 + i / 8) = some v) : (payloadBytes s n d).1[i]? = some v := by
  have hcell : ((List.range n).map (fun i => 1 + i / 8))[i]? = some (1 + i / 8) := by
    rw [List.getElem?_map, List.getElem?_range hi, Option.map_some]
  exact Memory.drawList_stored _ _ _ _ _ _ _ hcell hv

/-- Bit `i` is bit `7 - i % 8` of the byte read for it. -/
theorem getElem?_unpackedBits {bytes : List Byte} {i : Nat} {v : Byte} (h : bytes[i]? = some v) :
    (unpackedBits bytes)[i]? = some (v.getLsbD (7 - i % 8)) := by
  obtain ⟨hi, rfl⟩ := List.getElem?_eq_some_iff.mp h
  rw [List.getElem?_eq_getElem (by simpa using hi), getElem_unpackedBits bytes i hi]

/-! ### The ways UNPACK ends -/

/-- Outside FAULT, UNPACK runs its body. -/
theorem exec_hdecUnpack {s : State} (h : s.hdec.phase ≠ .fault) : exec .hdecUnpack s = (unpackBody s).result :=
  prologue_of_legal (Bool.eq_false_iff.mpr (mt s.faulted_hdec.mp h)) rfl unpackBody

theorem result_unpackFail (s : State) (f : Failure) :
    (unpackFail s f).result = .next (unpackFailed s s.draws f.regs) := rfl

/-- A PAY_LEN above PAY_CAP fails before anything is read. -/
theorem unpackBody_of_lt {s : State} (h : s.caps.payCap.toNat < s.hdec.payLen.toNat) :
    unpackBody s = unpackFail s ⟨.capacity, 1, s.hdec.payLen⟩ :=
  if_pos h

/-- A PAY_LEN of 0 fails before anything is read. -/
theorem unpackBody_of_eq_zero {s : State} (h : s.hdec.payLen.toNat = 0) :
    unpackBody s = unpackFail s ⟨.emptyInput, 0, 0⟩ :=
  (if_neg (by omega)).trans (if_pos h)

section
variable {s : State}

/-- A header above 7 fails, after the read of the header. -/
theorem unpackBody_of_header_gt (h1 : 1 ≤ s.hdec.payLen.toNat) (hcap : s.hdec.payLen.toNat ≤ s.caps.payCap.toNat)
    (hhdr : 7 < (headerByte s).1.toNat) :
    unpackBody s =
      unpackFail { s with draws := (headerByte s).2 } ⟨.corruptStream, 1, word (headerByte s).1.toNat⟩ :=
  (if_neg (by omega)).trans ((if_neg (by omega)).trans (if_pos hhdr))

/-- A header above the number of the payload's bits fails, after the read of the header. -/
theorem unpackBody_of_payload_lt (h1 : 1 ≤ s.hdec.payLen.toNat) (hcap : s.hdec.payLen.toNat ≤ s.caps.payCap.toNat)
    (hhdr : (headerByte s).1.toNat ≤ 7) (hpay : 8 * (s.hdec.payLen.toNat - 1) < (headerByte s).1.toNat) :
    unpackBody s =
      unpackFail { s with draws := (headerByte s).2 } ⟨.corruptStream, 3, word (headerByte s).1.toNat⟩ :=
  (if_neg (by omega)).trans ((if_neg (by omega)).trans ((if_neg (by omega)).trans (if_pos hpay)))

/-- When all checks pass, the bits of the bytes read are written to DBITS. -/
theorem unpackBody_of_header_le (h1 : 1 ≤ s.hdec.payLen.toNat) (hcap : s.hdec.payLen.toNat ≤ s.caps.payCap.toNat)
    (hhdr : (headerByte s).1.toNat ≤ 7) (hpay : (headerByte s).1.toNat ≤ 8 * (s.hdec.payLen.toNat - 1)) :
    let bytes := payloadBytes s (8 * (s.hdec.payLen.toNat - 1) - (headerByte s).1.toNat) (headerByte s).2
    unpackBody s = .done { s with
      hdec := { s.hdec with
        dBits := s.hdec.dBits.putRun 0 (unpackedBits bytes.1),
        dBitLen := word (8 * (s.hdec.payLen.toNat - 1) - (headerByte s).1.toNat), phase := .unpacked },
      draws := bytes.2 } :=
  (if_neg (by omega)).trans ((if_neg (by omega)).trans ((if_neg (by omega)).trans (if_neg (by omega))))

end

/-- Settles O34: one equation of the body for each way it ends, over the header and the payload bytes it reads. -/
theorem unpackEndsAsTheBytesItReads : Obligations.UnpackEndsAsTheBytesItReads := by
  refine fun s hs => ⟨fun hlt => ?_, fun h0 => ?_, fun h1 hcap => ?_⟩
  · rw [exec_hdecUnpack hs, unpackBody_of_lt hlt, result_unpackFail]
    rfl
  · rw [exec_hdecUnpack hs, unpackBody_of_eq_zero h0, result_unpackFail]
    rfl
  · refine ⟨(headerByte s).1, (headerByte s).2, readsAs_headerByte s, headerByte_draws_of_written, fun hgt => ?_,
      fun hle hlt => ?_, fun hle hpay => ?_⟩
    · rw [exec_hdecUnpack hs, unpackBody_of_header_gt h1 hcap hgt, result_unpackFail, ← BitVec.ofNat_toNat]
      rfl
    · rw [exec_hdecUnpack hs, unpackBody_of_payload_lt h1 hcap hle hlt, result_unpackFail, ← BitVec.ofNat_toNat]
      rfl
    · have hlen := (length_unpackedBits _).trans
        (length_payloadBytes s (8 * (s.hdec.payLen.toNat - 1) - (headerByte s).1.toNat) (headerByte s).2)
      exact ⟨_, _, _, (exec_hdecUnpack hs).trans (congrArg Stage.result (unpackBody_of_header_le h1 hcap hle hpay)),
        overwritten_putRun _ _, hlen, fun i v hi hv =>
          getElem?_unpackedBits (getElem?_payloadBytes (hi.trans_eq hlen) hv)⟩

end Sys2Proof.Machine
end

section
/-! SUPPORT. SCAN: every bit sequence splits into shortest matches and a tail without one, and the loop of SCAN takes it apart
in that way (spec/45_bitunpack.md R180). -/
namespace Sys2Proof.Machine

section
variable {t : Vector Entry 256} {c run tail : Bits} {b : Bool} {x : Byte} {cs : List Bits} {syms : List Byte}

/-! ### Shortest matches -/

@[simp] theorem invLookup_nil (t : Vector Entry 256) : invLookup t [] = none := rfl

@[simp] theorem noMatch_nil (t : Vector Entry 256) : noMatch t [] := fun j _ => by
  rw [List.take_nil, invLookup_nil]

/-- The proper prefixes of `run ++ [b]` are the prefixes of `run`. -/
theorem noMatch_iff_proper_prefixes_concat :
    noMatch t run ↔ ∀ j, j < (run ++ [b]).length → invLookup t ((run ++ [b]).take j) = none := by
  simp only [noMatch, List.length_append, List.length_singleton, Nat.lt_succ_iff]
  refine forall₂_congr fun j hj => ?_
  rw [List.take_append_of_le_length hj]

theorem shortestMatch_concat : shortestMatch t (run ++ [b]) x ↔ noMatch t run ∧ invLookup t (run ++ [b]) = some x := by
  rw [noMatch_iff_proper_prefixes_concat, and_comm]
  rfl

theorem noMatch_concat (hrun : noMatch t run) (h : invLookup t (run ++ [b]) = none) : noMatch t (run ++ [b]) := by
  intro j hj
  rcases hj.lt_or_eq with hlt | rfl
  · exact noMatch_iff_proper_prefixes_concat.mp hrun j hlt
  · rwa [List.take_length]

/-- A shortest match is not empty: it is a last bit that completes a code after bits that hold none. -/
theorem shortestMatch.exists_concat (h : shortestMatch t c x) : ∃ run b, c = run ++ [b] := by
  rcases c.eq_nil_or_concat' with rfl | hc
  · exact absurd h.1 (by simp)
  · exact hc

/-- Bits that begin with a candidate without a match split into shortest matches and a tail without one. -/
theorem exists_split_of_noMatch (hrun : noMatch t run) (bits : Bits) :
    ∃ cs syms tail, run ++ bits = cs.flatten ++ tail ∧ matchesAll t cs syms ∧ noMatch t tail := by
  induction bits generalizing run with
  | nil => exact ⟨[], [], run, by simp, .nil, hrun⟩
  | cons b rest ih =>
    cases hb : invLookup t (run ++ [b]) with
    | none =>
      obtain ⟨cs, syms, tail, hsplit, hcs, htail⟩ := ih (noMatch_concat hrun hb)
      exact ⟨cs, syms, tail, by rw [← hsplit, List.append_assoc, List.singleton_append], hcs, htail⟩
    | some x =>
      obtain ⟨cs, syms, tail, hsplit, hcs, htail⟩ := ih (noMatch_nil t)
      refine ⟨(run ++ [b]) :: cs, x :: syms, tail, ?_, .cons (shortestMatch_concat.mpr ⟨hrun, hb⟩) hcs, htail⟩
      rw [List.flatten_cons, List.append_assoc _ _ tail, ← hsplit]
      simp

/-! ### The loop of SCAN -/

/-- With no candidate, the index of its first bit is not used. -/
theorem scanFrom_start (t : Vector Entry 256) (cap : Nat) (bits : Bits) (i start start' m : Nat) :
    scanFrom t cap bits i [] start m = scanFrom t cap bits i [] start' m := by
  cases bits <;> rfl

/-- Bits with no match inside them become the candidate, which begins at the first of them. -/
theorem scanFrom_noMatch (h : noMatch t run) (cap : Nat) (rest : Bits) (i start m : Nat) :
    scanFrom t cap (run ++ rest) i [] start m = scanFrom t cap rest (i + run.length) run i m := by
  cases run with
  | nil => exact scanFrom_start t cap rest i start i m
  | cons b run =>
    have hb : invLookup t ([] ++ [b]) = none := h 1 (by simp)
    have hrun : ∀ j, 1 ≤ j → j ≤ run.length → invLookup t ([b] ++ run.take j) = none := fun j _ hj =>
      h (j + 1) (by simpa using hj)
    calc scanFrom t cap (b :: run ++ rest) i [] start m
      _ = scanFrom t cap (run ++ rest) (i + 1) [b] i m := scanFrom_extend hb cap _ i start m
      _ = scanFrom t cap rest (i + 1 + run.length) (b :: run) i m := scanFrom_run cap run rest _ i m [b] hrun (by simp)
      _ = _ := by rw [List.length_cons, Nat.add_assoc, Nat.add_comm 1]

/-- A bit that completes a code, with room in SYM_BUF, emits its symbol. -/
theorem scanFrom_emit (h : invLookup t (run ++ [b]) = some x) {cap m : Nat} (hm : m ≠ cap) (rest : Bits)
    (i start : Nat) :
    scanFrom t cap (b :: rest) i run start m =
      (x :: ·) <$> scanFrom t cap rest (i + 1) [] (if run.isEmpty then i else start) (m + 1) := by
  simp only [scanFrom, h, if_neg hm]
  cases scanFrom t cap rest (i + 1) [] (if run.isEmpty then i else start) (m + 1) <;> rfl

/-- A shortest match, with room in SYM_BUF, emits its symbol. -/
theorem scanFrom_shortestMatch (h : shortestMatch t c x) {cap m : Nat} (hm : m ≠ cap) (rest : Bits) (i start : Nat) :
    scanFrom t cap (c ++ rest) i [] start m = (x :: ·) <$> scanFrom t cap rest (i + c.length) [] i (m + 1) := by
  obtain ⟨run, b, rfl⟩ := h.exists_concat
  obtain ⟨hrun, hx⟩ := shortestMatch_concat.mp h
  rw [List.append_assoc, scanFrom_noMatch hrun, List.singleton_append, scanFrom_emit hx hm, List.length_append,
    scanFrom_start t cap rest _ _ i]
  rfl

/-- A shortest match, with SYM_BUF full, ends the loop at its first bit. -/
theorem scanFrom_shortestMatch_full (h : shortestMatch t c x) (cap : Nat) (rest : Bits) (i start : Nat) :
    scanFrom t cap (c ++ rest) i [] start cap = .error ⟨.capacity, 6, word i⟩ := by
  obtain ⟨run, b, rfl⟩ := h.exists_concat
  obtain ⟨hrun, hx⟩ := shortestMatch_concat.mp h
  rw [List.append_assoc, scanFrom_noMatch hrun, List.singleton_append, scanFrom_full hx]
  cases run <;> rfl

/-- Shortest matches one after another, with room for them, emit their symbols. -/
theorem scanFrom_matchesAll (h : matchesAll t cs syms) {cap m : Nat} (hm : m + syms.length ≤ cap) (rest : Bits)
    (i start : Nat) :
    scanFrom t cap (cs.flatten ++ rest) i [] start m =
      (syms ++ ·) <$> scanFrom t cap rest (i + cs.flatten.length) [] 0 (m + syms.length) := by
  induction h generalizing i start m with
  | nil =>
    rw [List.flatten_nil, List.nil_append, scanFrom_start t cap rest i start 0]
    exact (id_map _).symm
  | @cons c x cs syms hc _ ih =>
    rw [List.length_cons] at hm
    rw [List.flatten_cons, List.append_assoc, scanFrom_shortestMatch hc (by omega), ih (by omega), Functor.map_map,
      List.length_append, List.length_cons, Nat.add_assoc i, Nat.add_assoc m, Nat.add_comm 1]
    rfl

/-- Bits without a match end the loop at the first of them. -/
theorem scanFrom_of_noMatch (h : noMatch t tail) (hne : tail ≠ []) (cap i start m : Nat) :
    scanFrom t cap tail i [] start m = .error ⟨.corruptStream, 2, word i⟩ := by
  have hrun := scanFrom_noMatch h cap [] i start m
  rw [List.append_nil] at hrun
  rw [hrun]
  exact if_neg (by simpa using hne)

/-- Without room for all shortest matches, the loop ends at the first bit of the first that finds SYM_BUF full. -/
theorem scanFrom_matchesAll_full (h : matchesAll t cs syms) {cap : Nat} (hlt : cap < syms.length) (rest : Bits) :
    scanFrom t cap (cs.flatten ++ rest) 0 [] 0 0 = .error ⟨.capacity, 6, word (cs.take cap).flatten.length⟩ := by
  have hlen : cap < cs.length := h.length_eq ▸ hlt
  have hroom : (syms.take cap).length = cap := List.length_take_of_le hlt.le
  have hnext : shortestMatch t cs[cap] syms[cap] := h.get hlen hlt
  have hsplit : cs.flatten ++ rest = (cs.take cap).flatten ++ (cs[cap] ++ ((cs.drop (cap + 1)).flatten ++ rest)) := by
    rw [← List.append_assoc cs[cap], ← List.flatten_cons, ← List.drop_eq_getElem_cons hlen, ← List.append_assoc,
      ← List.flatten_append, List.take_append_drop]
  rw [hsplit, scanFrom_matchesAll (List.forall₂_take cap h) (by omega), hroom, Nat.zero_add, Nat.zero_add,
    scanFrom_shortestMatch_full hnext]
  rfl

/-- With room for all shortest matches and no tail, the loop emits their symbols. -/
theorem scanFrom_matchesAll_fits (h : matchesAll t cs syms) {cap : Nat} (hle : syms.length ≤ cap) :
    scanFrom t cap cs.flatten 0 [] 0 0 = .ok syms := by
  have hloop := scanFrom_matchesAll h ((Nat.zero_add _).trans_le hle) [] 0 0
  rw [List.append_nil] at hloop
  rw [hloop]
  exact congrArg Except.ok (List.append_nil syms)

/-- With room for all shortest matches, a tail without a match ends the loop at its first bit. -/
theorem scanFrom_matchesAll_tail (h : matchesAll t cs syms) (htail : noMatch t tail) (hne : tail ≠ []) {cap : Nat}
    (hle : syms.length ≤ cap) :
    scanFrom t cap (cs.flatten ++ tail) 0 [] 0 0 = .error ⟨.corruptStream, 2, word cs.flatten.length⟩ := by
  rw [scanFrom_matchesAll h ((Nat.zero_add _).trans_le hle), scanFrom_of_noMatch htail hne, Nat.zero_add]
  rfl

end

/-! ### SCAN -/

/-- The bits SCAN reads are values that DBITS can be read as. -/
theorem readsAs_payloadBits (s : State) : readsAs s.hdec.dBits s.hdec.dBitLen.toNat (payloadBits s).1 :=
  Memory.readsAs_drawList_range _ _ _ _

/-- In phase UNPACKED, SCAN runs its body. -/
theorem exec_hdecScan {s : State} (h : s.hdec.phase = .unpacked) : exec .hdecScan s = (scanBody s).result :=
  prologue_of_legal (Bool.eq_false_iff.mpr (mt s.faulted_hdec.mp (by simp [h]))) (by simp [legal, h]) scanBody

/-- In phase UNPACKED, SCAN writes the symbols that its loop over the bits read emits. -/
theorem exec_hdecScan_of_ok {s : State} {out : List Byte} (hs : s.hdec.phase = .unpacked)
    (hout : scanFrom s.hdec.decTab s.caps.symCap.toNat (payloadBits s).1 0 [] 0 0 = .ok out) :
    exec .hdecScan s = .next { s with
      hdec := { s.hdec with symBuf := s.hdec.symBuf.putRun 0 out, symLen := word out.length, phase := .decoded },
      draws := (payloadBits s).2 } := by
  rw [exec_hdecScan hs, scanBody]
  simp only [hout, Stage.result_done]

/-- In phase UNPACKED, an error of the loop over the bits read is the error of SCAN. -/
theorem exec_hdecScan_of_error {s : State} {f : Failure} (hs : s.hdec.phase = .unpacked)
    (hf : scanFrom s.hdec.decTab s.caps.symCap.toNat (payloadBits s).1 0 [] 0 0 = .error f) :
    exec .hdecScan s = .next (scanFailed s (payloadBits s).2 f.regs) := by
  rw [exec_hdecScan hs, scanBody]
  simp only [hf]
  rfl

/-- Settles O36: the bits read split into shortest matches and a tail, and SCAN ends as its loop does over them. -/
theorem scanEndsAsTheBitsItReads : Obligations.ScanEndsAsTheBitsItReads := by
  intro s hs
  obtain ⟨cs, syms, tail, hsplit, hcs, htail⟩ := exists_split_of_noMatch (noMatch_nil s.hdec.decTab) (payloadBits s).1
  rw [List.nil_append] at hsplit
  refine ⟨(payloadBits s).1, (payloadBits s).2, cs, syms, tail, readsAs_payloadBits s, hsplit, hcs, htail,
    fun hle hnil => ⟨_, exec_hdecScan_of_ok hs ?_, overwritten_putRun _ _⟩,
    fun hle hne => exec_hdecScan_of_error hs (f := ⟨.corruptStream, 2, _⟩) ?_,
    fun hlt => exec_hdecScan_of_error hs (f := ⟨.capacity, 6, _⟩) ?_⟩
  · rw [hsplit, hnil, List.append_nil]
    exact scanFrom_matchesAll_fits hcs hle
  · rw [hsplit]
    exact scanFrom_matchesAll_tail hcs htail hne hle
  · rw [hsplit]
    exact scanFrom_matchesAll_full hcs hlt tail

end Sys2Proof.Machine
end

section
/-! SUPPORT. DECODE: the body of UNPACK and then that of SCAN (spec/46_orchestrator.md R191). -/
namespace Sys2Proof.Machine

/-- The two ways UNPACK ends: in FAULT, or in phase UNPACKED. -/
theorem unpackBody_cases (s : State) :
    (∃ t, unpackBody s = .raised t ∧ t.hdec.phase = .fault) ∨
    ∃ t, unpackBody s = .done t ∧ t.hdec.phase = .unpacked := by
  rcases Nat.lt_or_ge s.caps.payCap.toNat s.hdec.payLen.toNat with hlt | hcap
  · exact .inl ⟨_, unpackBody_of_lt hlt, rfl⟩
  rcases Nat.eq_zero_or_pos s.hdec.payLen.toNat with h0 | h1
  · exact .inl ⟨_, unpackBody_of_eq_zero h0, rfl⟩
  rcases Nat.lt_or_ge 7 (headerByte s).1.toNat with hgt | hle
  · exact .inl ⟨_, unpackBody_of_header_gt h1 hcap hgt, rfl⟩
  rcases Nat.lt_or_ge (8 * (s.hdec.payLen.toNat - 1)) (headerByte s).1.toNat with hlt | hpay
  · exact .inl ⟨_, unpackBody_of_payload_lt h1 hcap hle hlt, rfl⟩
  · exact .inr ⟨_, unpackBody_of_header_le h1 hcap hle hpay, rfl⟩

/-- Outside FAULT, DECODE runs its body. -/
theorem exec_hdecDecode {s : State} (h : s.hdec.phase ≠ .fault) : exec .hdecDecode s = (decodeBody s).result :=
  prologue_of_legal (Bool.eq_false_iff.mpr (mt s.faulted_hdec.mp h)) rfl decodeBody

/-- Settles O41: the body of UNPACK ends in FAULT, which ends DECODE, or in phase UNPACKED, where SCAN runs its body. -/
theorem decodeIsUnpackThenScan : Obligations.DecodeIsUnpackThenScan := by
  intro s s1 hs hunpack
  rw [exec_hdecUnpack hs] at hunpack
  rw [exec_hdecDecode hs, decodeBody]
  rcases unpackBody_cases s with ⟨t, hbody, hphase⟩ | ⟨t, hbody, hphase⟩
  · rw [hbody] at hunpack ⊢
    cases hunpack
    exact ⟨fun _ => rfl, fun hne => absurd hphase hne⟩
  · rw [hbody] at hunpack ⊢
    cases hunpack
    exact ⟨fun hfault => absurd (hphase.symm.trans hfault) nofun, fun _ => (exec_hdecScan hphase).symm⟩

end Sys2Proof.Machine
end

section
/-! SUPPORT. Tables in which no code begins another's: the generated ones, and what InvLookup finds in such a table
(spec/43_codes.md R148, R150). -/
namespace Sys2Proof.Machine

/-- No code of the table is the beginning of another symbol's (43_codes.md R148 (b), (c)). -/
def prefixFree (t : Vector Entry 256) : Prop :=
  ∀ x y : Byte, 1 ≤ codeLen t x → 1 ≤ codeLen t y → codeOf t x <+: codeOf t y → x = y

/-- A generated table is `prefixFree`. -/
theorem TreeInv.prefixFree_tableOf {freq : Vector Word 256} {tree : Vector TreeNode 255} {root : NodeId}
    {v : List (Nat × Bits)} (hi : TreeInv freq tree root (presentSymbols freq)) (hv : rootCodes tree root = .ok v) :
    prefixFree (tableOf v) := fun x y hx hy hp =>
  eq_of_treeCode_prefix ((hi.treeCode_iff hv x _).mpr ⟨hx, rfl⟩) ((hi.treeCode_iff hv y _).mpr ⟨hy, rfl⟩) hp

section
variable {t : Vector Entry 256} (h : prefixFree t)
include h

/-- Every code is its own shortest match: one of a part of it would be a code that begins it. -/
theorem prefixFree.shortestMatch {x : Byte} (hx : 1 ≤ codeLen t x) : shortestMatch t (codeOf t x) x := by
  have hne : codeOf t x ≠ [] := List.ne_nil_of_length_pos (hx.trans_eq (length_codeOf t x).symm)
  refine ⟨(invLookup_eq_some_iff t hne x).mpr ⟨⟨(length_codeOf t x).symm, rfl⟩, fun y hlt ⟨hlen, hcode⟩ => ?least⟩,
    fun j hj => ?shortest⟩
  case least =>
    have hy : 1 ≤ codeLen t y := hx.trans_eq ((hlen.trans (length_codeOf t x)).symm)
    obtain rfl := h y x hy hx (hcode ▸ List.prefix_rfl)
    exact lt_irrefl _ hlt
  case shortest =>
    cases htake : (codeOf t x).take j with
    | nil => exact invLookup_nil t
    | cons b c =>
      refine (invLookup_eq_none_iff t (List.cons_ne_nil b c)).mpr fun y ⟨hlen, hcode⟩ => ?_
      have hy : 1 ≤ codeLen t y := (Nat.le_add_left 1 c.length).trans_eq hlen.symm
      obtain rfl := h y x hy hx (hcode ▸ htake ▸ List.take_prefix j _)
      have hshort := congrArg List.length htake
      rw [List.length_take, ← hlen, length_codeOf] at hshort
      rw [length_codeOf] at hj
      omega

/-- The codes of a symbol sequence, one after another, are shortest matches of its symbols. -/
theorem prefixFree.matchesAll {syms : List Byte} (hcoded : ∀ x ∈ syms, 1 ≤ codeLen t x) :
    matchesAll t (syms.map (codeOf t)) syms :=
  List.forall₂_map_left_iff.mpr (List.forall₂_same.mpr fun x hx => h.shortestMatch (hcoded x hx))

/-- `prefixFree` is a property of the codes alone. -/
theorem prefixFree.congr {u : Vector Entry 256}
    (hsame : ∀ x, codeLen u x = codeLen t x ∧ codeOf u x = codeOf t x) : prefixFree u := by
  intro x y hx hy hp
  rw [(hsame x).1] at hx
  rw [(hsame y).1] at hy
  rw [(hsame x).2, (hsame y).2] at hp
  exact h x y hx hy hp

end

end Sys2Proof.Machine
end

section
/-! SUPPORT. COMPRESS of a written input: its stages one after another, and what it leaves in CODE_TAB and OUT_BUF
(spec/46_orchestrator.md R190). -/
namespace Sys2Proof.Machine

/-- A buffer overwritten with values holds them. -/
theorem overwritten.holds {α : Type} {m old : Memory α} {vs : List α} (h : overwritten m old vs) : holds m vs :=
  fun i hi => by rw [h i, List.getElem?_eq_getElem hi, Option.some_or]

/-! ### The counts of ANALYZE -/

/-- The 256 symbols, as ANALYZE counts them (41_frequency.md R120). -/
def allSymbols : List Byte := (List.range 256).map (BitVec.ofNat 8)

theorem mem_allSymbols (x : Byte) : x ∈ allSymbols :=
  List.mem_map.mpr ⟨x.toNat, List.mem_range.mpr x.isLt, BitVec.ofNat_toNat 8 x⟩

theorem nodup_allSymbols : allSymbols.Nodup := by
  refine List.Nodup.map_on (fun a ha b hb hab => ?_) List.nodup_range
  have hab := congrArg BitVec.toNat hab
  rw [List.mem_range] at ha hb
  rwa [BitVec.toNat_ofNat, BitVec.toNat_ofNat, Nat.mod_eq_of_lt ha, Nat.mod_eq_of_lt hb] at hab

/-- The counts of all symbols sum to the length of the sequence (41_frequency.md R121). -/
theorem sum_count_allSymbols (syms : List Byte) : (allSymbols.map fun x => syms.count x).sum = syms.length := by
  have hall : ∀ x ∈ (syms : Multiset Byte), x ∈ allSymbols.toFinset := fun x _ =>
    List.mem_toFinset.mpr (mem_allSymbols x)
  have hsum := Multiset.sum_count_eq_card hall
  rw [Multiset.coe_card, List.sum_toFinset _ nodup_allSymbols] at hsum
  simpa only [Multiset.coe_count] using hsum

/-- No count of a sequence of less than 2^32 symbols wraps, so FREQ sums to its length. -/
theorem freqSum_symbolCounts {syms : List Byte} (h : syms.length < 2 ^ 32) :
    freqSum (symbolCounts syms) = syms.length := by
  rw [freqSum, symbolCounts, toList_tabulate, List.map_map, ← sum_count_allSymbols syms, allSymbols, List.map_map]
  refine congrArg List.sum (List.map_congr_left fun k _ => ?_)
  exact (BitVec.toNat_ofNat _ _).trans (Nat.mod_eq_of_lt (List.count_le_length.trans_lt h))

/-- The symbols of the input are those present. -/
theorem symbolCounts_pos_iff {syms : List Byte} (h : syms.length < 2 ^ 32) (x : Byte) :
    0 < (bySymbol (symbolCounts syms) x).toNat ↔ x ∈ syms := by
  rw [symbolCounts_toNat syms h, List.count_pos_iff]

/-! ### The stages of COMPRESS over a written input -/

/-- Outside FAULT, COMPRESS runs its body. -/
theorem exec_hencCompress {s : State} (h : s.henc.phase ≠ .fault) : exec .hencCompress s = (compressBody s).result :=
  prologue_of_legal (Bool.eq_false_iff.mpr (mt s.faulted_henc.mp h)) rfl compressBody

/-- With a symbol present BUILD makes a tree of the shape of 42_tree.md R136. -/
theorem buildBody_of_present {s : State} (hpresent : treeLeaves s.henc.freq ≠ []) (hsum : freqSum s.henc.freq < 2 ^ 32) :
    ∃ (tree : Vector TreeNode 255) (root : NodeId),
      buildBody s = .done { s with henc := { s.henc with root := root, tree := tree, phase := .tree } } ∧
      TreeInv s.henc.freq tree root (presentSymbols s.henc.freq) := by
  rcases buildBody_cases s with ⟨hnone, -⟩ | ⟨-, root, image, hi, hbody⟩
  · exact absurd hnone hpresent
  · exact ⟨_, _, hbody, hi.treeInv (hi.storesImage hsum) hi.toNat_root⟩

/-- Of a built tree GENCODES makes a `prefixFree` table with a code for every symbol present. -/
theorem gencodesBody_of_treeInv {s : State}
    (hi : TreeInv s.henc.freq s.henc.tree s.henc.root (presentSymbols s.henc.freq)) :
    ∃ tab : Vector Entry 256,
      gencodesBody s = .done { s with henc := { s.henc with codeTab := tab, phase := .codes } } ∧ prefixFree tab ∧
      ∀ x, 0 < (bySymbol s.henc.freq x).toNat → 1 ≤ codeLen tab x := by
  obtain ⟨v, hv⟩ := hi.exists_rootCodes
  refine ⟨tableOf v, by rw [gencodesBody, hv], hi.prefixFree_tableOf hv, fun x hx => ?_⟩
  obtain ⟨c, hc⟩ := (hi.exists_treeCode_iff_present x).mpr hx
  exact ((hi.treeCode_iff hv x c).mp hc).1

/-- With a symbol present BUILD and GENCODES make a `prefixFree` table with a code for every symbol present. -/
theorem buildBody_andThen_gencodesBody_of_present {s : State} (hpresent : treeLeaves s.henc.freq ≠ [])
    (hsum : freqSum s.henc.freq < 2 ^ 32) :
    ∃ (tree : Vector TreeNode 255) (root : NodeId) (tab : Vector Entry 256),
      (buildBody s).andThen gencodesBody =
        .done { s with henc := { s.henc with tree := tree, root := root, codeTab := tab, phase := .codes } } ∧
      prefixFree tab ∧ ∀ x, 0 < (bySymbol s.henc.freq x).toNat → 1 ≤ codeLen tab x := by
  obtain ⟨tree, root, hbuild, hi⟩ := buildBody_of_present hpresent hsum
  obtain ⟨tab, hgencodes, hcodes⟩ := gencodesBody_of_treeInv
    (s := { s with henc := { s.henc with root := root, tree := tree, phase := .tree } }) hi
  exact ⟨tree, root, tab, by rw [hbuild, Stage.andThen_done, hgencodes], hcodes⟩

/-- A sequence with a symbol leaves a leaf for BUILD. -/
theorem treeLeaves_symbolCounts_ne_nil {syms : List Byte} (hshort : syms.length < 2 ^ 32) (hne : syms ≠ []) :
    treeLeaves (symbolCounts syms) ≠ [] := by
  obtain ⟨x, hx⟩ := List.exists_mem_of_ne_nil syms hne
  have hpos := (symbolCounts_pos_iff hshort x).mpr hx
  exact List.ne_nil_of_mem ((mem_treeLeaves _ x.toNat).mpr ⟨x.isLt, hpos⟩)

/-- Codes of which not all fit end the loop of ENCODE in CapacityError for BITBUF (44_bitpack.md R163). -/
theorem exists_encodeFrom_eq_capacity {tab : Vector Entry 256} {cap : Nat} {syms : List Byte}
    (hcoded : ∀ x ∈ syms, 1 ≤ codeLen tab x) {n : Nat} (hn : n ≤ cap) (hlt : cap < n + codedLength tab syms) (i : Nat) :
    ∃ pos, encodeFrom tab cap syms i n = .error ⟨.capacity, 5, pos⟩ := by
  induction syms generalizing i n with
  | nil => exact absurd hlt (Nat.not_lt.mpr hn)
  | cons x rest ih =>
    obtain ⟨hx, hrest⟩ := List.forall_mem_cons.mp hcoded
    rw [codedLength, List.map_cons, List.sum_cons, ← Nat.add_assoc] at hlt
    rw [codeLen] at hx hlt
    rw [encodeFrom, if_neg (Nat.one_le_iff_ne_zero.mp hx)]
    by_cases hfit : cap < n + (bySymbol tab x).len.toNat
    · exact ⟨_, if_pos hfit⟩
    · obtain ⟨pos, hpos⟩ := ih hrest (Nat.not_lt.mp hfit) hlt (i + 1)
      exact ⟨pos, by rw [if_neg hfit, hpos]⟩

section
variable {s : State} {syms : List Byte} (hlen : syms.length = s.henc.inLen.toNat) (hin : holds s.henc.inBuf syms)
  (hcap : syms.length ≤ s.caps.inCap.toNat)
include hlen hin hcap

/-- ANALYZE, BUILD and GENCODES make a `prefixFree` table with a code for every symbol of the input. -/
theorem generateCodes_of_written (hne : syms ≠ []) :
    ∃ (freq : Vector Word 256) (nsym : BitVec 9) (tree : Vector TreeNode 255) (root : NodeId) (tab : Vector Entry 256),
      ((analyzeBody s).andThen buildBody).andThen gencodesBody = .done { s with henc := { s.henc with
        freq := freq, nsym := nsym, tree := tree, root := root, codeTab := tab, phase := .codes } } ∧
      prefixFree tab ∧ ∀ x ∈ syms, 1 ≤ codeLen tab x := by
  have hshort : syms.length < 2 ^ 32 := hlen ▸ s.henc.inLen.isLt
  rw [analyzeBody_of_written (hlen ▸ hcap) hlen hin, Stage.andThen_done]
  obtain ⟨tree, root, tab, hdone, hfree, hcoded⟩ := buildBody_andThen_gencodesBody_of_present
    (s := { s with henc := { s.henc with
      freq := symbolCounts syms, nsym := BitVec.ofNat 9 (distinctSymbols (symbolCounts syms)), phase := .counted } })
    (treeLeaves_symbolCounts_ne_nil hshort hne) ((freqSum_symbolCounts hshort).trans_lt hshort)
  exact ⟨_, _, tree, root, tab, hdone, hfree, fun x hx => hcoded x ((symbolCounts_pos_iff hshort x).mpr hx)⟩

/-- ENCODE of symbols that all have codes writes the codes, or ends in CapacityError for BITBUF. -/
theorem encodeBody_of_coded (hcoded : ∀ x ∈ syms, 1 ≤ codeLen s.henc.codeTab x) :
    (codedLength s.henc.codeTab syms ≤ s.caps.bitCap ∧
      encodeBody s = .done { s with henc := { s.henc with
        bitBuf := s.henc.bitBuf.putRun 0 (codedBits s.henc.codeTab syms),
        bitLen := word (codedBits s.henc.codeTab syms).length, phase := .encoded } }) ∨
    ∃ pos, encodeBody s = encodeFail s ⟨.capacity, 5, pos⟩ := by
  rcases Nat.lt_or_ge s.caps.bitCap (codedLength s.henc.codeTab syms) with hlt | hfit
  · have hread := inputSymbols_of_written hlen hin
    obtain ⟨pos, hpos⟩ := exists_encodeFrom_eq_capacity hcoded (Nat.zero_le _) (hlt.trans_eq (Nat.zero_add _).symm) 0
    have hloop : encodeFrom s.henc.codeTab s.caps.bitCap (inputSymbols s).1 0 0 = .error ⟨.capacity, 5, pos⟩ := by
      rw [hread, hpos]
    have hfail := encodeBody_of_error (hlen ▸ hcap) hloop
    rw [hread] at hfail
    exact .inr ⟨pos, hfail⟩
  · exact .inl ⟨hfit, encodeBody_of_written (hlen ▸ hcap) hlen hin
      (fun x hx => Nat.one_le_iff_ne_zero.mp (hcoded x hx)) hfit⟩

end

/-! ### COMPRESS -/

theorem toNat_word {n : Nat} (h : n < 2 ^ 32) : (word n).toNat = n := (BitVec.toNat_ofNat n 32).trans (Nat.mod_eq_of_lt h)

/-- HENC holds what COMPRESS makes of the symbols `syms` (46_orchestrator.md R190): a `prefixFree` table with a
code for each of them, and in OUT_BUF their codes packed. -/
structure HoldsPacked (h : Henc) (syms : List Byte) : Prop where
  phase      : h.phase = .packed
  prefixFree : prefixFree h.codeTab
  coded      : ∀ x ∈ syms, 1 ≤ codeLen h.codeTab x
  outLen     : h.outLen.toNat = (packedBuffer (codedBits h.codeTab syms)).length
  outBuf     : holds h.outBuf (packedBuffer (codedBits h.codeTab syms))

/-- The capacities of 00_scope.md R8 keep the lengths of both bit spaces below 2^32. -/
theorem Capacities.bitCaps_lt {c : Capacities} (h : c.wf = true) : c.bitCap < 2 ^ 32 ∧ c.dBitCap < 2 ^ 32 := by
  simp only [Capacities.wf, Bool.and_eq_true, decide_eq_true_eq] at h
  rw [Capacities.bitCap, Capacities.dBitCap]
  omega

/-- COMPRESS of a written input ends packed, or in CapacityError for BITBUF (46_orchestrator.md R190). -/
theorem compressBody_of_written {s : State} {syms : List Byte} (hwf : s.caps.wf = true)
    (hlen : syms.length = s.henc.inLen.toNat) (hin : holds s.henc.inBuf syms)
    (hcap : syms.length ≤ s.caps.inCap.toNat) (hne : syms ≠ []) :
    (∃ t, compressBody s = .done t ∧ HoldsPacked t.henc syms) ∨
    ∃ t, compressBody s = .raised t ∧ t.henc.phase = .fault ∧ t.henc.err.code = 5 := by
  obtain ⟨freq, nsym, tree, root, tab, hgencodes, hfree, hcoded⟩ := generateCodes_of_written hlen hin hcap hne
  rw [compressBody, hgencodes, Stage.andThen_done]
  rcases encodeBody_of_coded (s := { s with henc := { s.henc with
    freq := freq, nsym := nsym, tree := tree, root := root, codeTab := tab, phase := .codes } }) hlen hin hcap hcoded
    with ⟨hfit, hencode⟩ | ⟨pos, hencode⟩
  · obtain ⟨hbitCap, -⟩ := Capacities.bitCaps_lt hwf
    have hlt : (codedBits tab syms).length < 2 ^ 32 := (length_codedBits tab syms).trans_lt (hfit.trans_lt hbitCap)
    have hout : (packedBuffer (codedBits tab syms)).length < 2 ^ 32 := by
      rw [length_packedBuffer_eq]
      omega
    rw [hencode, Stage.andThen_done,
      packBody_of_written (bits := codedBits tab syms) (toNat_word hlt).symm (overwritten_putRun _ _).holds]
    exact .inl ⟨_, rfl, rfl, hfree, hcoded, toNat_word hout, (overwritten_putRun _ _).holds⟩
  · rw [hencode]
    exact .inr ⟨_, rfl, rfl, rfl⟩

end Sys2Proof.Machine
end

section
/-! SUPPORT. DECODE of the packed codes of a symbol sequence, and the round trip (spec/46_orchestrator.md R191, R194). -/
namespace Sys2Proof.Machine

/-! ### DECODE of a packed buffer -/

/-- The bit that byte `i / 8` of the packed bits holds for index `i` is bit `i`. -/
theorem getLsbD_packedByte_div (bits : Bits) {i : Nat} (h : i < bits.length) :
    (packedByte bits (i / 8)).getLsbD (7 - i % 8) = bits[i] := by
  rw [getLsbD_packedByte _ _ _ (Nat.mod_lt i (by decide)), Nat.div_add_mod, List.getD_eq_getElem?_getD,
    List.getElem?_eq_getElem h, Option.getD_some]

section
variable {s : State} {bits : Bits}
  (hlen : s.hdec.payLen.toNat = (packedBuffer bits).length) (hcap : s.hdec.payLen.toNat ≤ s.caps.payCap.toNat)
  (hbuf : holds s.hdec.payBuf (packedBuffer bits))
include hbuf

/-- The header read from a packed buffer is the padding count. -/
theorem headerByte_of_packed : (headerByte s).1.toNat = paddingOf bits.length := by
  have hpos : 0 < (packedBuffer bits).length := Nat.succ_pos _
  rw [headerByte, Memory.draw_of_some (hbuf 0 hpos)]
  exact toNat_of_packedBuffer_zero (List.getElem?_eq_getElem hpos)

/-- The bits read from a packed buffer are those that were packed. -/
theorem unpackedBits_of_packed (d : Nat) : unpackedBits (payloadBytes s bits.length d).1 = bits := by
  refine List.ext_getElem (by simp) fun i hi hi' => ?_
  have hbyte : 1 + i / 8 < (packedBuffer bits).length := by
    rw [length_packedBuffer_eq]
    omega
  have hcell := hbuf (1 + i / 8) hbyte
  rw [eq_packedByte_of_packedBuffer (List.getElem?_eq_getElem hbyte)] at hcell
  have hbit := getElem?_unpackedBits (getElem?_payloadBytes (d := d) hi' hcell)
  rw [getLsbD_packedByte_div bits hi', List.getElem?_eq_getElem hi] at hbit
  exact Option.some.inj hbit

include hlen hcap

/-- UNPACK of a packed buffer writes the bits that were packed. -/
theorem unpackBody_of_packed :
    ∃ d, unpackBody s = .done { s with
      hdec := { s.hdec with
        dBits := s.hdec.dBits.putRun 0 bits, dBitLen := word bits.length, phase := .unpacked },
      draws := d } := by
  have hheader := headerByte_of_packed hbuf
  have hpad := paddingOf_lt bits.length
  have hadd := add_paddingOf bits.length
  rw [length_packedBuffer_eq] at hlen
  have hbits : 8 * (s.hdec.payLen.toNat - 1) - paddingOf bits.length = bits.length := by omega
  have hbody := unpackBody_of_header_le (s := s) (by omega) hcap (by omega) (by omega)
  rw [hheader, hbits] at hbody
  dsimp only at hbody
  rw [unpackedBits_of_packed hbuf] at hbody
  exact ⟨_, hbody⟩

end

/-- DECODE of the packed codes of a `prefixFree` table gives their symbols, when they fit SYM_BUF. -/
theorem exec_hdecDecode_of_packed {s : State} {syms : List Byte} (hwf : s.caps.wf = true) (hs : s.hdec.phase ≠ .fault)
    (hlen : s.hdec.payLen.toNat = (packedBuffer (codedBits s.hdec.decTab syms)).length)
    (hcap : s.hdec.payLen.toNat ≤ s.caps.payCap.toNat)
    (hbuf : holds s.hdec.payBuf (packedBuffer (codedBits s.hdec.decTab syms))) (hfree : prefixFree s.hdec.decTab)
    (hcoded : ∀ x ∈ syms, 1 ≤ codeLen s.hdec.decTab x) (hroom : syms.length ≤ s.caps.symCap.toNat) :
    ∃ t, exec .hdecDecode s = .next t ∧ t.hdec.phase = .decoded ∧ t.hdec.symLen = word syms.length ∧
      holds t.hdec.symBuf syms := by
  have hword : (word (codedBits s.hdec.decTab syms).length).toNat = (codedBits s.hdec.decTab syms).length := by
    refine toNat_word (Nat.lt_of_le_of_lt ?_ (Capacities.bitCaps_lt hwf).2)
    rw [length_packedBuffer_eq] at hlen
    rw [Capacities.dBitCap]
    omega
  have hloop : scanFrom s.hdec.decTab s.caps.symCap.toNat (codedBits s.hdec.decTab syms) 0 [] 0 0 = .ok syms :=
    scanFrom_matchesAll_fits (hfree.matchesAll hcoded) hroom
  obtain ⟨d, hunpack⟩ := unpackBody_of_packed hlen hcap hbuf
  rw [exec_hdecDecode hs, decodeBody, hunpack, Stage.andThen_done,
    scanBody_of_written hword.symm (overwritten_putRun _ _).holds, hloop]
  exact ⟨_, rfl, rfl, rfl, (overwritten_putRun _ _).holds⟩

/-- Equal codes give equal coded bits. -/
theorem codedBits_congr {t u : Vector Entry 256} (h : ∀ x, codeOf u x = codeOf t x) (syms : List Byte) :
    codedBits u syms = codedBits t syms := by
  rw [codedBits, codedBits, funext h]

/-- Settles O43: COMPRESS leaves a `prefixFree` table and the packed codes of the input; UNPACK gives these codes back, and
each is the shortest match of its symbol. -/
theorem decompressionInvertsCompression : Obligations.DecompressionInvertsCompression := by
  intro s t u syms hwf hs hlen hin hpos hcap ht hspace hcaps hu hroom hpayLen hpayCap hbuf hcodes
  rw [exec_hencCompress hs] at ht
  rcases compressBody_of_written hwf hlen hin hcap (List.ne_nil_of_length_pos hpos) with
    ⟨t', hbody, hpacked⟩ | ⟨t', hbody, hfault⟩
  · rw [hbody] at ht
    cases ht
    have hbits := codedBits_congr (fun x => (hcodes x).2) syms
    have hreceived : holds u.hdec.payBuf (packedBuffer (codedBits t.henc.codeTab syms)) := fun i hi =>
      (hbuf i (hi.trans_eq hpacked.outLen.symm)).trans (hpacked.outBuf i hi)
    obtain ⟨v, hv, hphase, hsymLen, hsyms⟩ := exec_hdecDecode_of_packed (hcaps ▸ hwf) hu
      (by rw [hpayLen, hpacked.outLen, hbits]) (hpayLen ▸ hpayCap) (hbits ▸ hreceived)
      (hpacked.prefixFree.congr hcodes) (fun x hx => (hcodes x).1 ▸ hpacked.coded x hx) hroom
    exact ⟨hpacked.phase, v, hv, hphase, by rw [hsymLen, hlen, word, BitVec.ofNat_toNat, BitVec.setWidth_eq], hsyms⟩
  · rw [hbody] at ht
    cases ht
    exact absurd hfault hspace

end Sys2Proof.Machine
end

section
/-! SUPPORT. The table of legal phases and successor phases (spec/47_control.md R205): which phases a command runs in, what it
does in each of them, and the PHASE its body ends in. -/
namespace Sys2Proof.Machine

/-! ### PHASE by its value -/

theorem HencPhase.beq_iff_code_mem (p q : HencPhase) : (p == q) = true ↔ p.code ∈ [q.code] := by
  cases p <;> cases q <;> decide

theorem HdecPhase.beq_iff_code_mem (p q : HdecPhase) : (p == q) = true ↔ p.code ∈ [q.code] := by
  cases p <;> cases q <;> decide

theorem HencPhase.code_mem_of_ne_fault {p : HencPhase} (h : p ≠ .fault) : p.code ∈ [0, 1, 2, 3, 4, 5] := by
  cases p with
  | fault => exact absurd rfl h
  | _ => decide

theorem HdecPhase.code_mem_of_ne_fault {p : HdecPhase} (h : p ≠ .fault) : p.code ∈ [0, 1, 2] := by
  cases p with
  | fault => exact absurd rfl h
  | _ => decide

theorem State.phaseCode_of_inFault {s : State} {u : UnitId} (h : inFault s u) : s.phaseCode u = 7 := by
  cases u with
  | henc => exact congrArg HencPhase.code h
  | hdec => exact congrArg HdecPhase.code h

theorem State.faulted_eq_false {s : State} {u : UnitId} (h : ¬ inFault s u) : s.faulted u = false :=
  Bool.eq_false_iff.mpr (mt (s.faulted_iff_inFault u).mp h)

/-- Outside FAULT, the model's test of legality is the table of R205. -/
theorem legal_iff_mem_runsIn {i : Instr} {s : State} (h : ¬ inFault s i.unit) :
    legal i s = true ↔ s.phaseCode i.unit ∈ runsIn i := by
  cases i with
  | hencNop | hencClear => exact iff_of_true rfl (List.mem_append_left [7] (HencPhase.code_mem_of_ne_fault h))
  | hencTabclr | hencUsetab | hencAnalyze | hencCompress => exact iff_of_true rfl (HencPhase.code_mem_of_ne_fault h)
  | hencBuild => exact HencPhase.beq_iff_code_mem _ .counted
  | hencGencodes => exact HencPhase.beq_iff_code_mem _ .tree
  | hencEncode => exact HencPhase.beq_iff_code_mem _ .codes
  | hencPack => exact HencPhase.beq_iff_code_mem _ .encoded
  | hdecNop | hdecClear => exact iff_of_true rfl (List.mem_append_left [7] (HdecPhase.code_mem_of_ne_fault h))
  | hdecTabclr | hdecUnpack | hdecDecode => exact iff_of_true rfl (HdecPhase.code_mem_of_ne_fault h)
  | hdecScan => exact HdecPhase.beq_iff_code_mem _ .unpacked

/-! ### What a command does in a phase -/

/-- The body of each command, what it does once it may run; NOP and CLEAR have no prologue (47_control.md R200, R201, R207). -/
def commandBody : Instr → State → Stage
  | .hencNop | .hdecNop => .done
  | .hencClear    => fun s => .done (s.clear .henc)
  | .hdecClear    => fun s => .done (s.clear .hdec)
  | .hencTabclr   => hencTabclrBody
  | .hencUsetab   => usetabBody
  | .hencAnalyze  => analyzeBody
  | .hencBuild    => buildBody
  | .hencGencodes => gencodesBody
  | .hencEncode   => encodeBody
  | .hencPack     => packBody
  | .hencCompress => compressBody
  | .hdecTabclr   => hdecTabclrBody
  | .hdecUnpack   => unpackBody
  | .hdecScan     => scanBody
  | .hdecDecode   => decodeBody

theorem exec_of_inFault {i : Instr} {s : State} (h : inFault s i.unit) (hhenc : i ≠ .hencClear) (hhdec : i ≠ .hdecClear) :
    exec i s = .next s := by
  have hf := (s.faulted_iff_inFault i.unit).mpr h
  cases i with
  | hencNop | hdecNop => rfl
  | hencClear => exact absurd rfl hhenc
  | hdecClear => exact absurd rfl hhdec
  | _ => exact prologue_of_faulted hf _

theorem exec_of_legal {i : Instr} {s : State} (h : ¬ inFault s i.unit) (hl : legal i s = true) :
    exec i s = (commandBody i s).result := by
  have hf := State.faulted_eq_false h
  cases i with
  | hencNop | hdecNop | hencClear | hdecClear => rfl
  | _ => exact prologue_of_legal hf hl _

theorem exec_of_illegal {i : Instr} {s : State} (h : ¬ inFault s i.unit) (hl : legal i s = false) :
    exec i s = .next (s.raise i.unit (illegalCommand s i.unit (encode i))) := by
  have hf := State.faulted_eq_false h
  cases i with
  | hencNop | hdecNop | hencClear | hdecClear => cases hl
  | _ => exact prologue_of_illegal hf hl _

/-- A command that the table lists in FAULT runs its body in every phase. -/
theorem exec_of_fault_mem_runsIn {i : Instr} (h : 7 ∈ runsIn i) (s : State) : exec i s = (commandBody i s).result := by
  cases i with
  | hencNop | hdecNop | hencClear | hdecClear => rfl
  | _ => exact absurd h (by decide)

/-- In a phase the table lists for it, a command runs its body. -/
theorem exec_of_mem_runsIn {i : Instr} {s : State} (h : s.phaseCode i.unit ∈ runsIn i) :
    exec i s = (commandBody i s).result := by
  by_cases hf : inFault s i.unit
  · exact exec_of_fault_mem_runsIn (State.phaseCode_of_inFault hf ▸ h) s
  · exact exec_of_legal hf ((legal_iff_mem_runsIn hf).mpr h)

/-- Outside FAULT, in a phase the table does not list for it, a command raises IllegalCommandError. -/
theorem exec_of_not_mem_runsIn {i : Instr} {s : State} (hf : ¬ inFault s i.unit) (h : s.phaseCode i.unit ∉ runsIn i) :
    exec i s = .next (s.raise i.unit (illegalCommand s i.unit (encode i))) :=
  exec_of_illegal hf (Bool.eq_false_iff.mpr (mt (legal_iff_mem_runsIn hf).mp h))

/-! ### The PHASE a body ends in -/

/-- The PHASE of the unit is `c` after a success and FAULT after a failure. -/
def Stage.entersPhase (u : UnitId) (c : BitVec 3) : Stage → Prop
  | .done s   => s.phaseCode u = c
  | .raised s => inFault s u
  | .stuck _  => True

theorem Stage.entersPhase_andThen {u : UnitId} {c c' : BitVec 3} {x : Stage} {b : State → Stage}
    (hx : x.entersPhase u c) (hb : ∀ s, (b s).entersPhase u c') : (x.andThen b).entersPhase u c' := by
  cases x with
  | done s => exact hb s
  | raised s => exact hx
  | stuck f => trivial

theorem analyzeBody_entersPhase (s : State) : (analyzeBody s).entersPhase .henc 1 := by
  rcases Nat.lt_or_ge s.caps.inCap.toNat s.henc.inLen.toNat with hlt | hle
  · rw [analyzeBody_of_lt hlt]
    rfl
  · rw [analyzeBody_of_le hle]
    rfl

theorem buildBody_entersPhase (s : State) : (buildBody s).entersPhase .henc 2 := by
  rcases buildBody_cases s with ⟨-, hbody⟩ | ⟨-, root, image, -, hbody⟩
  · rw [hbody]
    rfl
  · rw [hbody]
    rfl

theorem gencodesBody_entersPhase (s : State) : (gencodesBody s).entersPhase .henc 3 := by
  unfold gencodesBody
  split
  · trivial
  · rfl

theorem encodeBody_entersPhase (s : State) : (encodeBody s).entersPhase .henc 4 := by
  rcases Nat.lt_or_ge s.caps.inCap.toNat s.henc.inLen.toNat with hlt | hle
  · rw [encodeBody_of_lt hlt]
    rfl
  · cases hloop : encodeFrom s.henc.codeTab s.caps.bitCap (inputSymbols s).1 0 0 with
    | error f =>
      rw [encodeBody_of_error hle hloop]
      rfl
    | ok c =>
      rw [encodeBody_of_ok hle hloop]
      rfl

theorem packBody_entersPhase (s : State) : (packBody s).entersPhase .henc 5 := rfl

theorem compressBody_entersPhase (s : State) : (compressBody s).entersPhase .henc 5 := by
  have htree := Stage.entersPhase_andThen (analyzeBody_entersPhase s) buildBody_entersPhase
  have hcodes := Stage.entersPhase_andThen htree gencodesBody_entersPhase
  have hencoded := Stage.entersPhase_andThen hcodes encodeBody_entersPhase
  exact Stage.entersPhase_andThen hencoded packBody_entersPhase

theorem unpackBody_entersPhase (s : State) : (unpackBody s).entersPhase .hdec 1 := by
  rcases unpackBody_cases s with ⟨t, hbody, hphase⟩ | ⟨t, hbody, hphase⟩
  · rw [hbody]
    exact hphase
  · rw [hbody]
    exact congrArg HdecPhase.code hphase

theorem scanBody_entersPhase (s : State) : (scanBody s).entersPhase .hdec 2 := by
  unfold scanBody
  dsimp only
  split <;> rfl

theorem decodeBody_entersPhase (s : State) : (decodeBody s).entersPhase .hdec 2 :=
  Stage.entersPhase_andThen (unpackBody_entersPhase s) scanBody_entersPhase

/-- Every body ends in the PHASE the table gives, or in FAULT. -/
theorem commandBody_entersPhase (i : Instr) (s : State) :
    (commandBody i s).entersPhase i.unit (phaseAfter (s.phaseCode i.unit) i) := by
  cases i with
  | hencNop | hencClear | hencTabclr | hencUsetab | hdecNop | hdecClear | hdecTabclr => rfl
  | hencAnalyze => exact analyzeBody_entersPhase s
  | hencBuild => exact buildBody_entersPhase s
  | hencGencodes => exact gencodesBody_entersPhase s
  | hencEncode => exact encodeBody_entersPhase s
  | hencPack => exact packBody_entersPhase s
  | hencCompress => exact compressBody_entersPhase s
  | hdecUnpack => exact unpackBody_entersPhase s
  | hdecScan => exact scanBody_entersPhase s
  | hdecDecode => exact decodeBody_entersPhase s

theorem gencodesBody_ne_raised (s t : State) : gencodesBody s ≠ .raised t := by
  unfold gencodesBody
  split <;> nofun

theorem canFail_of_raised {i : Instr} {s t : State} (h : commandBody i s = .raised t) : canFail i = true := by
  cases i with
  | hencAnalyze | hencBuild | hencEncode | hencCompress | hdecUnpack | hdecScan | hdecDecode => rfl
  | hencGencodes => exact absurd h (gencodesBody_ne_raised s t)
  | hencNop | hencClear | hencTabclr | hencUsetab | hencPack | hdecNop | hdecClear | hdecTabclr => cases h

/-- A body that goes on leaves the PHASE the table gives, or FAULT when the command can fail. -/
theorem phaseCode_of_commandBody {i : Instr} {s t : State} (h : (commandBody i s).result = .next t) :
    t.phaseCode i.unit = phaseAfter (s.phaseCode i.unit) i ∨ (canFail i = true ∧ inFault t i.unit) := by
  have hphase := commandBody_entersPhase i s
  rcases Stage.result_eq_next.mp h with hdone | hraised
  · rw [hdone] at hphase
    exact .inl hphase
  · rw [hraised] at hphase
    exact .inr ⟨canFail_of_raised hraised, hphase⟩

/-- Settles O15: a command is ignored, illegal, or runs its body, and the body knows the PHASE it ends in. -/
theorem commandsFollowThePhaseTable : Obligations.CommandsFollowThePhaseTable := by
  refine fun i s => ⟨exec_of_inFault, fun hf h hu => ?_, fun hf h hu => ?_, fun h t ht => ?_⟩
  · rw [exec_of_not_mem_runsIn hf h, hu]
    rfl
  · rw [exec_of_not_mem_runsIn hf h, hu]
    rfl
  · exact phaseCode_of_commandBody ((exec_of_mem_runsIn h).symm.trans ht)

/-! ### The control commands -/

/-- Settles O9: NOP has no prologue and no effect. -/
theorem nopChangesNothing : Obligations.NopChangesNothing := fun _ => ⟨rfl, rfl⟩

/-- Settles O11: TABCLR is legal in every phase outside FAULT. -/
theorem hencTabclrEmptiesCodeTab : Obligations.HencTabclrEmptiesCodeTab := fun _ hs =>
  exec_of_legal (i := .hencTabclr) hs rfl

/-- Settles O12: TABCLR on HDEC is legal in every phase outside FAULT, and its body does not write PHASE. -/
theorem hdecTabclrEmptiesDecTab : Obligations.HdecTabclrEmptiesDecTab := fun _ hs =>
  exec_of_legal (i := .hdecTabclr) hs rfl

/-- Settles O13: USETAB is legal in every phase outside FAULT, and its body reads no table. -/
theorem usetabPutsTheTableInForce : Obligations.UsetabPutsTheTableInForce := fun _ hs =>
  exec_of_legal (i := .hencUsetab) hs rfl

end Sys2Proof.Machine
end

section
/-! SUPPORT. The return from FAULT (spec/60_exceptions.md R224). -/
namespace Sys2Proof.Machine

/-- Settles O10: the table lists CLEAR in FAULT, so it runs its body, `State.clear`, in every phase. -/
theorem clearReturnsItsUnitToIdle : Obligations.ClearReturnsItsUnitToIdle := fun s =>
  ⟨exec_of_fault_mem_runsIn (i := .hencClear) (by decide) s, exec_of_fault_mem_runsIn (i := .hdecClear) (by decide) s⟩

end Sys2Proof.Machine
end

section
/-! SUPPORT. What a step can do, once for every event: a transaction is refused, reads, writes storage or runs a command
(spec/20_memory.md R63, R64, R77), and every command has the frame of its unit (10_state.md R20). -/
namespace Sys2Proof.Machine

/-! ### Transactions -/

/-- The four things a transaction can do: it is refused, it reads, it writes storage, or it writes a word to CMD. -/
theorem transact_cases (t : Transaction) (s : State) :
    transact t s = .next (s.respond refusedResponse) ∨
    (t.kind = .read ∧ ∃ n d, transact t s = .next ({ s with draws := n }.respond ⟨.ok, d⟩)) ∨
    (t.kind = .write ∧ ∃ sp r, writeElement s sp t.index.toNat t.wdata = some r ∧
      transact t s = .next (r.respond ⟨.ok, 0⟩)) ∨
    ∃ u w, t = writeOf u 0 1 w ∧ transact t s = thenDo (·.respond ⟨.ok, 0⟩) (command u w s) := by
  cases hs : spaceOf t.unit t.space with
  | none => exact .inl (transact_of_no_space hs s)
  | some sp =>
    cases hk : t.kind with
    | read =>
      cases hr : readElement s sp t.index.toNat with
      | none => exact .inl (transact_of_read_none hs hk hr)
      | some x =>
        obtain ⟨d, r⟩ := x
        have hread := transact_of_read hs hk hr
        rw [readElement_frame hr] at hread
        exact .inr (.inl ⟨rfl, r.draws, d, hread⟩)
    | write =>
      cases hc : isCmd sp t.index.toNat with
      | true =>
        obtain ⟨hreg, hindex⟩ : (sp = .hencReg ∨ sp = .hdecReg) ∧ t.index.toNat = 1 := by simpa [isCmd] using hc
        obtain ⟨-, hspace⟩ := spaceOf_eq_some_iff.mp hs
        have hzero : t.space = 0 := by rcases hreg with rfl | rfl <;> exact hspace
        have hone : t.index = word 1 := BitVec.eq_of_toNat_eq hindex
        refine .inr (.inr (.inr ⟨t.unit, t.wdata, ?_, transact_of_command hs hk hc⟩))
        rw [writeOf, ← hzero, ← hone, ← hk]
      | false =>
        cases hw : writeElement s sp t.index.toNat t.wdata with
        | none => exact .inl (transact_of_write_none hs hk hc hw)
        | some r => exact .inr (.inr (.inl ⟨rfl, sp, r, hw, transact_of_write hs hk hc hw⟩))

/-- The step of a write to CMD runs the written word and answers OK. -/
theorem step_writeOf_cmd (s : State) (u : UnitId) (w : Word) (rest : List Event) :
    step (atTransaction s (writeOf u 0 1 w) rest) =
      thenDo (·.respond ⟨.ok, 0⟩) (command u w { s with pending := rest }) := by
  cases u with
  | henc => exact transact_of_command (t := writeOf .henc 0 1 w) (sp := .hencReg) rfl rfl rfl
  | hdec => exact transact_of_command (t := writeOf .hdec 0 1 w) (sp := .hdecReg) rfl rfl rfl

theorem command_of_ok {u : UnitId} {w : Word} {i : Instr} (h : decode u w = .ok i) (s : State) :
    command u w s = exec i s := by
  rw [command, h]

/-- A word that is no command of the unit goes to `illegalWord`. -/
theorem command_of_illegal {u : UnitId} {w : Word} (h : ∀ i, decode u w ≠ .ok i) (s : State) :
    command u w s = .next (illegalWord u w s) := by
  rw [command]
  cases hd : decode u w with
  | ok i => exact absurd hd (h i)
  | error e => rfl

/-- A word written to CMD is a command of the unit or illegal. -/
theorem command_cases (u : UnitId) (w : Word) (s : State) :
    (∃ i, i.unit = u ∧ encode i = w ∧ command u w s = exec i s) ∨ command u w s = .next (illegalWord u w s) := by
  by_cases h : ∃ i, decode u w = .ok i
  · obtain ⟨i, hi⟩ := h
    obtain ⟨hu, hw⟩ := unit_encode_of_decode hi
    exact .inl ⟨i, hu, hw, command_of_ok hi s⟩
  · exact .inr (command_of_illegal (not_exists.mp h) s)

theorem illegalWord_of_inFault {u : UnitId} {s : State} (h : inFault s u) (w : Word) : illegalWord u w s = s :=
  if_pos ((s.faulted_iff_inFault u).mpr h)

theorem illegalWord_of_not_inFault {u : UnitId} {s : State} (h : ¬ inFault s u) (w : Word) :
    illegalWord u w s = s.raise u (illegalCommand s u w) :=
  if_neg (mt (s.faulted_iff_inFault u).mp h)

/-! ### Frames of the commands -/

/-- Nothing but the unit `u` and the count of draws differs. -/
def unitOnly (u : UnitId) (s t : State) : Prop :=
  match u with
  | .henc => hencOnly s t
  | .hdec => hdecOnly s t

theorem unitOnly_refl (u : UnitId) (s : State) : unitOnly u s s := by
  cases u <;> exact ⟨rfl, rfl, rfl, rfl⟩

theorem unitOnly_raise (u : UnitId) (s : State) (f : Failure) : unitOnly u s (s.raise u f) := by
  cases u <;> exact ⟨rfl, rfl, rfl, rfl⟩

theorem unitOnly_clear (u : UnitId) (s : State) : unitOnly u s (s.clear u) := by
  cases u <;> exact ⟨rfl, rfl, rfl, rfl⟩

/-- The other unit keeps its FAULT and its error registers. -/
theorem unitOnly.errRegs_of_ne {u v : UnitId} {s t : State} (h : unitOnly u s t) (hne : v ≠ u) :
    (inFault t v ↔ inFault s v) ∧ t.errRegs v = s.errRegs v := by
  cases u with
  | henc =>
    obtain ⟨-, hhdec, -⟩ := h
    cases v with
    | henc => exact absurd rfl hne
    | hdec => simp only [inFault, State.errRegs, hhdec, true_and, iff_self]
  | hdec =>
    obtain ⟨-, hhenc, -⟩ := h
    cases v with
    | henc => simp only [inFault, State.errRegs, hhenc, true_and, iff_self]
    | hdec => exact absurd rfl hne

/-- The body of a command changes its own unit only. -/
theorem commandBody_frame (i : Instr) (s : State) : (commandBody i s).endsIn (unitOnly i.unit s) := by
  cases i with
  | hencNop => exact unitOnly_refl .henc s
  | hdecNop => exact unitOnly_refl .hdec s
  | hencClear => exact unitOnly_clear .henc s
  | hdecClear => exact unitOnly_clear .hdec s
  | hencTabclr | hencUsetab | hdecTabclr => exact ⟨rfl, rfl, rfl, rfl⟩
  | hencAnalyze => exact analyzeBody_frame s
  | hencBuild => exact buildBody_frame s
  | hencGencodes => exact gencodesBody_frame s
  | hencEncode => exact encodeBody_frame s
  | hencPack => exact packBody_frame s
  | hencCompress => exact compressBody_frame s
  | hdecUnpack => exact unpackBody_frame s
  | hdecScan => exact scanBody_frame s
  | hdecDecode => exact decodeBody_frame s

/-- In FAULT, a command that the table does not list there is ignored; CLEAR is listed. -/
theorem exec_of_inFault_of_not_mem_runsIn {i : Instr} {s : State} (hf : inFault s i.unit)
    (h : s.phaseCode i.unit ∉ runsIn i) : exec i s = .next s := by
  rw [State.phaseCode_of_inFault hf] at h
  exact exec_of_inFault hf (by rintro rfl; exact h (by decide)) (by rintro rfl; exact h (by decide))

/-- The three things a command can do: nothing, raise IllegalCommandError, or run its body. -/
theorem exec_cases (i : Instr) (s : State) :
    (inFault s i.unit ∧ exec i s = .next s) ∨
    exec i s = .next (s.raise i.unit (illegalCommand s i.unit (encode i))) ∨
    exec i s = (commandBody i s).result := by
  by_cases h : s.phaseCode i.unit ∈ runsIn i
  · exact .inr (.inr (exec_of_mem_runsIn h))
  · by_cases hf : inFault s i.unit
    · exact .inl ⟨hf, exec_of_inFault_of_not_mem_runsIn hf h⟩
    · exact .inr (.inl (exec_of_not_mem_runsIn hf h))

/-- A command changes its own unit only, whether it succeeds or fails. -/
theorem unitOnly_of_exec {i : Instr} {s t : State} (h : exec i s = .next t) : unitOnly i.unit s t := by
  rcases exec_cases i s with ⟨-, hsame⟩ | hraise | hbody
  · cases hsame.symm.trans h
    exact unitOnly_refl _ s
  · cases hraise.symm.trans h
    exact unitOnly_raise _ s _
  · exact Stage.endsIn_of_result (commandBody_frame i s) (hbody.symm.trans h)

/-- Settles O55: a command is ignored, illegal, or runs a body, and each has the frame of its unit. -/
theorem commandsLeaveTheOtherUnitAlone : Obligations.CommandsLeaveTheOtherUnitAlone := by
  intro i s t h
  have hframe := unitOnly_of_exec h
  cases hu : i.unit with
  | henc =>
    rw [hu] at hframe
    obtain ⟨hcaps, hhdec, hpending, hresponse⟩ := hframe
    exact ⟨fun _ => hhdec, nofun, hcaps, hpending, hresponse⟩
  | hdec =>
    rw [hu] at hframe
    obtain ⟨hcaps, hhenc, hpending, hresponse⟩ := hframe
    exact ⟨nofun, fun _ => hhenc, hcaps, hpending, hresponse⟩

end Sys2Proof.Machine
end

section
/-! SUPPORT. The invariant of the block (spec/10_state.md R46): what each change of a unit keeps of it, that every command
ends and keeps it, and the step. -/
namespace Sys2Proof.Machine

/-! ### Buffers and error registers -/

section
variable {α : Type} {m : Memory α} {cap : Nat}

theorem bufInv_nil (cap : Nat) : BufInv ([] : Memory α) cap := ⟨Memory.wf_nil, Memory.below_nil cap⟩

theorem BufInv.put (h : BufInv m cap) {a : Nat} (ha : a < cap) (v : α) : BufInv (m.put a v) cap :=
  ⟨Memory.wf_put h.wf a v, Memory.below_put h.below ha v⟩

/-- A run of writes from cell 0 that fits keeps the buffer inside its capacity. -/
theorem BufInv.putRun (h : BufInv m cap) {vs : List α} (hfit : vs.length ≤ cap) : BufInv (m.putRun 0 vs) cap :=
  ⟨Memory.wf_putRun h.wf 0 vs, Memory.below_putRun h.below ((Nat.zero_add _).trans_le hfit)⟩

/-- The cells written from 0 up hold values, as far as a length register that is no larger counts them. -/
theorem writtenBelow_putRun (m : Memory α) (vs : List α) {n : Nat} (hn : n ≤ vs.length) :
    writtenBelow (m.putRun 0 vs) n := fun a ha => by
  rw [(overwritten_putRun m vs).holds a (ha.trans_le hn)]
  rfl

theorem toNat_word_le (n : Nat) : (word n).toNat ≤ n := (BitVec.toNat_ofNat n 32).trans_le (Nat.mod_le n _)

end

/-- An error leaves FAULT with a code of 60_exceptions.md R216. -/
theorem errInv_regs (f : Failure) : ErrInv true f.regs := by
  have hcode : f.kind.code ≠ 0 ∧ f.kind.code.toNat ≤ 5 := by cases f.kind <;> decide
  exact ⟨iff_of_true rfl hcode.1, hcode.2, fun h => absurd h hcode.1⟩

theorem errInv_zero : ErrInv false ⟨0, 0, 0⟩ := ⟨by decide, by decide, fun _ => ⟨rfl, rfl⟩⟩

/-! ### Changes of HENC -/

section
variable {c : Capacities} {h : Henc} (hi : HencInv c h)
include hi

/-- FAULT, whatever TREE and ROOT are left as. -/
theorem HencInv.fail (tree : Vector TreeNode 255) (root : NodeId) (f : Failure) :
    HencInv c { h with tree := tree, root := root, phase := .fault, err := f.regs } :=
  { hi with err := errInv_regs f, tree := nofun, bits := nofun, out := nofun }

theorem HencInv.clear : HencInv c { h with phase := .idle, err := ⟨0, 0, 0⟩ } :=
  { hi with err := errInv_zero, tree := nofun, bits := nofun, out := nofun }

/-- A failed ENCODE empties BITBUF. -/
theorem HencInv.dropBits : HencInv c { h with bitLen := 0, bitBuf := [] } :=
  { hi with bitBuf := bufInv_nil _, bitLen := Nat.zero_le _, bits := fun _ => nofun }

theorem HencInv.setInLen (n : Word) : HencInv c { h with inLen := n } := { hi with }

theorem HencInv.setCodeTab (t : Vector Entry 256) : HencInv c { h with codeTab := t } := { hi with }

theorem HencInv.putInBuf {a : Nat} (ha : a < c.inCap.toNat) (v : Byte) :
    HencInv c { h with inBuf := h.inBuf.put a v } :=
  { hi with inBuf := hi.inBuf.put ha v }

variable (hp : h.phase ≠ .fault)
include hp

/-- Outside FAULT the error registers are those of a unit without an error. -/
theorem HencInv.errInv : ErrInv false h.err := by
  have herr := hi.err
  rwa [beq_eq_false_iff_ne.mpr hp] at herr

theorem HencInv.toIdle : HencInv c { h with phase := .idle } :=
  { hi with err := hi.errInv hp, tree := nofun, bits := nofun, out := nofun }

theorem HencInv.toCodes : HencInv c { h with phase := .codes } :=
  { hi with err := hi.errInv hp, tree := nofun, bits := nofun, out := nofun }

theorem HencInv.toCounted {freq : Vector Word 256} {nsym : BitVec 9} (hsum : Machine.freqSum freq ≤ 2 ^ 32 - 1)
    (hnsym : nsym.toNat = presentSymbols freq) :
    HencInv c { h with freq := freq, nsym := nsym, phase := .counted } :=
  { hi with err := hi.errInv hp, freqSum := hsum, nsym := hnsym, tree := nofun, bits := nofun, out := nofun }

theorem HencInv.toTree {tree : Vector TreeNode 255} {root : NodeId}
    (htree : TreeInv h.freq tree root (presentSymbols h.freq)) :
    HencInv c { h with root := root, tree := tree, phase := .tree } :=
  { hi with err := hi.errInv hp, tree := fun _ => hi.nsym ▸ htree, bits := nofun, out := nofun }

theorem HencInv.toEncoded {b : Bits} (hfit : b.length ≤ c.bitCap) :
    HencInv c { h with bitBuf := h.bitBuf.putRun 0 b, bitLen := word b.length, phase := .encoded } :=
  { hi with
    err := hi.errInv hp, bitBuf := hi.bitBuf.putRun hfit, bitLen := (toNat_word_le _).trans hfit, tree := nofun,
    bits := fun _ => writtenBelow_putRun _ _ (toNat_word_le _), out := nofun }

end

/-- PACK keeps the bits of ENCODE written and fills OUT_BUF as far as OUT_LEN. -/
theorem HencInv.toPacked {c : Capacities} {h : Henc} (hi : HencInv c h) (hp : h.phase = .encoded) {out : List Byte}
    (hfit : out.length ≤ c.outCap.toNat) :
    HencInv c { h with outBuf := h.outBuf.putRun 0 out, outLen := word out.length, phase := .packed } :=
  { hi with
    err := hi.errInv (by rw [hp]; nofun), outBuf := hi.outBuf.putRun hfit, outLen := (toNat_word_le _).trans hfit,
    tree := nofun, bits := fun _ => hi.bits (.inl hp), out := fun _ => writtenBelow_putRun _ _ (toNat_word_le _) }

/-! ### Changes of HDEC -/

section
variable {c : Capacities} {h : Hdec} (hi : HdecInv c h)
include hi

theorem HdecInv.fail (f : Failure) : HdecInv c { h with phase := .fault, err := f.regs } :=
  { hi with err := errInv_regs f, bits := nofun, syms := nofun }

theorem HdecInv.clear : HdecInv c { h with phase := .idle, err := ⟨0, 0, 0⟩ } :=
  { hi with err := errInv_zero, bits := nofun, syms := nofun }

/-- A failed UNPACK leaves no bits in DBITS. -/
theorem HdecInv.dropBits : HdecInv c { h with dBitLen := 0 } :=
  { hi with dBitLen := Nat.zero_le _, bits := fun _ => nofun }

/-- A failed SCAN empties SYM_BUF. -/
theorem HdecInv.dropSyms : HdecInv c { h with symLen := 0, symBuf := [] } :=
  { hi with symBuf := bufInv_nil _, symLen := Nat.zero_le _, syms := fun _ => nofun }

theorem HdecInv.setPayLen (n : Word) : HdecInv c { h with payLen := n } := { hi with }

theorem HdecInv.setDecTab (t : Vector Entry 256) : HdecInv c { h with decTab := t } := { hi with }

theorem HdecInv.putPayBuf {a : Nat} (ha : a < c.payCap.toNat) (v : Byte) :
    HdecInv c { h with payBuf := h.payBuf.put a v } :=
  { hi with payBuf := hi.payBuf.put ha v }

variable (hp : h.phase ≠ .fault)
include hp

theorem HdecInv.errInv : ErrInv false h.err := by
  have herr := hi.err
  rwa [beq_eq_false_iff_ne.mpr hp] at herr

theorem HdecInv.toUnpacked {b : Bits} {n : Nat} (hn : n = b.length) (hfit : b.length ≤ c.dBitCap) :
    HdecInv c { h with dBits := h.dBits.putRun 0 b, dBitLen := word n, phase := .unpacked } := by
  subst hn
  exact { hi with
    err := hi.errInv hp, dBits := hi.dBits.putRun hfit, dBitLen := (toNat_word_le _).trans hfit,
    bits := fun _ => writtenBelow_putRun _ _ (toNat_word_le _), syms := nofun }

end

/-- SCAN keeps the bits of UNPACK written and fills SYM_BUF as far as SYM_LEN. -/
theorem HdecInv.toDecoded {c : Capacities} {h : Hdec} (hi : HdecInv c h) (hp : h.phase = .unpacked) {out : List Byte}
    (hfit : out.length ≤ c.symCap.toNat) :
    HdecInv c { h with symBuf := h.symBuf.putRun 0 out, symLen := word out.length, phase := .decoded } :=
  { hi with
    err := hi.errInv (by rw [hp]; nofun), symBuf := hi.symBuf.putRun hfit, symLen := (toNat_word_le _).trans hfit,
    bits := fun _ => hi.bits (.inl hp), syms := fun _ => writtenBelow_putRun _ _ (toNat_word_le _) }

/-! ### Changes of the block -/

section
variable {s : State} (hs : Inv s)
include hs

theorem Inv.raise (u : UnitId) (f : Failure) : Inv (s.raise u f) := by
  cases u with
  | henc => exact ⟨hs.caps, hs.henc.fail _ _ f, hs.hdec⟩
  | hdec => exact ⟨hs.caps, hs.henc, hs.hdec.fail f⟩

theorem Inv.clear (u : UnitId) : Inv (s.clear u) := by
  cases u with
  | henc => exact ⟨hs.caps, hs.henc.clear, hs.hdec⟩
  | hdec => exact ⟨hs.caps, hs.henc, hs.hdec.clear⟩

theorem Inv.respond (r : Response) : Inv (s.respond r) := ⟨hs.caps, hs.henc, hs.hdec⟩

theorem Inv.setDraws (n : Nat) : Inv { s with draws := n } := ⟨hs.caps, hs.henc, hs.hdec⟩

theorem Inv.setPending (rest : List Event) : Inv { s with pending := rest } := ⟨hs.caps, hs.henc, hs.hdec⟩

theorem Inv.illegalWord (u : UnitId) (w : Word) : Inv (illegalWord u w s) := by
  by_cases h : inFault s u
  · rwa [illegalWord_of_inFault h]
  · rw [illegalWord_of_not_inFault h]
    exact hs.raise u _

/-- A write to storage stays inside the buffers' capacities and writes nothing else that the invariant speaks of. -/
theorem Inv.writeElement {sp : Space} {i : Nat} {v : Word} {r : State} (h : writeElement s sp i v = some r) : Inv r := by
  rcases writeElement_cases h with ⟨-, -, rfl⟩ | ⟨-, -, rfl⟩ | ⟨-, hlt, rfl⟩ | ⟨-, hlt, rfl⟩ | ⟨-, t, -, rfl⟩ |
    ⟨-, t, -, rfl⟩
  · exact ⟨hs.caps, hs.henc.setInLen v, hs.hdec⟩
  · exact ⟨hs.caps, hs.henc, hs.hdec.setPayLen v⟩
  · exact ⟨hs.caps, hs.henc.putInBuf hlt _, hs.hdec⟩
  · exact ⟨hs.caps, hs.henc, hs.hdec.putPayBuf hlt _⟩
  · exact ⟨hs.caps, hs.henc.setCodeTab t, hs.hdec⟩
  · exact ⟨hs.caps, hs.henc, hs.hdec.setDecTab t⟩

end

theorem freqSum_replicate_zero : freqSum (Vector.replicate 256 0) = 0 := by
  rw [freqSum, Vector.toList_replicate, List.map_replicate, List.sum_replicate]
  rfl

theorem presentSymbols_replicate_zero : presentSymbols (Vector.replicate 256 0) = 0 := by
  rw [presentSymbols, Vector.toList_replicate, List.countP_replicate]
  rfl

/-- A unit after reset meets the invariant in every configuration. -/
theorem hencInv_reset (c : Capacities) : HencInv c Henc.reset where
  err     := errInv_zero
  inBuf   := bufInv_nil _
  bitBuf  := bufInv_nil _
  outBuf  := bufInv_nil _
  freqSum := freqSum_replicate_zero.trans_le (Nat.zero_le _)
  nsym    := presentSymbols_replicate_zero.symm
  bitLen  := Nat.zero_le _
  outLen  := Nat.zero_le _
  tree    := nofun
  bits    := nofun
  out     := nofun

theorem hdecInv_reset (c : Capacities) : HdecInv c Hdec.reset where
  err     := errInv_zero
  payBuf  := bufInv_nil _
  dBits   := bufInv_nil _
  symBuf  := bufInv_nil _
  dBitLen := Nat.zero_le _
  symLen  := Nat.zero_le _
  bits    := nofun
  syms    := nofun

theorem Inv.rst {s : State} (hs : Inv s) : Inv s.rst := ⟨hs.caps, hencInv_reset _, hdecInv_reset _⟩

/-- Settles O52: both units are as after reset, and the reference configuration is well formed. -/
theorem resetStateIsSafe : Obligations.ResetStateIsSafe := ⟨by decide, hencInv_reset _, hdecInv_reset _⟩

/-! ### The bodies -/

/-- When the loop over the bits read emits `out`, SCAN writes it to SYM_BUF. -/
theorem scanBody_of_ok {s : State} {out : List Byte}
    (hout : scanFrom s.hdec.decTab s.caps.symCap.toNat (payloadBits s).1 0 [] 0 0 = .ok out) :
    scanBody s = .done { s with
      hdec := { s.hdec with symBuf := s.hdec.symBuf.putRun 0 out, symLen := word out.length, phase := .decoded },
      draws := (payloadBits s).2 } := by
  simp only [scanBody, hout]

/-- When the loop over the bits read fails, SCAN fails with its error. -/
theorem scanBody_of_error {s : State} {f : Failure}
    (hf : scanFrom s.hdec.decTab s.caps.symCap.toNat (payloadBits s).1 0 [] 0 0 = .error f) :
    scanBody s = scanFail { s with draws := (payloadBits s).2 } f := by
  simp only [scanBody, hf]

/-- The body ends in a state that meets the invariant, and `P` holds there after a success. -/
def Stage.keepsInv (P : State → Prop) : Stage → Prop
  | .done s   => Inv s ∧ P s
  | .raised s => Inv s
  | .stuck _  => False

theorem Stage.keepsInv_andThen {P Q : State → Prop} {x : Stage} {b : State → Stage} (hx : x.keepsInv P)
    (hb : ∀ s, Inv s → P s → (b s).keepsInv Q) : (x.andThen b).keepsInv Q := by
  cases x with
  | done s => exact hb s hx.1 hx.2
  | raised s => exact hx
  | stuck f => exact hx

theorem Stage.exists_next_of_keepsInv {P : State → Prop} {x : Stage} (hx : x.keepsInv P) :
    ∃ t, x.result = .next t ∧ Inv t := by
  cases x with
  | done s => exact ⟨s, rfl, hx.1⟩
  | raised s => exact ⟨s, rfl, hx⟩
  | stuck f => exact hx.elim

section
variable {s : State} (hs : Inv s)
include hs

/-- The counts of ANALYZE sum to IN_LEN, which is below 2^32. -/
theorem analyzeBody_keepsInv (hp : s.henc.phase ≠ .fault) : (analyzeBody s).keepsInv (·.henc.phase = .counted) := by
  rcases Nat.lt_or_ge s.caps.inCap.toNat s.henc.inLen.toNat with hlt | hle
  · rw [analyzeBody_of_lt hlt]
    exact hs.raise .henc _
  · have hshort : (inputSymbols s).1.length < 2 ^ 32 := (length_inputSymbols s).trans_lt s.henc.inLen.isLt
    have hsum := (freqSum_symbolCounts hshort).trans_le (Nat.le_sub_one_of_lt hshort)
    rw [analyzeBody_of_le hle]
    exact ⟨⟨hs.caps, hs.henc.toCounted hp hsum (toNat_nsym _), hs.hdec⟩, rfl⟩

/-- The tree of BUILD has the shape of R136, since the sum of FREQ is below 2^32. -/
theorem buildBody_keepsInv (hp : s.henc.phase ≠ .fault) : (buildBody s).keepsInv (·.henc.phase = .tree) := by
  by_cases hleaves : treeLeaves s.henc.freq = []
  · rw [buildBody_of_no_leaf hleaves]
    exact ⟨hs.caps, hs.henc.fail _ _ _, hs.hdec⟩
  · have hsum : freqSum s.henc.freq < 2 ^ 32 := Nat.lt_of_le_of_lt hs.henc.freqSum (by decide)
    obtain ⟨tree, root, hbody, htree⟩ := buildBody_of_present hleaves hsum
    rw [hbody]
    exact ⟨⟨hs.caps, hs.henc.toTree hp htree, hs.hdec⟩, rfl⟩

/-- GENCODES of a built tree ends (43_codes.md R146). -/
theorem gencodesBody_keepsInv (hp : s.henc.phase = .tree) : (gencodesBody s).keepsInv (·.henc.phase = .codes) := by
  obtain ⟨tab, hbody, -⟩ := gencodesBody_of_treeInv (hs.treeInv hp)
  rw [hbody]
  exact ⟨⟨hs.caps, (hs.henc.setCodeTab tab).toCodes (by rw [hp]; nofun), hs.hdec⟩, rfl⟩

/-- What ENCODE writes fits BITBUF. -/
theorem encodeBody_keepsInv (hp : s.henc.phase ≠ .fault) : (encodeBody s).keepsInv (·.henc.phase = .encoded) := by
  rcases Nat.lt_or_ge s.caps.inCap.toNat s.henc.inLen.toNat with hlt | hle
  · rw [encodeBody_of_lt hlt]
    exact ⟨hs.caps, hs.henc.dropBits.fail _ _ _, hs.hdec⟩
  · cases hloop : encodeFrom s.henc.codeTab s.caps.bitCap (inputSymbols s).1 0 0 with
    | error f =>
      rw [encodeBody_of_error hle hloop]
      exact ⟨hs.caps, hs.henc.dropBits.fail _ _ _, hs.hdec⟩
    | ok b =>
      have hfit : b.length ≤ s.caps.bitCap :=
        (Nat.zero_add _).symm.trans_le (encodeFrom_fits hloop (Nat.zero_le _))
      rw [encodeBody_of_ok hle hloop]
      exact ⟨⟨hs.caps, hs.henc.toEncoded hp hfit, hs.hdec⟩, rfl⟩

/-- BIT_CAP = 8 (OUT_CAP - 1), so the packed bits and the header fit OUT_BUF (00_scope.md R8). -/
theorem packBody_keepsInv (hp : s.henc.phase = .encoded) : (packBody s).keepsInv (·.henc.phase = .packed) := by
  have hcaps := hs.caps
  have hbits := hs.henc.bitLen
  have hlen := length_packedBuffer_eq (encodedBits s).1
  simp only [Capacities.wf, Bool.and_eq_true, decide_eq_true_eq] at hcaps
  rw [length_encodedBits] at hlen
  rw [Capacities.bitCap] at hbits
  have hfit : (packedBuffer (encodedBits s).1).length ≤ s.caps.outCap.toNat := by omega
  exact ⟨⟨hs.caps, hs.henc.toPacked hp hfit, hs.hdec⟩, rfl⟩

theorem compressBody_keepsInv (hp : s.henc.phase ≠ .fault) : (compressBody s).keepsInv (·.henc.phase = .packed) := by
  have hbuilt := Stage.keepsInv_andThen (analyzeBody_keepsInv hs hp) fun t ht hph =>
    buildBody_keepsInv ht (by rw [hph]; nofun)
  have hcodes := Stage.keepsInv_andThen hbuilt fun t ht hph => gencodesBody_keepsInv ht hph
  have hencoded := Stage.keepsInv_andThen hcodes fun t ht hph => encodeBody_keepsInv ht (by rw [hph]; nofun)
  exact Stage.keepsInv_andThen hencoded fun t ht hph => packBody_keepsInv ht hph

theorem unpackFail_keepsInv (f : Failure) (P : State → Prop) : (unpackFail s f).keepsInv P :=
  ⟨hs.caps, hs.henc, hs.hdec.dropBits.fail f⟩

/-- DBIT_CAP = 8 (PAY_CAP - 1), so the payload's bits fit DBITS (00_scope.md R8). -/
theorem unpackBody_keepsInv (hp : s.hdec.phase ≠ .fault) : (unpackBody s).keepsInv (·.hdec.phase = .unpacked) := by
  rcases Nat.lt_or_ge s.caps.payCap.toNat s.hdec.payLen.toNat with hlt | hcap
  · rw [unpackBody_of_lt hlt]
    exact unpackFail_keepsInv hs _ _
  rcases Nat.eq_zero_or_pos s.hdec.payLen.toNat with h0 | h1
  · rw [unpackBody_of_eq_zero h0]
    exact unpackFail_keepsInv hs _ _
  rcases Nat.lt_or_ge 7 (headerByte s).1.toNat with hgt | hle
  · rw [unpackBody_of_header_gt h1 hcap hgt]
    exact unpackFail_keepsInv (hs.setDraws _) _ _
  rcases Nat.lt_or_ge (8 * (s.hdec.payLen.toNat - 1)) (headerByte s).1.toNat with hlt | hpay
  · rw [unpackBody_of_payload_lt h1 hcap hle hlt]
    exact unpackFail_keepsInv (hs.setDraws _) _ _
  · rw [unpackBody_of_header_le h1 hcap hle hpay]
    refine ⟨⟨hs.caps, hs.henc, hs.hdec.toUnpacked hp ?length ?fits⟩, rfl⟩
    case length => rw [length_unpackedBits, length_payloadBytes]
    case fits =>
      rw [length_unpackedBits, length_payloadBytes, Capacities.dBitCap]
      omega

/-- What SCAN emits fits SYM_BUF. -/
theorem scanBody_keepsInv (hp : s.hdec.phase = .unpacked) : (scanBody s).keepsInv (·.hdec.phase = .decoded) := by
  cases hloop : scanFrom s.hdec.decTab s.caps.symCap.toNat (payloadBits s).1 0 [] 0 0 with
  | error f =>
    rw [scanBody_of_error hloop]
    exact ⟨hs.caps, hs.henc, hs.hdec.dropSyms.fail f⟩
  | ok out =>
    have hfit : out.length ≤ s.caps.symCap.toNat :=
      (Nat.zero_add _).symm.trans_le (scanFrom_fits hloop (Nat.zero_le _))
    rw [scanBody_of_ok hloop]
    exact ⟨⟨hs.caps, hs.henc, hs.hdec.toDecoded hp hfit⟩, rfl⟩

theorem decodeBody_keepsInv (hp : s.hdec.phase ≠ .fault) : (decodeBody s).keepsInv (·.hdec.phase = .decoded) :=
  Stage.keepsInv_andThen (unpackBody_keepsInv hs hp) fun _ ht hph => scanBody_keepsInv ht hph

/-- Outside FAULT, in a legal phase, every command ends in a state that meets the invariant. -/
theorem commandBody_keepsInv {i : Instr} (hf : ¬ inFault s i.unit) (hl : legal i s = true) :
    ∃ t, (commandBody i s).result = .next t ∧ Inv t := by
  cases i with
  | hencNop | hdecNop => exact ⟨s, rfl, hs⟩
  | hencClear => exact ⟨_, rfl, hs.clear .henc⟩
  | hdecClear => exact ⟨_, rfl, hs.clear .hdec⟩
  | hencTabclr => exact ⟨_, rfl, hs.caps, (hs.henc.setCodeTab emptyTable).toIdle hf, hs.hdec⟩
  | hencUsetab => exact ⟨_, rfl, hs.caps, hs.henc.toCodes hf, hs.hdec⟩
  | hdecTabclr => exact ⟨_, rfl, hs.caps, hs.henc, hs.hdec.setDecTab emptyTable⟩
  | hencAnalyze => exact Stage.exists_next_of_keepsInv (analyzeBody_keepsInv hs hf)
  | hencBuild => exact Stage.exists_next_of_keepsInv (buildBody_keepsInv hs hf)
  | hencGencodes => exact Stage.exists_next_of_keepsInv (gencodesBody_keepsInv hs (eq_of_beq hl))
  | hencEncode => exact Stage.exists_next_of_keepsInv (encodeBody_keepsInv hs hf)
  | hencPack => exact Stage.exists_next_of_keepsInv (packBody_keepsInv hs (eq_of_beq hl))
  | hencCompress => exact Stage.exists_next_of_keepsInv (compressBody_keepsInv hs hf)
  | hdecUnpack => exact Stage.exists_next_of_keepsInv (unpackBody_keepsInv hs hf)
  | hdecScan => exact Stage.exists_next_of_keepsInv (scanBody_keepsInv hs (eq_of_beq hl))
  | hdecDecode => exact Stage.exists_next_of_keepsInv (decodeBody_keepsInv hs hf)

/-! ### The step -/

/-- Every command ends, and in a state that meets the invariant. -/
theorem exec_keepsInv (i : Instr) : ∃ t, exec i s = .next t ∧ Inv t := by
  by_cases hf : inFault s i.unit
  · by_cases hclear : i = .hencClear ∨ i = .hdecClear
    · rcases hclear with rfl | rfl
      · exact ⟨_, rfl, hs.clear .henc⟩
      · exact ⟨_, rfl, hs.clear .hdec⟩
    · obtain ⟨hhenc, hhdec⟩ := not_or.mp hclear
      exact ⟨s, exec_of_inFault hf hhenc hhdec, hs⟩
  · cases hl : legal i s with
    | true =>
      rw [exec_of_legal hf hl]
      exact commandBody_keepsInv hs hf hl
    | false => exact ⟨_, exec_of_illegal hf hl, hs.raise _ _⟩

theorem command_keepsInv (u : UnitId) (w : Word) : ∃ t, command u w s = .next t ∧ Inv t := by
  rcases command_cases u w s with ⟨i, -, -, hexec⟩ | hillegal
  · rw [hexec]
    exact exec_keepsInv hs i
  · exact ⟨_, hillegal, hs.illegalWord u w⟩

theorem takeEvent_keepsInv (e : Event) : ∃ t, takeEvent e s = .next t ∧ Inv t := by
  cases e with
  | rst => exact ⟨_, rfl, hs.rst⟩
  | transaction t =>
    rcases transact_cases t s with hrefused | ⟨-, n, d, hread⟩ | ⟨-, sp, r, hw, hwrite⟩ | ⟨u, w, -, hcmd⟩
    · exact ⟨_, hrefused, hs.respond _⟩
    · exact ⟨_, hread, (hs.setDraws n).respond _⟩
    · exact ⟨_, hwrite, (hs.writeElement hw).respond _⟩
    · obtain ⟨r, hr, hinv⟩ := command_keepsInv hs u w
      exact ⟨_, hcmd.trans (by rw [hr, thenDo_next]), hinv.respond _⟩

/-- Every step answers a next state, and one that meets the invariant. -/
theorem step_keepsInv : ∃ t, step s = .next t ∧ Inv t := by
  unfold step
  cases s.pending with
  | nil => exact ⟨s, rfl, hs⟩
  | cons e rest => exact takeEvent_keepsInv (hs.setPending rest) e

end

/-- Settles O53: the one next state of a step is that of `step_keepsInv`. -/
theorem everyStepKeepsTheInvariant : Obligations.EveryStepKeepsTheInvariant := by
  intro s t hs ht
  obtain ⟨r, hr, hinv⟩ := step_keepsInv hs
  cases hr.symm.trans ht
  exact hinv

/-- Settles O54: reads, writes and control commands always end; GENCODES does since TREE has the shape of a built tree. -/
theorem noStepEverStops : Obligations.NoStepEverStops := by
  intro s hs
  obtain ⟨t, ht, -⟩ := step_keepsInv hs
  exact ⟨t, ht⟩

end Sys2Proof.Machine
end

section
/-! SUPPORT. The opcode map, the step of `rst` and of a write to CMD, and the first error of a unit in FAULT
(spec/30_encoding.md R92, 70_reset_and_hazards.md R245, 47_control.md R207, 60_exceptions.md R220, R223). -/
namespace Sys2Proof.Machine

/-- Settles O1: the law of encodings, unit by unit. -/
theorem encodedCommandDecodesToItself : Obligations.EncodedCommandDecodesToItself := decode_encode

/-- Settles O2: each word is looked up in the map, at each unit. -/
theorem opcodeMapWordsDecodeAsListed : Obligations.OpcodeMapWordsDecodeAsListed := by
  unfold Obligations.OpcodeMapWordsDecodeAsListed
  decide

/-- Settles O4: the port runs the written word, and the word decodes to the command. -/
theorem stepRunsTheWrittenCommand : Obligations.StepRunsTheWrittenCommand := by
  intro s u w i rest hi
  rw [step_writeOf_cmd, command_of_ok hi]
  rfl

/-- Settles O6: with no event pending the step takes none. -/
theorem stepWithoutEventsChangesNothing : Obligations.StepWithoutEventsChangesNothing := by
  intro s h
  rw [step, h]

/-- Settles O7: taking `rst` is `State.rst`, which gives both units their reset values. -/
theorem resetEventResetsBothUnits : Obligations.ResetEventResetsBothUnits := fun s rest =>
  ⟨_, step_event s .rst rest, State.rst_henc _, State.rst_hdec _, State.rst_caps _, State.rst_pending _⟩

/-- Settles O14: only CLEAR is listed in FAULT with an effect. -/
theorem faultIgnoresEveryCommandButClear : Obligations.FaultIgnoresEveryCommandButClear := fun _ _ =>
  exec_of_inFault

/-- Settles O5: the word goes to `illegalWord`, which raises unless the unit is in FAULT. -/
theorem illegalWordRaisesUnlessInFault : Obligations.IllegalWordRaisesUnlessInFault := by
  intro s u w rest h
  rw [step_writeOf_cmd, command_of_illegal h, thenDo_next]
  refine ⟨fun hf => ?_, fun hf hu => ?_, fun hf hu => ?_⟩
  · rw [illegalWord_of_inFault (s := { s with pending := rest }) hf]
    rfl
  · rw [illegalWord_of_not_inFault (s := { s with pending := rest }) hf, hu]
    rfl
  · rw [illegalWord_of_not_inFault (s := { s with pending := rest }) hf, hu]
    rfl

/-! ### The first error -/

theorem unitOnly_illegalWord (u : UnitId) (w : Word) (s : State) : unitOnly u s (illegalWord u w s) := by
  by_cases h : inFault s u
  · rw [illegalWord_of_inFault h]
    exact unitOnly_refl u s
  · rw [illegalWord_of_not_inFault h]
    exact unitOnly_raise u s _

/-- The unit `u` is in FAULT in `t`, with the error it has in `s`. -/
def keepsError (u : UnitId) (s t : State) : Prop := inFault t u ∧ t.errRegs u = s.errRegs u

theorem unitOnly.keepsError {u v : UnitId} {s t : State} (h : unitOnly u s t) (hne : v ≠ u) (hf : inFault s v) :
    keepsError v s t :=
  (h.errRegs_of_ne hne).imp_left fun hiff => hiff.mpr hf

/-- Storage holds neither PHASE nor error registers. -/
theorem keepsError_of_writeElement {u : UnitId} {s r : State} {sp : Space} {i : Nat} {v : Word} (hf : inFault s u)
    (h : writeElement s sp i v = some r) : keepsError u s r := by
  rcases writeElement_cases h with ⟨-, -, rfl⟩ | ⟨-, -, rfl⟩ | ⟨-, -, rfl⟩ | ⟨-, -, rfl⟩ | ⟨-, t, -, rfl⟩ |
    ⟨-, t, -, rfl⟩ <;> cases u <;> exact ⟨hf, rfl⟩

/-- A word written to CMD keeps the error, unless it is the word of CLEAR and the CMD register is the unit's. -/
theorem keepsError_of_command {u v : UnitId} {w : Word} {s r : State} (hf : inFault s u) (hw : v = u → w ≠ 1)
    (h : command v w s = .next r) : keepsError u s r := by
  by_cases hv : u = v
  · subst hv
    have hsame : r = s := by
      rcases command_cases u w s with ⟨i, rfl, rfl, hexec⟩ | hillegal
      · have hclear := hw rfl
        rw [hexec, exec_of_inFault hf (by rintro rfl; exact hclear rfl) (by rintro rfl; exact hclear rfl)] at h
        exact (Host.Outcome.next.inj h).symm
      · rw [hillegal, illegalWord_of_inFault hf] at h
        exact (Host.Outcome.next.inj h).symm
    rw [hsame]
    exact ⟨hf, rfl⟩
  · have hframe : unitOnly v s r := by
      rcases command_cases v w s with ⟨i, rfl, -, hexec⟩ | hillegal
      · exact unitOnly_of_exec (hexec.symm.trans h)
      · cases hillegal.symm.trans h
        exact unitOnly_illegalWord v w s
    exact hframe.keepsError hv hf

theorem keepsError_of_transact {u : UnitId} {t : Transaction} {s r : State} (hf : inFault s u)
    (hclear : t ≠ writeOf u 0 1 1) (h : transact t s = .next r) : keepsError u s r := by
  rcases transact_cases t s with hrefused | ⟨-, n, d, hread⟩ | ⟨-, sp, q, hw, hwrite⟩ | ⟨v, w, rfl, hcmd⟩
  · cases hrefused.symm.trans h
    cases u <;> exact ⟨hf, rfl⟩
  · cases hread.symm.trans h
    cases u <;> exact ⟨hf, rfl⟩
  · cases hwrite.symm.trans h
    have hkeeps := keepsError_of_writeElement hf hw
    cases u <;> exact hkeeps
  · obtain ⟨q, hq, rfl⟩ := thenDo_eq_next.mp (hcmd.symm.trans h)
    have hkeeps := keepsError_of_command hf (by rintro rfl rfl; exact hclear rfl) hq
    cases u <;> exact hkeeps

/-- Settles O57: of all events only `rst` and the write of CLEAR take a unit out of FAULT or write its error registers. -/
theorem firstErrorIsKeptUntilClearOrReset : Obligations.FirstErrorIsKeptUntilClearOrReset := by
  intro s t u hf ht hrst hclear
  cases hp : s.pending with
  | nil =>
    cases (stepWithoutEventsChangesNothing s hp).symm.trans ht
    exact ⟨hf, rfl⟩
  | cons e rest =>
    simp only [hp, List.head?_cons, ne_eq, Option.some.injEq] at hrst hclear
    simp only [step, hp] at ht
    cases e with
    | rst => exact absurd rfl hrst
    | transaction tr =>
      have hf' : inFault { s with pending := rest } u := by cases u <;> exact hf
      have hkeeps := keepsError_of_transact hf' (fun h => hclear (congrArg _ h)) ht
      cases u <;> exact hkeeps

end Sys2Proof.Machine
end

section
/-! SUPPORT. The step of a read of a buffer cell and of a write to storage (spec/20_memory.md R62 to R74). -/
namespace Sys2Proof.Machine

/-- Settles O51: a read is refused or reads, and either way it leaves both units alone. -/
theorem readsLeaveBothUnitsAlone : Obligations.ReadsLeaveBothUnitsAlone := by
  intro s t rest hk
  rcases transact_cases t { s with pending := rest } with hrefused | ⟨-, n, d, hread⟩ | ⟨hwrite, -⟩ | ⟨u, w, rfl, -⟩
  · exact ⟨_, hrefused, rfl, rfl, rfl, rfl⟩
  · exact ⟨_, hread, rfl, rfl, rfl, rfl⟩
  · exact absurd (hk.symm.trans hwrite) nofun
  · exact absurd hk nofun

/-! ### Buffer cells -/

theorem word_toNat_bool (b : Bool) : word b.toNat = if b then 1 else 0 := by cases b <;> rfl

section
variable {s : State} {u : UnitId} {id : BitVec 4} {sp : Space} {i : Nat} (hs : spaceOf u id = some sp) (hi : i < 2 ^ 32)
  (d : Word) (rest : List Event)
include hs hi

/-- A read that R63 allows is of an element of the space. -/
theorem lt_elements_of_accepted (h : accepted s.caps (readOf u id i d) = true) : i < sp.elements s.caps := by
  obtain ⟨⟨hlt, -⟩, -⟩ := (accepted_iff (t := readOf u id i d) hs).mp h
  rwa [readOf, toNat_word hi] at hlt

/-- A read of a byte cell answers its byte, or draws one when the cell holds UNSPEC. -/
theorem step_readOf_byteCell {m : Memory Byte} (hr : readElement s sp i = some (readByteCell s m i)) :
    (∀ v, m.cell? i = some v →
      step (atTransaction s (readOf u id i d) rest) = .next (answered s rest .ok (v.setWidth 32))) ∧
    (m.cell? i = none → ∃ v : Byte, step (atTransaction s (readOf u id i d) rest) =
      .next { answered s rest .ok (v.setWidth 32) with draws := s.draws + 1 }) := by
  refine ⟨fun v hv => ?_, fun hnone => ⟨Config.freeByte s.draws, ?_⟩⟩
  · rw [readByteCell, Memory.draw_of_some hv] at hr
    exact step_readOf hs hi hr d rest
  · rw [readByteCell, Memory.draw_of_none hnone] at hr
    exact step_readOf hs hi hr d rest

/-- A read of a bit cell answers its bit, or draws one when the cell holds UNSPEC. -/
theorem step_readOf_bitCell {m : Memory Bool} (hr : readElement s sp i = some (readBitCell s m i)) :
    (∀ v, m.cell? i = some v →
      step (atTransaction s (readOf u id i d) rest) = .next (answered s rest .ok (if v then 1 else 0))) ∧
    (m.cell? i = none → ∃ v : Bool, step (atTransaction s (readOf u id i d) rest) =
      .next { answered s rest .ok (if v then 1 else 0) with draws := s.draws + 1 }) := by
  refine ⟨fun v hv => ?_, fun hnone => ⟨Config.freeBit s.draws, ?_⟩⟩
  · rw [readBitCell, Memory.draw_of_some hv, word_toNat_bool] at hr
    exact step_readOf hs hi hr d rest
  · rw [readBitCell, Memory.draw_of_none hnone, word_toNat_bool] at hr
    exact step_readOf hs hi hr d rest

end

/-- Settles O50: each listed buffer is the space of its unit and id, and its reads are reads of a byte or a bit cell. -/
theorem bufferCellsReadTheirValues : Obligations.BufferCellsReadTheirValues := by
  refine fun s rest i d => ⟨fun u id m hm hacc hi => ?bytes, fun u m hm hacc hi => ?bits⟩
  case bytes =>
    have hspace : ∃ sp, spaceOf u id = some sp ∧
        (i < sp.elements s.caps → readElement s sp i = some (readByteCell s m i)) := by
      simp only [List.mem_cons, List.not_mem_nil, or_false, Prod.mk.injEq] at hm
      rcases hm with ⟨rfl, rfl, rfl⟩ | ⟨rfl, rfl, rfl⟩ | ⟨rfl, rfl, rfl⟩ | ⟨rfl, rfl, rfl⟩
      · exact ⟨.inBuf, rfl, fun h => if_pos h⟩
      · exact ⟨.outBuf, rfl, fun h => if_pos h⟩
      · exact ⟨.payBuf, rfl, fun h => if_pos h⟩
      · exact ⟨.symBuf, rfl, fun h => if_pos h⟩
    obtain ⟨sp, hs, hread⟩ := hspace
    exact step_readOf_byteCell hs hi d rest (hread (lt_elements_of_accepted hs hi d hacc))
  case bits =>
    have hspace : ∃ sp, spaceOf u 5 = some sp ∧
        (i < sp.elements s.caps → readElement s sp i = some (readBitCell s m i)) := by
      simp only [List.mem_cons, List.not_mem_nil, or_false, Prod.mk.injEq] at hm
      rcases hm with ⟨rfl, rfl⟩ | ⟨rfl, rfl⟩
      · exact ⟨.bitBuf, rfl, fun h => if_pos h⟩
      · exact ⟨.dBits, rfl, fun h => if_pos h⟩
    obtain ⟨sp, hs, hread⟩ := hspace
    exact step_readOf_bitCell hs hi d rest (hread (lt_elements_of_accepted hs hi d hacc))

/-! ### Writes to storage -/

/-- The step of a write that the space takes. -/
theorem step_writeOf {s r : State} {u : UnitId} {id : BitVec 4} {sp : Space} {i : Nat} {v : Word} {rest : List Event}
    (hs : spaceOf u id = some sp) (hi : i < 2 ^ 32) (hc : isCmd sp i = false)
    (h : writeElement { s with pending := rest } sp i v = some { r with pending := rest }) :
    step (atTransaction s (writeOf u id i v) rest) = .next (answered r rest .ok 0) := by
  have hindex : (writeOf u id i v).index.toNat = i := toNat_word hi
  exact transact_of_write (t := writeOf u id i v) hs rfl (hindex.symm ▸ hc) (hindex.symm ▸ h)

/-- Settles O47: each write goes to its space, and a written cell reads back alone. -/
theorem inputWritesStoreTheirData : Obligations.InputWritesStoreTheirData := by
  refine fun s rest v => ⟨step_writeOf (sp := .hencReg) rfl (by decide) rfl rfl,
    step_writeOf (sp := .hdecReg) rfl (by decide) rfl rfl,
    fun i hi => ⟨s.henc.inBuf.put i (v.setWidth 8), ?_, fun a => ?_⟩,
    fun i hi => ⟨s.hdec.payBuf.put i (v.setWidth 8), ?_, fun a => ?_⟩⟩
  · exact step_writeOf (sp := .inBuf) rfl (hi.trans s.caps.inCap.isLt) rfl (if_pos hi)
  · rw [Memory.cell?_put]
    simp only [eq_comm (a := i)]
  · exact step_writeOf (sp := .payBuf) rfl (hi.trans s.caps.payCap.isLt) rfl (if_pos hi)
  · rw [Memory.cell?_put]
    simp only [eq_comm (a := i)]

/-! ### Words of a table entry -/

/-- A mask of the 32 bits from `n` up. -/
theorem getLsbD_mask32 (n i : Nat) (hi : i < 255) :
    (BitVec.ofNat 255 (2 ^ 32 - 1) <<< n).getLsbD i = decide (n ≤ i ∧ i < n + 32) := by
  rw [BitVec.getLsbD_shiftLeft, BitVec.getLsbD_ofNat, Nat.testBit_two_pow_sub_one, decide_eq_true hi]
  rw [Bool.eq_iff_iff]
  simp only [Bool.true_and, Bool.and_eq_true, Bool.not_eq_true', decide_eq_true_eq, decide_eq_false_iff_not]
  omega

/-- An entry after a write of its word `w`: LEN for word 0, 32 bits of BITS for words 1 to 8 (20_memory.md R71). -/
theorem writeEntryWord_spec (x : Entry) {w : Nat} (hw : w ≤ 8) (v : Word) :
    ∃ e, writeEntryWord x w v = some e ∧ e.len = (if w = 0 then v.setWidth 8 else x.len) ∧
      ∀ i, i < 255 → e.bits.getLsbD i =
        if 32 * (w - 1) ≤ i ∧ i < 32 * w then v.getLsbD (i - 32 * (w - 1)) else x.bits.getLsbD i := by
  rcases Nat.eq_zero_or_pos w with rfl | hpos
  · exact ⟨_, rfl, rfl, fun i _ => (if_neg (by omega)).symm⟩
  · have hend : 32 * (w - 1) + 32 = 32 * w := by omega
    refine ⟨_, (if_neg (by omega)).trans (if_pos hw), (if_neg (by omega)).symm, fun i hi => ?_⟩
    rw [BitVec.getLsbD_or, BitVec.getLsbD_and, BitVec.getLsbD_not, getLsbD_mask32 _ _ hi, hend,
      BitVec.getLsbD_shiftLeft, BitVec.getLsbD_setWidth, decide_eq_true hi]
    by_cases hword : 32 * (w - 1) ≤ i ∧ i < 32 * w
    · have hbit : i - 32 * (w - 1) < 255 := by omega
      simp [hword, hbit, Nat.not_lt.mpr hword.1]
    · by_cases hlow : i < 32 * (w - 1)
      · simp [hword, hlow]
      · have hhigh : v.getLsbD (i - 32 * (w - 1)) = false := BitVec.getLsbD_of_ge _ _ (by omega)
        simp [hword, hhigh]

/-- A write of element `16 k + w` of a table writes word `w` of entry `k`. -/
theorem writeTableElement_word (t : Vector Entry 256) {k w : Nat} (hk : k < 256) (hw : w ≤ 8) {v : Word} {e : Entry}
    (he : writeEntryWord t[k] w v = some e) : writeTableElement t (16 * k + w) v = some (t.setIfInBounds k e) := by
  have hdiv : (16 * k + w) / 16 = k := by omega
  have hmod : (16 * k + w) % 16 = w := by omega
  have hset : t.set k e = t.setIfInBounds k e :=
    Vector.ext fun j hj => by rw [Vector.getElem_set, Vector.getElem_setIfInBounds]
  simp only [writeTableElement, hdiv, hmod, dif_pos hk, he, hset]

/-- Settles O49: the element is word `w` of entry `k`, at both units. -/
theorem tableWritesChangeOneWord : Obligations.TableWritesChangeOneWord := by
  intro s rest k w v hk hw
  have hlt : 16 * k + w < 4096 := by omega
  obtain ⟨e, he, hespec⟩ := writeEntryWord_spec s.henc.codeTab[k] hw v
  obtain ⟨f, hf, hfspec⟩ := writeEntryWord_spec s.hdec.decTab[k] hw v
  have hcodeTab : writeElement { s with pending := rest } .codeTab (16 * k + w) v =
      some { s with
        henc := { s.henc with codeTab := s.henc.codeTab.setIfInBounds k e }, pending := rest } :=
    (if_pos hlt).trans (by rw [writeTableElement_word _ hk hw he, Option.map_some])
  have hdecTab : writeElement { s with pending := rest } .decTab (16 * k + w) v =
      some { s with
        hdec := { s.hdec with decTab := s.hdec.decTab.setIfInBounds k f }, pending := rest } :=
    (if_pos hlt).trans (by rw [writeTableElement_word _ hk hw hf, Option.map_some])
  refine ⟨e, f, step_writeOf rfl (by omega) rfl hcodeTab, step_writeOf rfl (by omega) rfl hdecTab,
    fun x => ⟨fun hx => ?_, fun hx => ?_⟩⟩
  · obtain rfl := Option.some.inj ((Vector.getElem?_eq_getElem hk).symm.trans hx)
    exact hespec
  · obtain rfl := Option.some.inj ((Vector.getElem?_eq_getElem hk).symm.trans hx)
    exact hfspec

/-! ### Bitstrings of entries -/

/-- Bit `i` of a code is BITS[LEN - 1 - i]. -/
theorem Entry.getElem?_code (e : Entry) {i : Nat} (h : i < e.len.toNat) :
    e.code[i]? = some (e.bits.getLsbD (e.len.toNat - 1 - i)) := by
  rw [List.getElem?_eq_getElem (h.trans_eq e.length_code.symm), Entry.getElem_code]

/-- Entries of one LEN that agree in the bits below it have the same code. -/
theorem Entry.code_congr {e f : Entry} (hlen : e.len = f.len)
    (hbits : ∀ i, i < e.len.toNat → e.bits.getLsbD i = f.bits.getLsbD i) : e.code = f.code := by
  rw [Entry.code, Entry.code, ← hlen]
  refine List.map_congr_left fun i hi => hbits _ ?_
  have hi := List.mem_range.mp hi
  omega

/-- Settles O27: codes and entries bit by bit, and each the other's inverse for 1 to 255 bits. -/
theorem entryHoldsItsBitstring : Obligations.EntryHoldsItsBitstring :=
  ⟨fun e => ⟨e.length_code, fun _ => e.getElem?_code⟩,
    fun c _ h => ⟨toNat_len_entryOf h, (toNat_bits_entryOf h).trans (bitsValue_eq_sum c), code_entryOf h⟩,
    fun _ _ => Entry.code_congr,
    fun e h => List.eq_nil_of_length_eq_zero (by rw [e.length_code, h]; rfl),
    rfl⟩

end Sys2Proof.Machine
end

section
/-! SUPPORT. The sum of the counts of ANALYZE, and BUILD merge by merge in the terms of TREE as stored (spec/41_frequency.md
R121, 42_tree.md R131 to R133, R137). -/
namespace Sys2Proof.Machine

/-- Settles O18: IN_LEN symbols are read and counted, and a written input is read as it stands. -/
theorem analyzeCountsSumToInputLength : Obligations.AnalyzeCountsSumToInputLength := by
  intro s t ht hs hphase
  rw [exec_hencAnalyze hs] at ht
  rcases Nat.lt_or_ge s.caps.inCap.toNat s.henc.inLen.toNat with hlt | hle
  · rw [analyzeBody_of_lt hlt] at ht
    cases ht
    exact absurd hphase nofun
  · have hshort : (inputSymbols s).1.length < 2 ^ 32 := (length_inputSymbols s).trans_lt s.henc.inLen.isLt
    rw [analyzeBody_of_le hle] at ht
    cases ht
    refine ⟨(freqSum_symbolCounts hshort).trans (length_inputSymbols s), fun syms hin hlen x => ?_⟩
    rw [inputSymbols_of_written hlen hin] at hshort ⊢
    exact symbolCounts_pos_iff hshort x

/-! ### BUILD on an empty table -/

theorem treeLeaves_eq_nil_iff (freq : Vector Word 256) : treeLeaves freq = [] ↔ presentSymbols freq = 0 := by
  rw [← length_treeLeaves, List.length_eq_zero_iff]

/-- A table without a positive count has no leaf. -/
theorem treeLeaves_eq_nil_of_zero {freq : Vector Word 256} (h : ∀ k, (hk : k < 256) → freq[k] = 0) :
    treeLeaves freq = [] := by
  refine List.eq_nil_iff_forall_not_mem.mpr fun k hk => ?_
  obtain ⟨hlt, hpos⟩ := (mem_treeLeaves freq k).mp hk
  rw [h k hlt] at hpos
  exact absurd hpos (by decide)

/-- With no leaf BUILD raises EmptyInputError and leaves TREE and ROOT zero. -/
theorem exec_hencBuild_of_no_leaf {s : State} (hs : s.henc.phase = .counted) (h : treeLeaves s.henc.freq = []) :
    exec .hencBuild s = .next { s with henc := { s.henc with
      tree := Vector.replicate 255 ⟨0, 0, 0⟩, root := 0, phase := .fault, err := ⟨1, 0, 0⟩ } } := by
  rw [exec_hencBuild hs, buildBody_of_no_leaf h]
  rfl

/-- Settles O20: BUILD splits at whether there is a leaf, and a symbol with a count is one. -/
theorem buildFailsOnlyOnAnEmptyTable : Obligations.BuildFailsOnlyOnAnEmptyTable := by
  refine fun s hs => ⟨fun hzero => exec_hencBuild_of_no_leaf hs (treeLeaves_eq_nil_of_zero hzero), fun k hk hne => ?_⟩
  have hpos : 0 < s.henc.freq[k].toNat := Nat.pos_of_ne_zero fun h => hne (BitVec.eq_of_toNat_eq h)
  have hleaves : treeLeaves s.henc.freq ≠ [] := List.ne_nil_of_mem ((mem_treeLeaves _ k).mpr ⟨hk, hpos⟩)
  exact ⟨_, (exec_hencBuild hs).trans (congrArg Stage.result (buildBody_of_leaves hleaves)), rfl, rfl⟩

/-! ### The merges -/

section
variable {freq : Vector Word 256} {tree : Vector TreeNode 255} {t : List LocalNode} {k : Nat}

/-- A node is on offer over TREE as it is over the image, when the first `k` nodes are made. -/
theorem StoresImage.onOffer_iff (hs : StoresImage tree t) (hk : k ≤ t.length) (id : NodeId) :
    onOffer freq tree k id ↔ localOffer (treeLeaves freq) (t.take k) id.toNat := by
  have hchild : id ∈ childrenBelow tree k ↔ id.toNat ∈ localChildren (t.take k) := by
    rw [← hs.map_childrenBelow hk, List.mem_map_of_injective fun _ _ => BitVec.eq_of_toNat_eq]
  rw [onOffer, localOffer, isTreeLeaf_iff, hchild, List.length_take_of_le hk]

theorem onOffer.lt {id : NodeId} (h : onOffer freq tree k id) : id.toNat < 256 + k := by
  obtain ⟨⟨hleaf, -⟩ | ⟨-, hlt⟩, -⟩ := h
  · exact Nat.lt_add_right k hleaf
  · exact hlt

/-- Before over TREE is Before over the image, for nodes made among the first `k`. -/
theorem StoresImage.nodeBefore_iff (hs : StoresImage tree t) (hk : k ≤ t.length) {x y : NodeId}
    (hx : x.toNat < 256 + k) (hy : y.toNat < 256 + k) :
    nodeBefore freq tree x y ↔ before (localWeight freq (t.take k)) x.toNat y.toNat = true := by
  rw [nodeBefore, hs.nodeWeight_eq, hs.nodeWeight_eq, before_iff, localWeight_take freq hk hx,
    localWeight_take freq hk hy]

/-- Entry `k` of TREE is the merge of the two least nodes on offer when it was made (R132). -/
theorem MergeInv.merge_stored {root : Nat} (hi : MergeInv freq (treeLeaves freq) [root] t) (hs : StoresImage tree t)
    (h : k < 255) (hk : k < t.length) :
    onOffer freq tree k tree[k].c0 ∧ onOffer freq tree k tree[k].c1 ∧ tree[k].c0 ≠ tree[k].c1 ∧
    (∀ y, onOffer freq tree k y → y ≠ tree[k].c0 → nodeBefore freq tree tree[k].c0 y) ∧
    (∀ y, onOffer freq tree k y → y ≠ tree[k].c0 → y ≠ tree[k].c1 → nodeBefore freq tree tree[k].c1 y) := by
  have hm := hi.nodes k _ (hs.node k h hk)
  have hoffer := hs.onOffer_iff (freq := freq) hk.le
  have h0 : onOffer freq tree k tree[k].c0 := (hoffer _).mpr hm.offer0
  have h1 : onOffer freq tree k tree[k].c1 := (hoffer _).mpr hm.offer1
  have hne {x y : NodeId} (hxy : y ≠ x) : y.toNat ≠ x.toNat := fun heq => hxy (BitVec.eq_of_toNat_eq heq)
  refine ⟨h0, h1, fun heq => hm.differ (congrArg BitVec.toNat heq), fun y hy hy0 => ?_, fun y hy hy0 hy1 => ?_⟩
  · exact (hs.nodeBefore_iff hk.le h0.lt hy.lt).mpr (hm.least0 _ ((hoffer y).mp hy) (hne hy0))
  · exact (hs.nodeBefore_iff hk.le h1.lt hy.lt).mpr (hm.least1 _ ((hoffer y).mp hy) (hne hy0) (hne hy1))

end

/-- Settles O19: the loop's image is stored with no bit lost, so each of its merges is one of TREE. -/
theorem buildMergesTheTwoLeastNodes : Obligations.BuildMergesTheTwoLeastNodes := by
  refine fun s hs hphase => ⟨fun hnone => ?_, fun hpresent => ?_⟩
  · exact exec_hencBuild_of_no_leaf hphase ((treeLeaves_eq_nil_iff _).mpr hnone)
  · rcases buildBody_cases s with ⟨hleaves, -⟩ | ⟨-, root, image, hi, hbody⟩
    · rw [(treeLeaves_eq_nil_iff _).mp hleaves] at hpresent
      exact absurd hpresent (by decide)
    · have hstored := hi.storesImage (Nat.lt_of_le_of_lt hs.henc.freqSum (by decide))
      have hinv := hi.treeInv hstored hi.toNat_root
      have hlen := hi.length_eq
      refine ⟨_, _, (exec_hencBuild hphase).trans (congrArg Stage.result hbody), fun k h hk => ?_, hinv.unused,
        hinv.rootInternal, hinv.rootLeaf⟩
      obtain ⟨h0, h1, hne, hleast0, hleast1⟩ := hi.merge_stored hstored h (by omega)
      exact ⟨h0, h1, hne, hleast0, hleast1, hinv.weight k h hk⟩

end Sys2Proof.Machine
end

section
/-! SUPPORT. COMPRESS stage by stage, and what it makes of a written input as a function of that input alone
(spec/46_orchestrator.md R190, R195, R197). -/
namespace Sys2Proof.Machine

/-! ### The stages -/

/-- A stage that goes on either raised or is done in its own phase. -/
theorem Stage.cases_of_entersPhase {x : Stage} {p : HencPhase} {t : State} (hx : x.entersPhase .henc p.code)
    (ht : x.result = .next t) :
    (x = .raised t ∧ t.henc.phase = .fault) ∨ (x = .done t ∧ t.henc.phase = p) := by
  rcases Stage.result_eq_next.mp ht with hdone | hraised
  · rw [hdone] at hx
    exact .inr ⟨hdone, eq_of_beq ((HencPhase.beq_iff_code_mem _ p).mpr (List.mem_singleton.mpr hx))⟩
  · rw [hraised] at hx
    exact .inl ⟨hraised, hx⟩

/-- Settles O37: each stage ends in FAULT, which ends COMPRESS, or in the phase in which the next command runs its body. -/
theorem compressIsTheFiveStagesInOrder : Obligations.CompressIsTheFiveStagesInOrder := by
  intro s s1 hs h1
  rw [exec_hencAnalyze hs] at h1
  rw [exec_hencCompress hs, compressBody]
  rcases Stage.cases_of_entersPhase (p := .counted) (analyzeBody_entersPhase s) h1 with ⟨hbody, hf⟩ | ⟨hbody, hp⟩
  · rw [hbody]
    exact ⟨fun _ => rfl, fun hne => absurd hf hne⟩
  rw [hbody, Stage.andThen_done]
  refine ⟨fun hf => absurd (hp.symm.trans hf) nofun, fun _ s2 h2 => ?_⟩
  rw [exec_hencBuild hp] at h2
  rcases Stage.cases_of_entersPhase (p := .tree) (buildBody_entersPhase s1) h2 with ⟨hbody, hf⟩ | ⟨hbody, hp⟩
  · rw [hbody]
    exact ⟨fun _ => rfl, fun hne => absurd hf hne⟩
  rw [hbody, Stage.andThen_done]
  refine ⟨fun hf => absurd (hp.symm.trans hf) nofun, fun _ s3 h3 s4 h4 => ?_⟩
  rw [exec_hencGencodes hp] at h3
  rcases Stage.cases_of_entersPhase (p := .codes) (gencodesBody_entersPhase s2) h3 with ⟨hbody, -⟩ | ⟨hbody, hp⟩
  · exact absurd hbody (gencodesBody_ne_raised s2 s3)
  rw [hbody, Stage.andThen_done]
  rw [exec_hencEncode hp] at h4
  rcases Stage.cases_of_entersPhase (p := .encoded) (encodeBody_entersPhase s3) h4 with ⟨hbody, hf⟩ | ⟨hbody, hp⟩
  · rw [hbody]
    exact ⟨fun _ => rfl, fun hne => absurd hf hne⟩
  · rw [hbody, Stage.andThen_done, exec_hencPack hp]
    exact ⟨fun hf => absurd (hp.symm.trans hf) nofun, fun _ => rfl⟩

/-! ### No input -/

theorem symbolCounts_nil : symbolCounts [] = Vector.replicate 256 0 := by
  refine Vector.ext fun k hk => ?_
  rw [symbolCounts, getElem_tabulate, Vector.getElem_replicate, List.count_nil]
  rfl

/-- Settles O40: ANALYZE counts nothing, so BUILD finds no leaf; UNPACK checks PAY_LEN before it reads. -/
theorem emptyInputIsAnErrorOnBothSides : Obligations.EmptyInputIsAnErrorOnBothSides := by
  refine fun s => ⟨fun hs hlen => ?_, fun hs hlen => ?_⟩
  · have hzero : s.henc.inLen.toNat = 0 := congrArg BitVec.toNat hlen
    have hnsym : BitVec.ofNat 9 (distinctSymbols (Vector.replicate 256 0)) = 0 :=
      BitVec.eq_of_toNat_eq ((toNat_nsym _).trans presentSymbols_replicate_zero)
    have hleaves : treeLeaves (Vector.replicate 256 0) = [] :=
      (treeLeaves_eq_nil_iff _).mpr presentSymbols_replicate_zero
    rw [exec_hencCompress hs, compressBody,
      analyzeBody_of_written (syms := []) (hzero.trans_le (Nat.zero_le _)) hzero.symm nofun, symbolCounts_nil, hnsym,
      Stage.andThen_done, buildBody_of_no_leaf]
    · rfl
    · exact hleaves
  · rw [exec_hdecDecode hs, decodeBody, unpackBody_of_eq_zero (congrArg BitVec.toNat hlen)]
    rfl

/-! ### A written input -/

/-- What ANALYZE, BUILD and GENCODES write. -/
structure Coding where
  freq    : Vector Word 256
  nsym    : BitVec 9
  tree    : Vector TreeNode 255
  root    : NodeId
  codeTab : Vector Entry 256

/-- The state after GENCODES in COMPRESS. -/
def State.withCoding (s : State) (k : Coding) : State :=
  { s with henc := { s.henc with
    freq := k.freq, nsym := k.nsym, tree := k.tree, root := k.root, codeTab := k.codeTab, phase := .codes } }

/-- The state after PACK in COMPRESS, when ENCODE has written `b`. (PACK reads as many bits as BITLEN counts, which are
all of `b` where the length of `b` fits the register.) -/
def State.withPacked (s : State) (b : Bits) : State :=
  { s with henc := { s.henc with
    bitBuf := s.henc.bitBuf.putRun 0 b, bitLen := word b.length,
    outBuf := s.henc.outBuf.putRun 0 (packedBuffer (b.take (word b.length).toNat)),
    outLen := word (packedBuffer (b.take (word b.length).toNat)).length, phase := .packed } }

/-- BUILD of a table with a symbol is a function of it, and makes a tree of the shape of 42_tree.md R136. -/
theorem exists_tree {freq : Vector Word 256} (hleaves : treeLeaves freq ≠ []) (hsum : freqSum freq < 2 ^ 32) :
    ∃ (tree : Vector TreeNode 255) (root : NodeId), TreeInv freq tree root (presentSymbols freq) ∧
      ∀ s : State, s.henc.freq = freq →
        buildBody s = .done { s with henc := { s.henc with root := root, tree := tree, phase := .tree } } := by
  obtain ⟨root, hroot, hi⟩ := mergeLoop_leaves freq hleaves
  refine ⟨_, BitVec.ofNat 9 root, hi.treeInv (hi.storesImage hsum) hi.toNat_root, fun s hfreq => ?_⟩
  subst hfreq
  rw [buildBody_of_leaves hleaves, hroot, List.headD_cons]

/-- The traversal of a tree of that shape ends, whatever state holds it. -/
theorem TreeInv.exists_visits {freq : Vector Word 256} {tree : Vector TreeNode 255} {root : NodeId}
    (hi : TreeInv freq tree root (presentSymbols freq)) : ∃ v, rootCodes tree root = .ok v :=
  TreeInv.exists_rootCodes
    (s := { State.reset with henc := { Henc.reset with freq := freq, tree := tree, root := root } }) hi

/-- BUILD and GENCODES of a table with a symbol are functions of it, and give a code to every symbol present. -/
theorem exists_tree_and_table {freq : Vector Word 256} (hleaves : treeLeaves freq ≠ []) (hsum : freqSum freq < 2 ^ 32) :
    ∃ (tree : Vector TreeNode 255) (root : NodeId) (tab : Vector Entry 256),
      (∀ x, 0 < (bySymbol freq x).toNat → 1 ≤ codeLen tab x) ∧
      ∀ s : State, s.henc.freq = freq → (buildBody s).andThen gencodesBody =
        .done { s with henc := { s.henc with tree := tree, root := root, codeTab := tab, phase := .codes } } := by
  obtain ⟨tree, root, htree, hbuild⟩ := exists_tree hleaves hsum
  obtain ⟨v, hv⟩ := htree.exists_visits
  refine ⟨tree, root, tableOf v, fun x hx => ?_, fun s hfreq => ?_⟩
  · obtain ⟨c, hc⟩ := (htree.exists_treeCode_iff_present x).mpr hx
    exact ((htree.treeCode_iff hv x c).mp hc).1
  · rw [hbuild s hfreq, Stage.andThen_done, gencodesBody, hv]

/-- `syms` is the input of HENC, all of it written and within IN_CAP. -/
structure WrittenInput (s : State) (syms : List Byte) : Prop where
  length : syms.length = s.henc.inLen.toNat
  cells  : holds s.henc.inBuf syms
  cap    : syms.length ≤ s.caps.inCap.toNat

/-- The first three stages make of a written input a coding that is a function of its symbols, with a code for each. -/
theorem exists_coding {syms : List Byte} (hshort : syms.length < 2 ^ 32) (hne : syms ≠ []) :
    ∃ k : Coding, (∀ x ∈ syms, 1 ≤ codeLen k.codeTab x) ∧ ∀ s, WrittenInput s syms →
      compressBody s = ((encodeBody (s.withCoding k)).andThen packBody) := by
  obtain ⟨tree, root, tab, hcoded, hdone⟩ := exists_tree_and_table (treeLeaves_symbolCounts_ne_nil hshort hne)
    ((freqSum_symbolCounts hshort).trans_lt hshort)
  refine ⟨⟨symbolCounts syms, BitVec.ofNat 9 (distinctSymbols (symbolCounts syms)), tree, root, tab⟩,
    fun x hx => hcoded x ((symbolCounts_pos_iff hshort x).mpr hx), fun s ⟨hlen, hin, hcap⟩ => ?_⟩
  rw [compressBody, analyzeBody_of_written (hlen ▸ hcap) hlen hin, Stage.andThen_done, hdone _ rfl, Stage.andThen_done]
  rfl

section
variable {s : State} {syms : List Byte} {k : Coding} (hw : WrittenInput s syms)
include hw

/-- When the codes fit BITBUF, ENCODE writes and PACK packs them. -/
theorem encodeBody_andThen_packBody_of_fits (hcoded : ∀ x ∈ syms, 1 ≤ codeLen k.codeTab x)
    (hfit : codedLength k.codeTab syms ≤ s.caps.bitCap) :
    (encodeBody (s.withCoding k)).andThen packBody = .done ((s.withCoding k).withPacked (codedBits k.codeTab syms)) := by
  obtain ⟨hlen, hin, hcap⟩ := hw
  have hencode := encodeBody_of_written (s := s.withCoding k) (hlen ▸ hcap) hlen hin
    (fun x hx => Nat.one_le_iff_ne_zero.mp (hcoded x hx)) hfit
  rw [hencode, Stage.andThen_done]
  refine packBody_of_written (bits := (codedBits k.codeTab syms).take (word (codedBits k.codeTab syms).length).toNat)
    (List.length_take_of_le (toNat_word_le _)) fun i hi => ?_
  rw [List.getElem_take]
  exact (overwritten_putRun _ _).holds i _

/-- Else ENCODE ends in CapacityError for BITBUF. -/
theorem encodeBody_of_not_fits (hcoded : ∀ x ∈ syms, 1 ≤ codeLen k.codeTab x)
    (hfit : ¬ codedLength k.codeTab syms ≤ s.caps.bitCap) :
    ∃ pos, (encodeBody (s.withCoding k)).andThen packBody = encodeFail (s.withCoding k) ⟨.capacity, 5, pos⟩ := by
  rcases encodeBody_of_coded (s := s.withCoding k) hw.length hw.cells hw.cap hcoded with ⟨hle, -⟩ | ⟨pos, hfail⟩
  · exact absurd hle hfit
  · exact ⟨pos, by rw [hfail]; rfl⟩

end

/-- Settles O39: every symbol of the input has a code, so ENCODE can fail only for want of space, and PACK never fails. -/
theorem compressEndsPackedOrOutOfSpace : Obligations.CompressEndsPackedOrOutOfSpace := by
  intro s syms hs hlen hin hpos hcap
  have hw : WrittenInput s syms := ⟨hlen, hin, hcap⟩
  obtain ⟨k, hcoded, hbody⟩ := exists_coding (hlen ▸ s.henc.inLen.isLt) (List.ne_nil_of_length_pos hpos)
  rw [exec_hencCompress hs, hbody s hw]
  by_cases hfit : codedLength k.codeTab syms ≤ s.caps.bitCap
  · rw [encodeBody_andThen_packBody_of_fits hw hcoded hfit]
    exact ⟨_, rfl, .inl rfl⟩
  · obtain ⟨pos, hfail⟩ := encodeBody_of_not_fits hw hcoded hfit
    rw [hfail]
    exact ⟨_, rfl, .inr ⟨rfl, rfl, rfl⟩⟩

/-- A code has at most 255 bits, as LEN has 8 bits. -/
theorem codedLength_le (t : Vector Entry 256) (syms : List Byte) : codedLength t syms ≤ 255 * syms.length := by
  have hle : ∀ n ∈ syms.map (codeLen t), n ≤ 255 := by
    rintro n hn
    obtain ⟨x, -, rfl⟩ := List.mem_map.mp hn
    exact Nat.le_of_lt_succ (bySymbol t x).len.isLt
  have hsum := List.sum_le_card_nsmul _ _ hle
  rwa [List.length_map, smul_eq_mul, Nat.mul_comm] at hsum

/-- Settles O38: 255 bits for each symbol hold its code, and no length exceeds its register. -/
theorem compressOfAWrittenInputSucceeds : Obligations.CompressOfAWrittenInputSucceeds := by
  intro s syms hs hlen hin hpos hcap hroom hwf
  have hw : WrittenInput s syms := ⟨hlen, hin, hcap⟩
  obtain ⟨k, hcoded, hbody⟩ := exists_coding (hlen ▸ s.henc.inLen.isLt) (List.ne_nil_of_length_pos hpos)
  have hfit : codedLength k.codeTab syms ≤ s.caps.bitCap := (codedLength_le _ _).trans hroom
  have hbits : (word (codedBits k.codeTab syms).length).toNat = codedLength k.codeTab syms := by
    rw [length_codedBits]
    exact toNat_word (hfit.trans_lt (Capacities.bitCaps_lt hwf).1)
  have hout : ((codedBits k.codeTab syms).take (word (codedBits k.codeTab syms).length).toNat) =
      codedBits k.codeTab syms := by
    rw [hbits, ← length_codedBits, List.take_length]
  refine ⟨(s.withCoding k).withPacked (codedBits k.codeTab syms), ?_, rfl, rfl, hcoded, hbits,
    (overwritten_putRun _ _).holds, ?_⟩
  · rw [exec_hencCompress hs, hbody s hw, encodeBody_andThen_packBody_of_fits hw hcoded hfit]
    rfl
  · have hlt := (Capacities.bitCaps_lt hwf).1
    have hpacked : (packedBuffer (codedBits k.codeTab syms)).length = 1 + (codedLength k.codeTab syms + 7) / 8 := by
      rw [length_packedBuffer_eq, length_codedBits]
    rw [State.withPacked, hout, hbits, hpacked]
    exact toNat_word (by omega)

/-- A run of writes leaves the same cells over any two buffers, as far as it reaches. -/
theorem cell?_putRun_congr {α : Type} (m n : Memory α) (vs : List α) {a : Nat} (ha : a < vs.length) :
    (m.putRun 0 vs).cell? a = (n.putRun 0 vs).cell? a :=
  ((overwritten_putRun m vs).holds a ha).trans ((overwritten_putRun n vs).holds a ha).symm

/-- Settles O44: coding and bits are functions of the input, and whether they fit depends on the capacities alone. -/
theorem compressionIsDeterministic : Obligations.CompressionIsDeterministic := by
  intro s r t u syms hcaps hs hr hlen hrlen hin hrin ht hu hphase
  have hcap : syms.length ≤ s.caps.inCap.toNat := by
    by_contra hlt
    rw [exec_hencCompress hs, compressBody, analyzeBody_of_lt (hlen ▸ Nat.lt_of_not_le hlt)] at ht
    cases ht
    exact absurd hphase nofun
  have hne : syms ≠ [] := by
    rintro rfl
    obtain ⟨hempty, -⟩ := emptyInputIsAnErrorOnBothSides s
    rw [hempty hs (BitVec.eq_of_toNat_eq hlen.symm)] at ht
    cases ht
    exact absurd hphase nofun
  have hw : WrittenInput s syms := ⟨hlen, hin, hcap⟩
  have hrw : WrittenInput r syms := ⟨hrlen ▸ hlen, hrin, hcaps ▸ hcap⟩
  obtain ⟨k, hcoded, hbody⟩ := exists_coding (hlen ▸ s.henc.inLen.isLt) hne
  rw [exec_hencCompress hs, hbody s hw] at ht
  rw [exec_hencCompress hr, hbody r hrw] at hu
  by_cases hfit : codedLength k.codeTab syms ≤ s.caps.bitCap
  · rw [encodeBody_andThen_packBody_of_fits hw hcoded hfit] at ht
    rw [encodeBody_andThen_packBody_of_fits hrw hcoded (hcaps ▸ hfit)] at hu
    cases ht
    cases hu
    exact ⟨rfl, rfl, rfl, rfl, rfl, rfl, rfl, fun a ha => cell?_putRun_congr _ _ _ (ha.trans_le (toNat_word_le _)), rfl,
      fun a ha => cell?_putRun_congr _ _ _ (ha.trans_le (toNat_word_le _))⟩
  · obtain ⟨pos, hfail⟩ := encodeBody_of_not_fits hw hcoded hfit
    rw [hfail] at ht
    cases ht
    exact absurd hphase nofun

end Sys2Proof.Machine
end

section
/-! SUPPORT. ENCODE, UNPACK, SCAN and DECODE of written buffers (spec/44_bitpack.md R161, 45_bitunpack.md R176, R180,
46_orchestrator.md R191). -/
namespace Sys2Proof.Machine

/-- Settles O29: a written input is read as it stands, with no draw. -/
theorem encodeWritesTheConcatenatedCodes : Obligations.EncodeWritesTheConcatenatedCodes := by
  intro s syms hs hcap hlen hin hcoded hfit
  have hread := inputSymbols_of_written hlen hin
  have hexec := exec_hencEncode_of_fits hs hcap (by rwa [hread]) (by rwa [hread])
  rw [hread] at hexec
  exact ⟨_, hexec, overwritten_putRun _ _⟩

/-- Settles O35: written bits are read as they stand, with no draw, and their shortest matches emit their symbols. -/
theorem scanEmitsTheConcatenatedSymbols : Obligations.ScanEmitsTheConcatenatedSymbols := by
  intro s cs syms hs hlen hbits hmatches hroom
  have hread := payloadBits_of_written hlen hbits
  have hexec := exec_hdecScan_of_ok hs (out := syms) (by rw [hread]; exact scanFrom_matchesAll_fits hmatches hroom)
  rw [hread] at hexec
  exact ⟨_, hexec, overwritten_putRun _ _⟩

/-! ### UNPACK with a written header -/

section
variable {s : State} {header : Byte}

/-- Reading payload bytes that are all written draws nothing. -/
theorem payloadBytes_draws_of_written {n d : Nat} (h : ∀ i, i < n → s.hdec.payBuf.cell? (1 + i / 8) ≠ none) :
    (payloadBytes s n d).2 = d :=
  Memory.drawList_draws_of_written _ _ _ _ fun a ha => by
    obtain ⟨i, hi, rfl⟩ := List.mem_map.mp ha
    exact h i (List.mem_range.mp hi)

variable (h1 : 1 ≤ s.hdec.payLen.toNat) (hcap : s.hdec.payLen.toNat ≤ s.caps.payCap.toNat)
  (hcell : s.hdec.payBuf.cell? 0 = some header) (hhdr : header.toNat ≤ 7)
  (hpay : header.toNat ≤ 8 * (s.hdec.payLen.toNat - 1))
include h1 hcap hcell hhdr hpay

/-- UNPACK with a written header that passes the checks: it draws for the payload bytes alone. -/
theorem unpackBody_of_written_header :
    let bytes := payloadBytes s (8 * (s.hdec.payLen.toNat - 1) - header.toNat) s.draws
    unpackBody s = .done { s with
      hdec := { s.hdec with
        dBits := s.hdec.dBits.putRun 0 (unpackedBits bytes.1),
        dBitLen := word (8 * (s.hdec.payLen.toNat - 1) - header.toNat), phase := .unpacked },
      draws := bytes.2 } := by
  have hread : headerByte s = (header, s.draws) := Memory.draw_of_some hcell
  have hbody := unpackBody_of_header_le h1 hcap (by rwa [hread]) (by rwa [hread])
  rwa [hread] at hbody

/-- UNPACK of a written payload writes the bits its bytes hold, and draws nothing. -/
theorem unpackBody_of_written {bits : Bits} (hlen : bits.length = 8 * (s.hdec.payLen.toNat - 1) - header.toNat)
    (hbits : ∀ i b, bits[i]? = some b → ∃ v, s.hdec.payBuf.cell? (1 + i / 8) = some v ∧ v.getLsbD (7 - i % 8) = b) :
    unpackBody s = .done { s with hdec := { s.hdec with
      dBits := s.hdec.dBits.putRun 0 bits, dBitLen := word bits.length, phase := .unpacked } } := by
  have hbody := unpackBody_of_written_header h1 hcap hcell hhdr hpay
  dsimp only at hbody
  have hcells : ∀ i, i < bits.length → s.hdec.payBuf.cell? (1 + i / 8) ≠ none := fun i hi => by
    obtain ⟨v, hv, -⟩ := hbits i _ (List.getElem?_eq_getElem hi)
    rw [hv]
    nofun
  have hunpacked : unpackedBits (payloadBytes s bits.length s.draws).1 = bits := by
    refine List.ext_getElem (by simp) fun i hi hi' => ?_
    obtain ⟨v, hv, hbit⟩ := hbits i _ (List.getElem?_eq_getElem hi')
    have hget := getElem?_unpackedBits (getElem?_payloadBytes (d := s.draws) hi' hv)
    rw [hbit, List.getElem?_eq_getElem hi] at hget
    exact Option.some.inj hget
  rw [← hlen, hunpacked, payloadBytes_draws_of_written hcells] at hbody
  exact hbody

end

/-- Settles O33: UNPACK writes the bits of the bytes it reads, which are the written ones where there are any. -/
theorem unpackExpandsThePayload : Obligations.UnpackExpandsThePayload := by
  intro s header hs h1 hcap hcell hhdr hpay
  have hlen := (length_unpackedBits _).trans
    (length_payloadBytes s (8 * (s.hdec.payLen.toNat - 1) - header.toNat) s.draws)
  refine ⟨_, _, _, (exec_hdecUnpack hs).trans
    (congrArg Stage.result (unpackBody_of_written_header h1 hcap hcell hhdr hpay)), overwritten_putRun _ _, hlen,
    fun i v hi hv => getElem?_unpackedBits (getElem?_payloadBytes (hi.trans_eq hlen) hv), fun hwritten => ?_⟩
  exact payloadBytes_draws_of_written fun i hi => hwritten (1 + i / 8) (by omega)

/-! ### DECODE -/

theorem length_bits8 (v : Byte) : (bits8 v).length = 8 := by rw [bits8, List.length_map, List.length_range]

/-- Bit `i` of a payload is bit `7 - i % 8` of its byte `i / 8`. -/
theorem getElem?_flatten_bits8 (payload : List Byte) (i : Nat) :
    (payload.map bits8).flatten[i]? = payload[i / 8]?.map fun v => v.getLsbD (7 - i % 8) := by
  induction payload generalizing i with
  | nil => rfl
  | cons v payload ih =>
    rw [List.map_cons, List.flatten_cons]
    rcases Nat.lt_or_ge i 8 with hi | hi
    · have hdiv : i / 8 = 0 := Nat.div_eq_of_lt hi
      rw [List.getElem?_append_left (hi.trans_eq (length_bits8 v).symm), hdiv, Nat.mod_eq_of_lt hi, bits8,
        List.getElem?_map, List.getElem?_range hi]
      rfl
    · obtain ⟨j, rfl⟩ := Nat.exists_eq_add_of_le hi
      have hdiv : (8 + j) / 8 = j / 8 + 1 := by omega
      rw [List.getElem?_append_right ((length_bits8 v).trans_le hi), length_bits8, Nat.add_sub_cancel_left, ih, hdiv,
        List.getElem?_cons_succ, Nat.add_mod_left]

theorem length_flatten_bits8 (payload : List Byte) : (payload.map bits8).flatten.length = 8 * payload.length := by
  rw [List.length_flatten, List.map_map, show List.length ∘ bits8 = fun _ => 8 from funext length_bits8, List.map_const',
    List.sum_replicate, smul_eq_mul, Nat.mul_comm]

/-- Settles O42: UNPACK writes the payload's bits, and SCAN takes them apart into the matches they are made of. -/
theorem decodeOfCodedBitsSucceeds : Obligations.DecodeOfCodedBitsSucceeds := by
  intro s header payload cs syms hs hpayLen hcap hwf hbuf hhdr hpay hcs hmatches hroom
  have hsub : s.hdec.payLen.toNat - 1 = payload.length := by omega
  have hlen : cs.flatten.length = 8 * payload.length - header.toNat := by
    rw [← hcs, List.length_take_of_le ((Nat.sub_le _ _).trans_eq (length_flatten_bits8 payload).symm)]
  have hbits : ∀ i b, cs.flatten[i]? = some b →
      ∃ v, s.hdec.payBuf.cell? (1 + i / 8) = some v ∧ v.getLsbD (7 - i % 8) = b := by
    intro i b hb
    have hi : i < 8 * payload.length - header.toNat := hlen ▸ (List.getElem?_eq_some_iff.mp hb).1
    rw [← hcs, List.getElem?_take_of_lt hi, getElem?_flatten_bits8, Option.map_eq_some_iff] at hb
    obtain ⟨v, hv, hbit⟩ := hb
    obtain ⟨hi, rfl⟩ := List.getElem?_eq_some_iff.mp hv
    have hcell := hbuf (1 + i / 8) (by rw [List.length_cons]; omega)
    simp only [Nat.add_comm 1, List.getElem_cons_succ] at hcell
    exact ⟨_, by rwa [Nat.add_comm 1], hbit⟩
  have hword : (word cs.flatten.length).toNat = cs.flatten.length := by
    refine toNat_word (Nat.lt_of_le_of_lt ?_ (Capacities.bitCaps_lt hwf).2)
    rw [hlen, Capacities.dBitCap]
    omega
  have hunpack := unpackBody_of_written (header := header) (by omega) hcap (hbuf 0 (Nat.succ_pos _)) hhdr (hsub ▸ hpay)
    (hsub ▸ hlen) hbits
  refine ⟨s.hdec.dBits.putRun 0 cs.flatten, s.hdec.symBuf.putRun 0 syms, ?_, overwritten_putRun _ _,
    overwritten_putRun _ _⟩
  rw [exec_hdecDecode hs, decodeBody, hunpack, Stage.andThen_done,
    scanBody_of_written hword.symm (overwritten_putRun _ _).holds, ← hlen]
  dsimp only
  rw [scanFrom_matchesAll_fits hmatches hroom]
  rfl

end Sys2Proof.Machine
end

section
/-! SUPPORT. Commands and the other unit: a command does the same over any state of the unit it does not belong to
(spec/10_state.md R20, 20_memory.md R83). -/
namespace Sys2Proof.Machine

/-- The state `t` with all but its capacities, its unit `u` and its count of draws taken from `r`. -/
def graft (u : UnitId) (r t : State) : State :=
  match u with
  | .henc => { r with caps := t.caps, henc := t.henc, draws := t.draws }
  | .hdec => { r with caps := t.caps, hdec := t.hdec, draws := t.draws }

/-- A change of the state a stage ends in. -/
def Stage.map (f : State → State) : Stage → Stage
  | .done s   => .done (f s)
  | .raised s => .raised (f s)
  | .stuck e  => .stuck e

theorem Stage.result_map (f : State → State) (x : Stage) : (x.map f).result = thenDo f x.result := by
  cases x <;> rfl

/-- Composition commutes with a change that the second body commutes with. -/
theorem Stage.map_andThen {f : State → State} {x : Stage} {b : State → Stage} (hb : ∀ s, b (f s) = (b s).map f) :
    (x.map f).andThen b = (x.andThen b).map f := by
  cases x with
  | done s => exact hb s
  | raised s => rfl
  | stuck e => rfl

section
variable (r s : State)

theorem analyzeBody_graft : analyzeBody (graft .henc r s) = (analyzeBody s).map (graft .henc r) := by
  rcases Nat.lt_or_ge s.caps.inCap.toNat s.henc.inLen.toNat with hlt | hle
  · rw [analyzeBody_of_lt hlt, analyzeBody_of_lt (s := graft .henc r s) hlt]
    rfl
  · rw [analyzeBody_of_le hle, analyzeBody_of_le (s := graft .henc r s) hle]
    rfl

theorem buildBody_graft : buildBody (graft .henc r s) = (buildBody s).map (graft .henc r) := by
  by_cases hleaves : treeLeaves s.henc.freq = []
  · rw [buildBody_of_no_leaf hleaves, buildBody_of_no_leaf (s := graft .henc r s) hleaves]
    rfl
  · rw [buildBody_of_leaves hleaves, buildBody_of_leaves (s := graft .henc r s) hleaves]
    rfl

theorem gencodesBody_graft : gencodesBody (graft .henc r s) = (gencodesBody s).map (graft .henc r) := by
  cases hv : rootCodes s.henc.tree s.henc.root with
  | error e => simp only [gencodesBody, graft, hv, Stage.map]
  | ok v => simp only [gencodesBody, graft, hv, Stage.map]

theorem encodeBody_graft : encodeBody (graft .henc r s) = (encodeBody s).map (graft .henc r) := by
  rcases Nat.lt_or_ge s.caps.inCap.toNat s.henc.inLen.toNat with hlt | hle
  · rw [encodeBody_of_lt hlt, encodeBody_of_lt (s := graft .henc r s) hlt]
    rfl
  · cases hloop : encodeFrom s.henc.codeTab s.caps.bitCap (inputSymbols s).1 0 0 with
    | error f =>
      rw [encodeBody_of_error hle hloop, encodeBody_of_error (s := graft .henc r s) hle hloop]
      rfl
    | ok c =>
      rw [encodeBody_of_ok hle hloop, encodeBody_of_ok (s := graft .henc r s) hle hloop]
      rfl

theorem packBody_graft : packBody (graft .henc r s) = (packBody s).map (graft .henc r) := rfl

theorem compressBody_graft : compressBody (graft .henc r s) = (compressBody s).map (graft .henc r) := by
  rw [compressBody, analyzeBody_graft, Stage.map_andThen (buildBody_graft r), Stage.map_andThen (gencodesBody_graft r),
    Stage.map_andThen (encodeBody_graft r), Stage.map_andThen (packBody_graft r)]
  rfl

theorem unpackBody_graft : unpackBody (graft .hdec r s) = (unpackBody s).map (graft .hdec r) := by
  rcases Nat.lt_or_ge s.caps.payCap.toNat s.hdec.payLen.toNat with hlt | hcap
  · rw [unpackBody_of_lt hlt, unpackBody_of_lt (s := graft .hdec r s) hlt]
    rfl
  rcases Nat.eq_zero_or_pos s.hdec.payLen.toNat with h0 | h1
  · rw [unpackBody_of_eq_zero h0, unpackBody_of_eq_zero (s := graft .hdec r s) h0]
    rfl
  rcases Nat.lt_or_ge 7 (headerByte s).1.toNat with hgt | hle
  · rw [unpackBody_of_header_gt h1 hcap hgt, unpackBody_of_header_gt (s := graft .hdec r s) h1 hcap hgt]
    rfl
  rcases Nat.lt_or_ge (8 * (s.hdec.payLen.toNat - 1)) (headerByte s).1.toNat with hlt | hpay
  · rw [unpackBody_of_payload_lt h1 hcap hle hlt, unpackBody_of_payload_lt (s := graft .hdec r s) h1 hcap hle hlt]
    rfl
  · rw [unpackBody_of_header_le h1 hcap hle hpay, unpackBody_of_header_le (s := graft .hdec r s) h1 hcap hle hpay]
    rfl

theorem scanBody_graft : scanBody (graft .hdec r s) = (scanBody s).map (graft .hdec r) := by
  cases hloop : scanFrom s.hdec.decTab s.caps.symCap.toNat (payloadBits s).1 0 [] 0 0 with
  | error f =>
    rw [scanBody_of_error hloop, scanBody_of_error (s := graft .hdec r s) hloop]
    rfl
  | ok out =>
    rw [scanBody_of_ok hloop, scanBody_of_ok (s := graft .hdec r s) hloop]
    rfl

theorem decodeBody_graft : decodeBody (graft .hdec r s) = (decodeBody s).map (graft .hdec r) := by
  rw [decodeBody, unpackBody_graft, Stage.map_andThen (scanBody_graft r)]
  rfl

/-- Every body does the same over any state of the other unit. -/
theorem commandBody_graft (i : Instr) :
    commandBody i (graft i.unit r s) = (commandBody i s).map (graft i.unit r) := by
  cases i with
  | hencNop | hencClear | hencTabclr | hencUsetab | hdecNop | hdecClear | hdecTabclr => rfl
  | hencAnalyze => exact analyzeBody_graft r s
  | hencBuild => exact buildBody_graft r s
  | hencGencodes => exact gencodesBody_graft r s
  | hencEncode => exact encodeBody_graft r s
  | hencPack => exact packBody_graft r s
  | hencCompress => exact compressBody_graft r s
  | hdecUnpack => exact unpackBody_graft r s
  | hdecScan => exact scanBody_graft r s
  | hdecDecode => exact decodeBody_graft r s

/-- The graft shows the PHASE of its unit as it was. -/
theorem phaseCode_graft (u : UnitId) : (graft u r s).phaseCode u = s.phaseCode u := by
  cases u <;> rfl

theorem inFault_graft (u : UnitId) : inFault (graft u r s) u ↔ inFault s u := by
  cases u <;> exact Iff.rfl

theorem raise_illegalCommand_graft (u : UnitId) (w : Word) :
    (graft u r s).raise u (illegalCommand (graft u r s) u w) = graft u r (s.raise u (illegalCommand s u w)) := by
  cases u <;> rfl

/-- Every command does the same over any state of the other unit. -/
theorem exec_graft (i : Instr) : exec i (graft i.unit r s) = thenDo (graft i.unit r) (exec i s) := by
  by_cases hmem : s.phaseCode i.unit ∈ runsIn i
  · rw [exec_of_mem_runsIn hmem, exec_of_mem_runsIn (by rwa [phaseCode_graft]), commandBody_graft, Stage.result_map]
  · have hmem' : (graft i.unit r s).phaseCode i.unit ∉ runsIn i := by rwa [phaseCode_graft]
    by_cases hf : inFault s i.unit
    · rw [exec_of_inFault_of_not_mem_runsIn hf hmem,
        exec_of_inFault_of_not_mem_runsIn ((inFault_graft r s _).mpr hf) hmem', thenDo_next]
    · rw [exec_of_not_mem_runsIn hf hmem, exec_of_not_mem_runsIn (mt (inFault_graft r s _).mp hf) hmem',
        raise_illegalCommand_graft, thenDo_next]

end

/-- Settles O56: the second state is the first with the rest of it grafted on. -/
theorem commandsDoNotReadTheOtherUnit : Obligations.CommandsDoNotReadTheOtherUnit := by
  intro i s r t hcaps hdraws hhenc hhdec ht
  have hr : r = graft i.unit r s := by
    cases hu : i.unit with
    | henc => rw [graft, ← hcaps, ← hdraws, ← hhenc hu]
    | hdec => rw [graft, ← hcaps, ← hdraws, ← hhdec hu]
  refine ⟨graft i.unit r t, ?_, ?_, fun hu => ?_, fun hu => ?_⟩
  · rw [hr, exec_graft, ht, thenDo_next, ← hr]
  · cases i.unit <;> rfl
  · rw [hu]
    rfl
  · rw [hu]
    rfl

end Sys2Proof.Machine
end
